-- ==== Sys2Proof/Word.lean ====
section
/-! DEFINITION. The word of the engine: every bus access, every control register and every random word is
32 bits wide (10_state.md R40, 20_memory.md R71, 43_generator.md R220). -/

namespace Sys2Proof

/-- A 32-bit word: a bus word, a command word, a scalar argument or result, a random word. -/
abbrev Word := BitVec 32

end Sys2Proof
end

