-- ==== Sys2Proof/Config.lean ====
section
/-! DEFINITION. What an implementation fixes, and the free values. The build parameters of 00_scope.md R8 are a
record that State holds (log 1); the decoder constants are named here (log 13); the free values have no body. The one whose type is
State, what a power-down leaves, stands after State (Machine/State.lean). -/

namespace Sys2Proof

/-- The size of the register aperture, 128 KiB (20_memory.md R70). -/
def apertureSize : Nat := 0x20000

/-- The parameters of one instance of the engine: the build parameters (R8), which never change
(70_reset_and_hazards.md R323), and where the platform puts the engine (20_memory.md R77). -/
structure Params where
  /-- VLEN: width of each vector register, in bits. -/
  vlen : Nat
  /-- NVREG: number of vector registers. -/
  nvreg : Nat
  /-- N0_MAX: largest number of circulant blocks the decoder accepts. -/
  n0Max : Nat
  /-- RNG_FIFO_DEPTH: capacity of the injected random-word FIFO, in words. -/
  fifoDepth : Nat
  /-- BASE: bus address of the register aperture, the platform's (R8, 20_memory.md R70, R77, U9). -/
  base : Nat
  /-- IRQ_LINE: the platform line that `irq` drives (R77, 60_exceptions.md R286, D16, U9). -/
  irqLine : Nat
  deriving DecidableEq, Repr, Inhabited

/-- The legal values of the parameters, as the table of R8 gives them; any line is legal. -/
def Params.legal (p : Params) : Bool :=
  decide (p.vlen % 32 = 0) && decide (32 ≤ p.vlen) && decide (p.vlen ≤ 32768) &&
  decide (1 ≤ p.nvreg) && decide (p.nvreg ≤ 16) &&
  decide (1 ≤ p.n0Max) && decide (p.n0Max ≤ 8) &&
  decide (1 ≤ p.fifoDepth) && decide (p.fifoDepth ≤ 255) &&
  decide (p.base % apertureSize = 0)

/-- The default instance of R8. BASE and IRQ_LINE are OPEN there; the 0 they have here is the model's (DESIGN CHOICE,
log 10), and no statement rests on it. -/
def Config.defaultParams : Params :=
  { vlen := 4096, nvreg := 16, n0Max := 4, fifoDepth := 16, base := 0, irqLine := 0 }

/-- DEC_LIMIT, the decoder's round budget (R8, 44_decoder.md R253). A named constant: the document's literals are
unaudited (93_implementation_defined.md U11). -/
def Config.decLimit : Nat := 10

/-- DEC_DELTA, the decoder's threshold offset (R8, R253, U11). -/
def Config.decDelta : Nat := 5

/-- FREE VALUE (log 4; 43_generator.md R220, U1, D41): the n-th word the entropy port delivers. The spec constrains
neither its value nor its relation to other words, so nothing here gives it one. -/
opaque Config.entropy : Nat → Word

/-- FREE VALUE (log 6; 40_execution.md R136): what RES holds when gen.inv ends with an attempt number of 2^32 or
more, which the spec does not state; it can arise only with MAXTRY = 0. -/
opaque Config.attemptOverflow : Nat → Word

end Sys2Proof
end

