-- ==== Sys2Proof/Machine/State.lean ====
section
/-! DEFINITION. The state of the engine (10_state.md R30 to R56), of the agents around it, and the state after reset
(70_reset_and_hazards.md R320). Plain data throughout. -/

namespace Sys2Proof.Machine

/-- The codes of STATUS.ERR (60_exceptions.md R280). Codes 10 to 15 are never produced (U5). -/
inductive ErrCode where
  | ok | illegalCmd | badReg | badCfg | badArg | indexRange | noInverse | decodeFail | genExhausted | hashShort
  deriving DecidableEq, Repr, Inhabited

/-- Generator progress of the command in flight (R35): the partial vector, its set-bit count, the draw count of the
current vector, and the attempt number. The counters do not overflow (00_scope.md R13). -/
structure Progress where
  vec : Nat
  cnt : Nat
  draws : Nat
  attempt : Nat
  deriving DecidableEq, Repr

/-- Progress before the first draw. -/
def Progress.fresh : Progress := { vec := 0, cnt := 0, draws := 0, attempt := 0 }

/-- The in-flight command (R35) and the random source latched for it (R36). Present exactly while STATUS.BUSY = 1. -/
structure InFlight where
  word : Word
  rngSrc : Bool
  progress : Progress
  deriving DecidableEq, Repr

/-- Width of a bus access. Only 32-bit accesses are served (20_memory.md R71). -/
inductive Width where
  | w8 | w16 | w32 | w64
  deriving DecidableEq, Repr

/-- One access to the aperture; the offset is counted in bytes from BASE (R70, R11). The data of a write other than 32
bits wide is never used, so one word stands for it. -/
inductive Access where
  | read (offset : BitVec 17) (width : Width)
  | write (offset : BitVec 17) (width : Width) (data : Word)
  deriving DecidableEq, Repr

/-- One access of a bus master on the host bus, at a byte address (R70, R77). -/
inductive Transfer where
  | read (address : Nat) (width : Width)
  | write (address : Nat) (width : Width) (data : Word)
  deriving DecidableEq, Repr

/-- What the bus returns for an access: the data of a read, or the bus error of R72. -/
inductive Reply where
  | data (w : Word)
  | busError
  deriving DecidableEq, Repr

/-- One operation of the host's program, as the directives of 30_encoding.md R107 expand to them. -/
inductive HostOp where
  /-- One access at an offset from BASE (R11), whose reply is recorded (`wr`, `rd`, `vld`, `vst`, `feed`, a command
  line). -/
  | access (a : Access)
  /-- `wait`: read STATUS, and stay here unless BUSY = 0. -/
  | wait
  /-- `br NAME[hi:lo] == value, L` (`whenEqual` true) or `!=`: one read, then go to operation `target` or on. -/
  | branch (offset : BitVec 17) (hi lo : Nat) (whenEqual : Bool) (value : Word) (target : Nat)
  deriving DecidableEq, Repr

/-- Which agent moves next (R79, R331). The list of turns is part of the state, so a statement about every state is a
statement about every interleaving (log 2). -/
inductive Turn where
  /-- The engine takes a step, if one is enabled. -/
  | engine
  /-- The host performs the next operation of its program. -/
  | host
  /-- Another bus master performs an access (R85), at any address of the bus. -/
  | access (x : Transfer)
  /-- The platform asserts reset (R320). -/
  | reset
  /-- The platform takes the engine's power away and gives it back (60_exceptions.md R297). -/
  | powerDown
  deriving DecidableEq, Repr

/-- The state: the engine's (R30), then the model's own fields for the agents around it. -/
structure State where
  /-- The parameters: those that CAP0 and CAP1 report, fixed when the engine is built (R42, R43, R323), and the
  platform's BASE and IRQ_LINE (R77). -/
  params : Params
  /-- The vector registers (R31), each as its integer value int(V[r]) (42_combinatorial.md R190, log 9). -/
  vregs : List Nat
  /-- CTRL.IE (R45). -/
  ie : Bool
  /-- CTRL.RNG_SRC (R45). -/
  rngSrc : Bool
  /-- STATUS.DONE (R46). -/
  done : Bool
  /-- STATUS.OVERRUN (R46). -/
  overrun : Bool
  /-- STATUS.BUSY_ACC (R46). -/
  busyAcc : Bool
  /-- STATUS.RNG_OVF (R46). -/
  rngOvf : Bool
  /-- STATUS.RNG_WAIT (R46). -/
  rngWait : Bool
  /-- STATUS.ERR (R46). -/
  err : ErrCode
  /-- CMD_LAST, read through CMD (R44). -/
  cmdLast : Word
  /-- ARG0 (R49). -/
  arg0 : Word
  /-- ARG1 (R50). -/
  arg1 : Word
  /-- RES (R51). -/
  res : Word
  /-- CFG_P.P (R47). -/
  cfgP : BitVec 16
  /-- CFG_N0.N0 (R48). -/
  cfgN0 : BitVec 8
  /-- GEN_CFG.MAXDRAW (R52). -/
  maxDraw : BitVec 16
  /-- GEN_CFG.MAXTRY (R52). -/
  maxTry : BitVec 16
  /-- DEC_SHIFT[b].SHIFT, b < N0_MAX (R55). -/
  decShift : List (BitVec 16)
  /-- The injected random-word FIFO, oldest word first (R37). -/
  fifo : List Word
  /-- The in-flight command (R35, R36). STATUS.BUSY is 1 exactly when there is one (log 11). -/
  inflight : Option InFlight
  /-- The model's own: how many words the entropy port has delivered (log 4). -/
  entropyNext : Nat
  /-- The model's own: the turns still to come, oldest first (log 2). -/
  agenda : List Turn
  /-- The model's own: the host's program (R107, R332, log 3). -/
  prog : List HostOp
  /-- The model's own: index of the host's next operation. -/
  hostPc : Nat
  /-- The model's own: what the bus returned to the host's program, newest first (R332, log 17). -/
  replies : List Reply
  /-- The model's own: what the bus returned to other masters, newest first (R85, log 17). -/
  otherReplies : List Reply
  /-- The model's own: how often the platform has taken the power away (R297, log 16). -/
  powerDowns : Nat
  deriving DecidableEq, Repr, Inhabited

/-- The reasons a step could stop the machine with a fault. There is none: the engine takes no trap
(60_exceptions.md R288), and its one bus fault (R72, R283) leaves it running and is a reply (log 8). Nobody raises
one, which is safe. -/
inductive Fault where
  deriving DecidableEq, Repr

/-- The reasons a step could be refused. -/
inductive Refusal where
  /-- Raised by an arm of `exec` whose command has no meaning yet; no arm raises it. Safe. -/
  | notModelled (mnemonic : String)
  deriving DecidableEq, Repr

/-- STATUS.BUSY (R46): a command is in flight. -/
def State.busy (s : State) : Bool := s.inflight.isSome

/-- The state of the engine after reset (R320), for the build parameters `p`; the surroundings are empty. -/
def State.resetOf (p : Params) : State where
  params := p
  vregs := List.replicate p.nvreg 0
  ie := false
  rngSrc := false
  done := false
  overrun := false
  busyAcc := false
  rngOvf := false
  rngWait := false
  err := .ok
  cmdLast := 0
  arg0 := 0
  arg1 := 0
  res := 0
  cfgP := 0
  cfgN0 := 2
  maxDraw := 0
  maxTry := 256
  decShift := List.replicate p.n0Max 1
  fifo := []
  inflight := none
  entropyNext := 0
  agenda := []
  prog := []
  hostPc := 0
  replies := []
  otherReplies := []
  powerDowns := 0

/-- The default instance right after reset (R8, R320): idle, waiting for a CMD write (R322). -/
def State.reset : State := State.resetOf Config.defaultParams

end Sys2Proof.Machine

namespace Sys2Proof

/-- FREE VALUE (log 16; 60_exceptions.md R297, U16): the engine state that the n-th power-down leaves, of the state it
meets. The spec says "any value until a reset", and not whether any state survives, so nothing here says either. -/
opaque Config.afterPowerDown : Nat → Machine.State → Machine.State

end Sys2Proof
end

