-- ==== Sys2Proof/Machine/Flags.lean ====
section
/-! DEFINITION. STATUS as a word, its write-one-to-clear bits, the error codes, and the interrupt output
(10_state.md R34, R38, R46; 60_exceptions.md R280, R286). -/

namespace Sys2Proof.Machine

/-- The number of an error code (R280). -/
def ErrCode.code : ErrCode → BitVec 4
  | .ok => 0
  | .illegalCmd => 1
  | .badReg => 2
  | .badCfg => 3
  | .badArg => 4
  | .indexRange => 5
  | .noInverse => 6
  | .decodeFail => 7
  | .genExhausted => 8
  | .hashShort => 9

/-- STATUS as a host reads it (R46): ERR in [11:8], RES0 in [31:12] and [7:6], the flags below. -/
def State.statusWord (s : State) : Word :=
  0#20 ++ s.err.code ++ 0#2 ++ BitVec.ofBool s.rngWait ++ BitVec.ofBool s.rngOvf ++ BitVec.ofBool s.busyAcc ++
    BitVec.ofBool s.overrun ++ BitVec.ofBool s.done ++ BitVec.ofBool s.busy

/-- A host write to STATUS clears the W1C bits written as 1 and changes nothing else (R46, R39). -/
def State.writeStatus (s : State) (w : Word) : State :=
  { s with
    done := s.done && !w.getLsbD 1
    overrun := s.overrun && !w.getLsbD 2
    busyAcc := s.busyAcc && !w.getLsbD 3
    rngOvf := s.rngOvf && !w.getLsbD 4 }

/-- The interrupt output: CTRL.IE and STATUS.DONE (R38, R286). -/
def State.irq (s : State) : Bool := s.ie && s.done

/-- The level of a line of the platform's interrupt controller, as far as the engine drives it: `irq` on IRQ_LINE
(R286, 20_memory.md R77), and nothing on any other. -/
def State.irqAt (s : State) (line : Nat) : Bool := decide (line = s.params.irqLine) && s.irq

end Sys2Proof.Machine
end

