-- ==== Sys2Proof/Machine/Bits.lean ====
section
/-! DEFINITION. Bit vectors as natural numbers: bit i is the bit of weight 2^i (00_scope.md R10, R11). -/

namespace Sys2Proof.Machine

/-- `v[n-1:0]`, and `trunc_n(v)` (R11), which is v mod 2^n. -/
def low (n v : Nat) : Nat := v &&& (1 <<< n - 1)

/-- The n-bit vector whose bit i is `f i`. -/
def bitsOf : Nat → (Nat → Bool) → Nat
  | 0, _ => 0
  | n + 1, f => bitsOf n f ||| (if f n then 1 <<< n else 0)

/-- XOR of `f i` over i < n. -/
def xorOver : Nat → (Nat → Nat) → Nat
  | 0, _ => 0
  | n + 1, f => xorOver n f ^^^ f n

/-- Number of i < n with bit i of v set: `popcount(v[n-1:0])` (R11). -/
def popcount : Nat → Nat → Nat
  | 0, _ => 0
  | n + 1, v => popcount n v + (v.testBit n).toNat

/-- Largest `f i` over i < n, and 0 when n = 0. -/
def maxOver : Nat → (Nat → Nat) → Nat
  | 0, _ => 0
  | n + 1, f => max (maxOver n f) (f n)

/-- Number of binary digits, with `bitlen 0 = 0` (R11). -/
def bitlen (z : Nat) : Nat := if z = 0 then 0 else z.log2 + 1

end Sys2Proof.Machine
end

