-- ==== Sys2Proof/Syntax.lean ====
section
/-! DEFINITION. The commands of the engine: one constructor per row of the opcode map (30_encoding.md R104). -/

namespace Sys2Proof

/-- A command with its register fields, the numbers of vector registers (R101, R102). A field names a single register, or the first register of a
block for the block operands of the decoder commands (40_execution.md R134, step 4). -/
inductive Instr where
  /-- `nop` (40_execution.md R137). -/
  | nop
  /-- `pmul vD, vA, vB` (41_polynomial.md R160). -/
  | pmul (vd va vb : Nat)
  /-- `pinv vD, vA` (R161). -/
  | pinv (vd va : Nat)
  /-- `pinv.t vA` (R162). -/
  | pinvT (va : Nat)
  /-- `vxor vD, vA, vB` (R163). -/
  | vxor (vd va vb : Nat)
  /-- `vwt vA` (R164). -/
  | vwt (va : Nat)
  /-- `cmb.binom vD` (42_combinatorial.md R192). -/
  | cmbBinom (vd : Nat)
  /-- `cmb.unrank vD, vA` (R193). -/
  | cmbUnrank (vd va : Nat)
  /-- `cmb.unrank.r vD, vA` (R194). -/
  | cmbUnrankR (vd va : Nat)
  /-- `cmb.rank vD, vA` (R195). -/
  | cmbRank (vd va : Nat)
  /-- `gen.rand vD` (43_generator.md R222). -/
  | genRand (vd : Nat)
  /-- `gen.inv vD` (R224). -/
  | genInv (vd : Nat)
  /-- `gen.hash vD, vA` (R226). -/
  | genHash (vd va : Nat)
  /-- `dec.cw vD, vA` (44_decoder.md R254). -/
  | decCw (vd va : Nat)
  /-- `dec.syn vD, vA, vB` (R255). -/
  | decSyn (vd va vb : Nat)
  /-- `dec.synd vD, vA, vB` (R256). -/
  | decSynd (vd va vb : Nat)
  deriving DecidableEq, Repr

end Sys2Proof
end

