-- ==== Sys2Proof/Machine/Operands.lean ====
section
/-! DEFINITION. The operands of the commands (10_state.md R32): vector registers, blocks of registers, scalar and
configuration operands, and which of them each command uses (40_execution.md R134). -/

namespace Sys2Proof.Machine

/-! ## Vector registers -/

/-- `V[r]`, VLEN bits (R11, R31). -/
def State.vreg (s : State) (r : Nat) : Nat := low s.params.vlen (s.vregs.getD r 0)

/-- `V[r] <- v`, keeping VLEN bits (R11, R31). -/
def State.setVreg (s : State) (r : Nat) (v : Nat) : State :=
  { s with vregs := s.vregs.set r (low s.params.vlen v) }

/-- A list of destination writes, in order (40_execution.md R133). -/
def State.setVregs (s : State) : List (Nat × Nat) → State
  | [] => s
  | (r, v) :: rest => (s.setVreg r v).setVregs rest

/-! ## Configuration and scalar operands -/

/-- The block size P (10_state.md R47). -/
def State.P (s : State) : Nat := s.cfgP.toNat

/-- The number of blocks n0 (R48). -/
def State.n0 (s : State) : Nat := s.cfgN0.toNat

/-- The shift of block b (R55). -/
def State.shift (s : State) (b : Nat) : Nat := (s.decShift.getD b 0).toNat

/-- ARG0 as the unsigned number the commands take (R49): n, size or length. -/
def State.n (s : State) : Nat := s.arg0.toNat

/-- ARG1 as the unsigned number the commands take (R50): k or weight. -/
def State.k (s : State) : Nat := s.arg1.toNat

/-- `V[r][P-1:0]`: a polynomial or generating row (41_polynomial.md, 44_decoder.md R250). -/
def State.poly (s : State) (r : Nat) : Nat := low s.P (s.vreg r)

/-! ## Blocks (44_decoder.md R250) -/

/-- The N-bit word in blk(r): bit q is bit (q mod P) of register r + (q div P). -/
def State.blockWord (s : State) (r : Nat) : Nat :=
  bitsOf (s.n0 * s.P) fun q => (s.vreg (r + q / s.P)).testBit (q % s.P)

/-- The destination writes that put the N-bit word x into blk(r): bits at positions P and above are written 0. -/
def State.blockWrites (s : State) (r : Nat) (x : Nat) : List (Nat × Nat) :=
  (List.range s.n0).map fun b => (r + b, low s.P (x >>> (b * s.P)))

end Sys2Proof.Machine

namespace Sys2Proof

/-! ## What each command uses (40_execution.md R134) -/

/-- Step 2 of R134: the commands that use P. -/
def Instr.usesP : Instr → Bool
  | .pmul .. | .pinv .. | .pinvT .. | .decCw .. | .decSyn .. | .decSynd .. => true
  | .nop | .vxor .. | .vwt .. | .cmbBinom .. | .cmbUnrank .. | .cmbUnrankR .. | .cmbRank .. | .genRand .. | .genInv ..
  | .genHash .. => false

/-- Step 3 of R134: the commands that use n0 and the shifts. -/
def Instr.usesBlocks : Instr → Bool
  | .decCw .. | .decSyn .. | .decSynd .. => true
  | .nop | .pmul .. | .pinv .. | .pinvT .. | .vxor .. | .vwt .. | .cmbBinom .. | .cmbUnrank .. | .cmbUnrankR ..
  | .cmbRank .. | .genRand .. | .genInv .. | .genHash .. => false

/-- Step 4 of R134: the single-register fields. -/
def Instr.singleFields : Instr → List Nat
  | .nop => []
  | .pmul vd va vb => [vd, va, vb]
  | .pinv vd va => [vd, va]
  | .pinvT va => [va]
  | .vxor vd va vb => [vd, va, vb]
  | .vwt va => [va]
  | .cmbBinom vd => [vd]
  | .cmbUnrank vd va => [vd, va]
  | .cmbUnrankR vd va => [vd, va]
  | .cmbRank vd va => [vd, va]
  | .genRand vd => [vd]
  | .genInv vd => [vd]
  | .genHash vd va => [vd, va]
  | .decCw _ _ => []
  | .decSyn _ _ vb => [vb]
  | .decSynd vd _ _ => [vd]

/-- Step 4 of R134: the block fields. -/
def Instr.blockFields : Instr → List Nat
  | .decCw vd va => [vd, va]
  | .decSyn vd va _ => [vd, va]
  | .decSynd _ va vb => [va, vb]
  | .nop | .pmul .. | .pinv .. | .pinvT .. | .vxor .. | .vwt .. | .cmbBinom .. | .cmbUnrank .. | .cmbUnrankR ..
  | .cmbRank .. | .genRand .. | .genInv .. | .genHash .. => []

end Sys2Proof
end

