-- ==== Sys2Proof/Machine/Ops.lean ====
section
/-! DEFINITION. The operations every command shares: acceptance, the checks, completion, reset and power-down
(40_execution.md R130 to R135, 70_reset_and_hazards.md R320, R321). -/

namespace Sys2Proof.Machine

/-! ## Acceptance and completion -/

/-- Acceptance of the command word w (R130). It leaves RNG_WAIT, which is 0 on an idle engine but after a power-down
(log 22). -/
def State.accept (s : State) (w : Word) : State :=
  { s with
    cmdLast := w
    inflight := some { word := w, rngSrc := s.rngSrc, progress := .fresh }
    done := false
    err := .ok }

/-- The completion step (R133): destination writes, RES, ERR, DONE, and the in-flight command is discarded. The engine
takes no trap, so this is also how every error is reported (60_exceptions.md R280, R288). -/
def State.complete (s : State) (code : ErrCode) (res : Word) (dests : List (Nat × Nat)) : State :=
  { s.setVregs dests with res := res, err := code, done := true, inflight := none }

/-- `raise ERR_NAME(res)`: completion with an error code and no destination write (00_scope.md R11, R135). -/
def State.raise (s : State) (code : ErrCode) (res : Word) : State := s.complete code res []

/-! ## Checks (R134, 60_exceptions.md R284) -/

/-- Step 2 of R134 fails: not 1 ≤ P ≤ VLEN. -/
def State.badP (s : State) : Bool := !(decide (1 ≤ s.P) && decide (s.P ≤ s.params.vlen))

/-- Step 3 of R134 fails: not 1 ≤ n0 ≤ N0_MAX, or a shift of a block in use is not below P. -/
def State.badBlocks (s : State) : Bool :=
  !(decide (1 ≤ s.n0) && decide (s.n0 ≤ s.params.n0Max)) || (List.range s.n0).any fun b => decide (s.P ≤ s.shift b)

/-- Step 4 of R134 fails: a register number, or the last register of a block, is not below NVREG. -/
def State.badRegs (s : State) (i : Instr) : Bool :=
  i.singleFields.any (fun r => decide (s.params.nvreg ≤ r)) ||
    i.blockFields.any (fun r => decide (s.params.nvreg ≤ r + s.n0 - 1))

/-- Steps 2 to 4 of R134: the code of the first check that fails. (Step 1, ILLEGAL_CMD, is the decoder's.) -/
def State.preCheck (s : State) (i : Instr) : Option ErrCode :=
  if i.usesP && s.badP then some .badCfg
  else if i.usesBlocks && s.badBlocks then some .badCfg
  else if s.badRegs i then some .badReg
  else none

/-- Steps 2 to 6 of R134: the checks, then the argument check of the command (`argsOk`), then its operation, which is
not computed when a check fails. -/
def State.checked (s : State) (i : Instr) (argsOk : Bool) (operation : Unit → State) : State :=
  match s.preCheck i with
  | some code => s.raise code 0
  | none => if argsOk then operation () else s.raise .badArg 0

/-! ## Reset and power-down -/

/-- Reset (R320) of every piece of engine state; the build parameters stay (R323), and so do the agents around the
engine: the entropy port's position (R320, last sentence), the turns to come, the host and what it was told, and the count of power-downs. -/
def State.engineReset (s : State) : State :=
  { State.resetOf s.params with
    entropyNext := s.entropyNext
    agenda := s.agenda
    prog := s.prog
    hostPc := s.hostPc
    replies := s.replies
    otherReplies := s.otherReplies
    powerDowns := s.powerDowns }

/-- A power-down (60_exceptions.md R297, U16): every piece of engine state that R30 lists takes a free value, of the width
or the number that the instance gives it, and keeps it by the rules until a reset (how, where the rules presume a state
that a reset led to: log 22). The value may depend on the state before, so any of it may survive. The parameters are fixed when the
engine is built (R323), and the agents around the engine are not the engine's state (log 16). -/
def State.powerDown (s : State) : State :=
  let left := Config.afterPowerDown s.powerDowns s
  { left with
    params := s.params
    vregs := (List.range s.params.nvreg).map fun r => low s.params.vlen (left.vregs.getD r 0)
    decShift := (List.range s.params.n0Max).map fun b => left.decShift.getD b 0
    fifo := left.fifo.take s.params.fifoDepth
    entropyNext := s.entropyNext
    agenda := s.agenda
    prog := s.prog
    hostPc := s.hostPc
    replies := s.replies
    otherReplies := s.otherReplies
    powerDowns := s.powerDowns + 1 }

end Sys2Proof.Machine
end

