-- ==== Sys2Proof/Machine/Combinatorial.lean ====
section
/-! DEFINITION. The combinatorial indexing commands (42_combinatorial.md R190 to R195). -/

namespace Sys2Proof.Machine

/-! ## The binomial coefficient and the two directions of the bijection -/

/-- The reference loop of R191 after i rounds: c ← 1; for j in 1..i: c ← c·(n−k+j) / j. -/
def binomLoop (n k : Nat) : Nat → Nat
  | 0 => 1
  | i + 1 => binomLoop n k i * (n - k + (i + 1)) / (i + 1)

/-- C(n,k), with C(n,k) = 0 for k > n (R191). -/
def binom (n k : Nat) : Nat := if n < k then 0 else binomLoop n k k

/-- The loop of CMB_UNRANK (R193) with `rest` = n − i iterations left and `need` = k − sel elements still to select:
the elements selected from position i on. -/
def unrankFrom : (rest i need idx : Nat) → Nat
  | 0, _, _, _ => 0
  | _ + 1, _, 0, _ => 0
  | rest + 1, i, need + 1, idx =>
    let c := binom rest need
    if c ≤ idx then unrankFrom rest (i + 1) (need + 1) (idx - c)
    else 1 <<< i ||| unrankFrom rest (i + 1) need idx

/-- The subset of index idx among the k-subsets of the numbers below n (R193). -/
def unrank (n k idx : Nat) : Nat := unrankFrom n 0 k idx

/-- The loop of CMB_RANK (R195), with `rest` and `need` as in `unrankFrom`: what the positions from i on add to the
index. -/
def rankFrom (v : Nat) : (rest i need : Nat) → Nat
  | 0, _, _ => 0
  | _ + 1, _, 0 => 0
  | rest + 1, i, need + 1 =>
    if v.testBit i then rankFrom v rest (i + 1) need
    else binom rest need + rankFrom v rest (i + 1) (need + 1)

/-- The index of the subset v among the k-subsets of the numbers below n (R195). -/
def rank (n k v : Nat) : Nat := rankFrom v n 0 k

/-- The argument check of CMB_RANK: v is a k-subset of the numbers below n, and n ≤ VLEN (R195). -/
def rankArgsOk (vlen n k v : Nat) : Bool :=
  decide (n ≤ vlen) && decide (k ≤ n) && decide (popcount vlen v = k) && decide (v < 2 ^ n)

/-! ## Commands -/

/-- CMB_BINOM (R192): V[VD] ← C(ARG0, ARG1), RES = its number of binary digits, for ARG0 ≤ VLEN. -/
def execCmbBinom (vd : Nat) (s : State) : Host.Outcome State Fault Refusal :=
  .next (s.checked (.cmbBinom vd) (decide (s.n ≤ s.params.vlen)) fun _ =>
    let z := binom s.n s.k
    s.complete .ok (BitVec.ofNat 32 (bitlen z)) [(vd, z)])

/-- CMB_UNRANK (R193): V[VD] ← the subset of index int(V[VA]); INDEX_RANGE when int(V[VA]) ≥ C(n,k). -/
def execCmbUnrank (vd va : Nat) (s : State) : Host.Outcome State Fault Refusal :=
  .next (s.checked (.cmbUnrank vd va) (decide (s.n ≤ s.params.vlen) && decide (s.k ≤ s.n)) fun _ =>
    if binom s.n s.k ≤ s.vreg va then s.raise .indexRange 0
    else s.complete .ok 0 [(vd, unrank s.n s.k (s.vreg va))])

/-- CMB_UNRANK.R (R194): the index is int(V[VA]) mod C(n,k). -/
def execCmbUnrankR (vd va : Nat) (s : State) : Host.Outcome State Fault Refusal :=
  .next (s.checked (.cmbUnrankR vd va) (decide (s.n ≤ s.params.vlen) && decide (s.k ≤ s.n)) fun _ =>
    s.complete .ok 0 [(vd, unrank s.n s.k (s.vreg va % binom s.n s.k))])

/-- CMB_RANK (R195): V[VD] ← the index of the subset V[VA]. -/
def execCmbRank (vd va : Nat) (s : State) : Host.Outcome State Fault Refusal :=
  .next (s.checked (.cmbRank vd va) (rankArgsOk s.params.vlen s.n s.k (s.vreg va)) fun _ =>
    s.complete .ok 0 [(vd, rank s.n s.k (s.vreg va))])

end Sys2Proof.Machine
end

