-- ==== Sys2Proof/Machine/Decoder.lean ====
section
/-! DEFINITION. The bit-flipping decoder commands (44_decoder.md R250 to R259). -/

namespace Sys2Proof.Machine

/-! ## The parity-check matrix (R250) -/

/-- A parity-check matrix: block size P, and per block b its generating row h_b and its shift σ_b. -/
structure Parity where
  p : Nat
  rows : List Nat
  shifts : List Nat
  deriving DecidableEq, Repr

/-- n0. -/
def Parity.blocks (h : Parity) : Nat := h.rows.length

/-- N = n0·P, the number of columns. -/
def Parity.width (h : Parity) : Nat := h.blocks * h.p

/-- `H[k][b·P + j] = h_b[(j − k·σ_b) mod P]`, for P ≥ 1 (R250). -/
def Parity.entry (h : Parity) (k q : Nat) : Bool :=
  let b := q / h.p
  let j := q % h.p
  (h.rows.getD b 0).testBit ((j + (h.p - k * h.shifts.getD b 0 % h.p)) % h.p)

/-- Column q of H, a P-bit vector (R250). -/
def Parity.col (h : Parity) (q : Nat) : Nat := bitsOf h.p fun k => h.entry k q

/-- The syndrome of the N-bit word x: the sum of the columns at its set bits (R251). -/
def Parity.synd (h : Parity) (x : Nat) : Nat := xorOver h.width fun q => if x.testBit q then h.col q else 0

/-- The matrix a decoder command reads: the block blk(r), with the programmed shifts (R250). -/
def State.parity (s : State) (r : Nat) : Parity where
  p := s.P
  rows := (List.range s.n0).map fun b => s.poly (r + b)
  shifts := (List.range s.n0).map fun b => s.shift b

/-! ## The bit-flipping loop (R252) -/

/-- u[q]: the number of unsatisfied parity checks of position q (R252). -/
def Parity.unsatisfied (h : Parity) (s q : Nat) : Nat := popcount h.p (h.col q &&& s)

/-- thr = max(max over q of u[q] − DELTA, 0) (R252, R253). -/
def Parity.threshold (h : Parity) (s : Nat) : Nat := maxOver h.width (h.unsatisfied s) - Config.decDelta

/-- The set F of a round, as an N-bit vector: the positions whose count is above the threshold (R252). -/
def Parity.flips (h : Parity) (s : Nat) : Nat :=
  let thr := h.threshold s
  bitsOf h.width fun q => decide (thr < h.unsatisfied s q)

/-- BitFlip(x, s) with `fuel` rounds left and `rounds` done: the final x and the rounds executed, or none when s ≠ 0
and no round is left (R252). -/
def Parity.bitFlip (h : Parity) : (fuel x s rounds : Nat) → Option (Nat × Nat)
  | 0, x, s, rounds => if s = 0 then some (x, rounds) else none
  | fuel + 1, x, s, rounds =>
    if s = 0 then some (x, rounds)
    else
      let f := h.flips s
      h.bitFlip fuel (x ^^^ f) (s ^^^ h.synd f) (rounds + 1)

/-- What DEC_CW and DEC_SYN do with the result of the loop: write the N-bit word to blk(vd), or DECODE_FAIL (R254,
R255, R257). -/
def State.decoded (s : State) (vd : Nat) : Option (Nat × Nat) → State
  | some (x, rounds) => s.complete .ok (BitVec.ofNat 32 rounds) (s.blockWrites vd x)
  | none => s.raise .decodeFail (BitVec.ofNat 32 Config.decLimit)

/-! ## Commands -/

/-- DEC_CW (R254): decode the received word in blk(VD) in place. -/
def execDecCw (vd va : Nat) (s : State) : Host.Outcome State Fault Refusal :=
  .next (s.checked (.decCw vd va) true fun _ =>
    let h := s.parity va
    let y := s.blockWord vd
    s.decoded vd (h.bitFlip Config.decLimit y (h.synd y) 0))

/-- DEC_SYN (R255): from the syndrome V[VB][P-1:0], the error pattern into blk(VD). -/
def execDecSyn (vd va vb : Nat) (s : State) : Host.Outcome State Fault Refusal :=
  .next (s.checked (.decSyn vd va vb) true fun _ =>
    s.decoded vd ((s.parity va).bitFlip Config.decLimit 0 (s.poly vb) 0))

/-- DEC_SYND (R256): V[VD] ← the syndrome of the word in blk(VB), RES = its weight. -/
def execDecSynd (vd va vb : Nat) (s : State) : Host.Outcome State Fault Refusal :=
  .next (s.checked (.decSynd vd va vb) true fun _ =>
    let sy := (s.parity va).synd (s.blockWord vb)
    s.complete .ok (BitVec.ofNat 32 (popcount s.P sy)) [(vd, sy)])

end Sys2Proof.Machine
end

