-- ==== Sys2Proof/Machine/Gf2.lean ====
section
/-! DEFINITION. Polynomials over GF(2), bit i the coefficient of x^i, and the ring GF(2)[x]/(x^P+1)
(00_scope.md R10, R13; 41_polynomial.md R160, R161, R165, R166). -/

namespace Sys2Proof.Machine

/-! ## The ring -/

/-- `x^i · b` in GF(2)[x]/(x^P+1): the P-bit vector b rotated up by i, for i < P. -/
def rotate (P i b : Nat) : Nat := low P (b <<< i) ||| low P b >>> (P - i)

/-- The product a ⊛_P b (R160): the sum of `x^i · b` over the set bits i of a. -/
def ringMul (P a b : Nat) : Nat := xorOver P fun i => if a.testBit i then rotate P i b else 0

/-! ## Division and the extended Euclidean algorithm (R166) -/

/-- The product of two polynomials, not reduced. -/
def polyMul (a b : Nat) : Nat := xorOver (bitlen a) fun i => if a.testBit i then b <<< i else 0

/-- Long division, one leading term at a time: quotient so far and remainder. -/
def polyDivSteps : Nat → Nat → Nat → Nat → Nat × Nat
  | 0, q, a, _ => (q, a)
  | fuel + 1, q, a, b =>
    if bitlen a < bitlen b then (q, a)
    else
      let sh := bitlen a - bitlen b
      polyDivSteps fuel (q ^^^ 1 <<< sh) (a ^^^ b <<< sh) b

/-- `divmod(a, b)` for b ≠ 0. Each step removes the leading term of a, so bitlen a steps are enough. -/
def polyDivMod (a b : Nat) : Nat × Nat := polyDivSteps (bitlen a) 0 a b

/-- The loop of R166: `(r0, r1)` and `(t0, t1)`, ending with `(r0, t0)` when r1 = 0. -/
def euclidSteps : Nat → Nat → Nat → Nat → Nat → Nat × Nat
  | 0, r0, _, t0, _ => (r0, t0)
  | fuel + 1, r0, r1, t0, t1 =>
    if r1 = 0 then (r0, t0)
    else
      let qr := polyDivMod r0 r1
      euclidSteps fuel r1 qr.2 t1 (t0 ^^^ polyMul qr.1 t1)

/-- The polynomial x^P + 1, for P ≥ 1. -/
def modulus (P : Nat) : Nat := 1 <<< P ||| 1

/-- The inverse of the P-bit a in GF(2)[x]/(x^P+1), or none when gcd(a, x^P+1) ≠ 1 (R161). The degree of r1 falls at
every step of the loop, so P + 2 steps are enough. -/
def ringInv (P a : Nat) : Option Nat :=
  let gt := euclidSteps (P + 2) (modulus P) a 0 1
  if gt.1 = 1 then some (polyDivMod gt.2 (modulus P)).2 else none

/-- gcd(a, x^P+1) = 1 (R161, R162, 43_generator.md R224). -/
def invertible (P a : Nat) : Bool := (ringInv P a).isSome

end Sys2Proof.Machine
end

