-- ==== Sys2Proof/Machine/Generator.lean ====
section
/-! DEFINITION. The weighted vector generator commands (43_generator.md R220 to R229). GEN_RAND and GEN_INV take one
engine step per random word and then the completion step (40_execution.md R132). -/

namespace Sys2Proof.Machine

/-! ## Random words (R220, R221) -/

/-- The word a draw consumes and the state without it: the oldest FIFO word (source 1), which also ends a hold, or the
entropy port's next word (source 0). None when the FIFO is empty: the draw is held. -/
def State.nextWord (s : State) (fromFifo : Bool) : Option (Word × State) :=
  if fromFifo then
    match s.fifo with
    | [] => none
    | w :: rest => some (w, { s with fifo := rest, rngWait := false })
  else some (Config.entropy s.entropyNext, { s with entropyNext := s.entropyNext + 1 })

/-- One iteration of RandWeight on the word w (R223): the low bitlen(size−1) bits of w are a candidate index, which is
set when it is below size and not set yet. -/
def Progress.take (p : Progress) (size : Nat) (w : Word) : Progress :=
  let idx := low (bitlen (size - 1)) w.toNat
  if idx < size && !p.vec.testBit idx then
    { p with vec := p.vec ||| 1 <<< idx, cnt := p.cnt + 1, draws := p.draws + 1 }
  else { p with draws := p.draws + 1 }

/-- One draw step of the command in flight, continuing from progress p, or the hold of R221. -/
def State.drawStep (s : State) (f : InFlight) (p : Progress) (size : Nat) : State :=
  match s.nextWord f.rngSrc with
  | some (w, t) => { t with inflight := some { f with progress := p.take size w } }
  | none => { s with rngWait := true, inflight := some { f with progress := p } }

/-! ## What a generator does next -/

/-- What the next engine step of a generator is: completion with the vector, GEN_EXHAUSTED, or a draw that continues
from the given progress. -/
inductive GenStep where
  | finish (vec : Nat) (res : Word)
  | exhaust (res : Word)
  | draw (p : Progress)
  deriving DecidableEq, Repr

/-- A count as RES of gen.rand, saturating (R222, 40_execution.md R136). -/
def saturate (n : Nat) : Word := BitVec.ofNat 32 (min n 0xFFFFFFFF)

/-- An attempt number as RES of gen.inv; from 2^32 on the spec states no value (log 6). -/
def attemptRes (n : Nat) : Word := if n < 2 ^ 32 then BitVec.ofNat 32 n else Config.attemptOverflow n

/-- The draw cap of one vector is reached (R223). -/
def capReached (cap : BitVec 16) (count : Nat) : Bool := decide (cap.toNat ≠ 0) && decide (count = cap.toNat)

/-- GEN_RAND (R222, R223): weight bits set finishes; else MAXDRAW draws exhaust; else draw. -/
def randStep (s : State) (p : Progress) : GenStep :=
  if s.k ≤ p.cnt then .finish p.vec (saturate p.draws)
  else if capReached s.maxDraw p.draws then .exhaust (saturate p.draws)
  else .draw p

/-- The lower bound of the upper half of a size-bit vector (R225, U12). -/
def upperLo (size : Nat) : Nat := size / 2

/-- The weight of the upper half, `popcount(v[size−1 : size div 2])` (R224, R225). -/
def upperWeight (size v : Nat) : Nat := popcount (size - upperLo size) (v >>> upperLo size)

/-- The acceptance test of GEN_INV (R224): invertible modulo x^size+1, and odd weight of the upper half. -/
def acceptable (size v : Nat) : Bool := invertible size v && decide (upperWeight size v % 2 = 1)

/-- GEN_INV (R224): an acceptable vector finishes. With no vector begun or the last one rejected, MAXTRY attempts
exhaust, and otherwise a fresh attempt begins with a draw, which takes no step of its own (R132, log 12). Within an
attempt, MAXDRAW draws exhaust. -/
def invStep (s : State) (p : Progress) : GenStep :=
  if p.attempt ≠ 0 ∧ s.k ≤ p.cnt ∧ acceptable s.n p.vec = true then .finish p.vec (attemptRes p.attempt)
  else if p.attempt = 0 ∨ s.k ≤ p.cnt then
    if capReached s.maxTry p.attempt then .exhaust (attemptRes p.attempt)
    else .draw { Progress.fresh with attempt := p.attempt + 1 }
  else if capReached s.maxDraw p.draws then .exhaust (attemptRes p.attempt)
  else .draw p

/-- The engine step of a generator that writes V[vd]. -/
def State.genStep (s : State) (f : InFlight) (vd : Nat) : GenStep → State
  | .finish vec res => s.complete .ok res [(vd, vec)]
  | .exhaust res => s.raise .genExhausted res
  | .draw p => s.drawStep f p s.n

/-- The argument check GEN_RAND, GEN_INV and GEN_HASH share: 1 ≤ size ≤ VLEN and weight ≤ size (R222, R224, R226). -/
def State.sizeOk (s : State) : Bool :=
  decide (1 ≤ s.n) && decide (s.n ≤ s.params.vlen) && decide (s.k ≤ s.n)

/-! ## The hash-bound vector (R226) -/

/-- The scan of R226 with `rest` positions left: vector, ones and pos when it stops. -/
def hashScan (weight d : Nat) : (rest v ones pos : Nat) → Nat × Nat × Nat
  | 0, v, ones, pos => (v, ones, pos)
  | rest + 1, v, ones, pos =>
    if weight ≤ ones then (v, ones, pos)
    else if d.testBit pos then hashScan weight d rest (v ||| 1 <<< pos) (ones + 1) (pos + 1)
    else hashScan weight d rest v ones (pos + 1)

/-- RES of GEN_HASH: ones + pos·65536 (R226). -/
def hashRes (ones pos : Nat) : Word := BitVec.ofNat 32 (ones + pos * 65536)

/-! ## Commands -/

/-- GEN_RAND (R222): one engine step of the command in flight. With none in flight no step is enabled (log 7). -/
def execGenRand (vd : Nat) (s : State) : Host.Outcome State Fault Refusal :=
  match s.inflight with
  | some f => .next (s.checked (.genRand vd) s.sizeOk fun _ => s.genStep f vd (randStep s f.progress))
  | none => .next s

/-- GEN_INV (R224): one engine step of the command in flight; weight must be odd. With none in flight no step is
enabled (log 7). -/
def execGenInv (vd : Nat) (s : State) : Host.Outcome State Fault Refusal :=
  match s.inflight with
  | some f => .next (s.checked (.genInv vd) (s.sizeOk && decide (s.k % 2 = 1)) fun _ =>
      s.genStep f vd (invStep s f.progress))
  | none => .next s

/-- GEN_HASH (R226): V[VD] ← the first ARG1 set bits of V[VA] below ARG0; HASH_SHORT when there are fewer. -/
def execGenHash (vd va : Nat) (s : State) : Host.Outcome State Fault Refusal :=
  .next (s.checked (.genHash vd va) s.sizeOk fun _ =>
    let scan := hashScan s.k (s.vreg va) s.n 0 0 0
    if scan.2.1 < s.k then s.raise .hashShort (hashRes scan.2.1 scan.2.2)
    else s.complete .ok (hashRes scan.2.1 scan.2.2) [(vd, scan.1)])

end Sys2Proof.Machine
end

