-- ==== Sys2Proof/Machine/Polynomial.lean ====
section
/-! DEFINITION. The circulant polynomial commands (41_polynomial.md R160 to R164). -/

namespace Sys2Proof.Machine

/-- PMUL (R160): V[VD] ← V[VA][P-1:0] ⊛_P V[VB][P-1:0]. -/
def execPmul (vd va vb : Nat) (s : State) : Host.Outcome State Fault Refusal :=
  .next (s.checked (.pmul vd va vb) true fun _ =>
    s.complete .ok 0 [(vd, ringMul s.P (s.poly va) (s.poly vb))])

/-- PINV (R161): V[VD] ← the inverse of V[VA][P-1:0], RES = 1; NO_INVERSE when there is none. -/
def execPinv (vd va : Nat) (s : State) : Host.Outcome State Fault Refusal :=
  .next (s.checked (.pinv vd va) true fun _ =>
    match ringInv s.P (s.poly va) with
    | some b => s.complete .ok 1 [(vd, b)]
    | none => s.raise .noInverse 0)

/-- PINV.T (R162): RES = 1 when V[VA][P-1:0] is invertible, NO_INVERSE otherwise; no register is written. -/
def execPinvT (va : Nat) (s : State) : Host.Outcome State Fault Refusal :=
  .next (s.checked (.pinvT va) true fun _ =>
    if invertible s.P (s.poly va) then s.complete .ok 1 [] else s.raise .noInverse 0)

/-- VXOR (R163): V[VD] ← V[VA] xor V[VB], over all VLEN bits. -/
def execVxor (vd va vb : Nat) (s : State) : Host.Outcome State Fault Refusal :=
  .next (s.checked (.vxor vd va vb) true fun _ => s.complete .ok 0 [(vd, s.vreg va ^^^ s.vreg vb)])

/-- VWT (R164): RES = popcount(V[VA][ARG0-1:0]), for ARG0 ≤ VLEN. -/
def execVwt (va : Nat) (s : State) : Host.Outcome State Fault Refusal :=
  .next (s.checked (.vwt va) (decide (s.n ≤ s.params.vlen)) fun _ =>
    s.complete .ok (BitVec.ofNat 32 (popcount s.n (s.vreg va))) [])

end Sys2Proof.Machine
end

