-- ==== Sys2Proof/Machine/System.lean ====
section
/-! DEFINITION. The NOP command (40_execution.md R137), and the completion of an illegal word (30_encoding.md R105). -/

namespace Sys2Proof.Machine

/-- NOP: complete(OK, 0, {}) (R137). -/
def execNop (s : State) : Host.Outcome State Fault Refusal := .next (s.checked .nop true fun _ => s.complete .ok 0 [])

/-- A word that matches no row completes with ILLEGAL_CMD and RES = 0, with no other effect (R105, R134 step 1). -/
def State.illegalCompletion (s : State) : State := s.raise .illegalCmd 0

end Sys2Proof.Machine
end

