-- ==== Sys2Proof/Machine/Dispatch.lean ====
section
/-! DEFINITION. One arm per command: its engine step. -/

namespace Sys2Proof.Machine

-- The engine step of the command `i` in flight (40_execution.md R132).
def exec (i : Instr) (s : State) : Host.Outcome State Fault Refusal :=
  match i with
  | .nop => Sys2Proof.Machine.execNop s
  | .pmul vd va vb => Sys2Proof.Machine.execPmul vd va vb s
  | .pinv vd va => Sys2Proof.Machine.execPinv vd va s
  | .pinvT va => Sys2Proof.Machine.execPinvT va s
  | .vxor vd va vb => Sys2Proof.Machine.execVxor vd va vb s
  | .vwt va => Sys2Proof.Machine.execVwt va s
  | .cmbBinom vd => Sys2Proof.Machine.execCmbBinom vd s
  | .cmbUnrank vd va => Sys2Proof.Machine.execCmbUnrank vd va s
  | .cmbUnrankR vd va => Sys2Proof.Machine.execCmbUnrankR vd va s
  | .cmbRank vd va => Sys2Proof.Machine.execCmbRank vd va s
  | .genRand vd => Sys2Proof.Machine.execGenRand vd s
  | .genInv vd => Sys2Proof.Machine.execGenInv vd s
  | .genHash vd va => Sys2Proof.Machine.execGenHash vd va s
  | .decCw vd va => Sys2Proof.Machine.execDecCw vd va s
  | .decSyn vd va vb => Sys2Proof.Machine.execDecSyn vd va vb s
  | .decSynd vd va vb => Sys2Proof.Machine.execDecSynd vd va vb s

end Sys2Proof.Machine
end

