-- ==== Sys2Proof/WellFormed.lean ====
section
/-! DEFINITION. Which commands the encoding can carry: every register field is a 4-bit unsigned number
(30_encoding.md R101, R102). Whether the instance HAS that register is a check of the running command (BAD_REG,
40_execution.md R134), not of the syntax. -/

namespace Sys2Proof

/-- A register field fits the 4 bits of VD, VA or VB (R102). -/
def fieldFits (r : Nat) : Bool := decide (r < 16)

/-- Every register field of the command fits its 4 bits. -/
def Instr.wellFormed : Instr → Bool
  | .nop => true
  | .pmul vd va vb => fieldFits vd && fieldFits va && fieldFits vb
  | .pinv vd va => fieldFits vd && fieldFits va
  | .pinvT va => fieldFits va
  | .vxor vd va vb => fieldFits vd && fieldFits va && fieldFits vb
  | .vwt va => fieldFits va
  | .cmbBinom vd => fieldFits vd
  | .cmbUnrank vd va => fieldFits vd && fieldFits va
  | .cmbUnrankR vd va => fieldFits vd && fieldFits va
  | .cmbRank vd va => fieldFits vd && fieldFits va
  | .genRand vd => fieldFits vd
  | .genInv vd => fieldFits vd
  | .genHash vd va => fieldFits vd && fieldFits va
  | .decCw vd va => fieldFits vd && fieldFits va
  | .decSyn vd va vb => fieldFits vd && fieldFits va && fieldFits vb
  | .decSynd vd va vb => fieldFits vd && fieldFits va && fieldFits vb

end Sys2Proof
end

