-- ==== Sys2Proof/Decode.lean ====
section
/-! DEFINITION. The decoder, total on every 32-bit word and rejecting by name, and after it the encoder; both are
written from the tables of 30_encoding.md R101 and R104. -/

namespace Sys2Proof

/-! ## Fields of format C (R101) -/

/-- OPC, bits [7:0]. -/
def opcOf (w : Word) : Nat := w.toNat % 256

/-- VD, bits [11:8]. -/
def vdOf (w : Word) : Nat := w.toNat / 2 ^ 8 % 16

/-- VA, bits [15:12]. -/
def vaOf (w : Word) : Nat := w.toNat / 2 ^ 12 % 16

/-- VB, bits [19:16]. -/
def vbOf (w : Word) : Nat := w.toNat / 2 ^ 16 % 16

/-- FL, bits [23:20]. -/
def flOf (w : Word) : Nat := w.toNat / 2 ^ 20 % 16

/-- RSV, bits [31:24]. -/
def rsvOf (w : Word) : Nat := w.toNat / 2 ^ 24

/-! ## The opcode map (R104) -/

/-- One row of the opcode map: a word encodes the row when its masked bits equal `code`. -/
structure Row where
  code : Word
  mask : Word
  build : (vd va vb : Nat) → Instr

/-- "A word w encodes the row whose (w & Mask) == Match" (R104). -/
def Row.accepts (r : Row) (w : Word) : Bool := w &&& r.mask == r.code

/-- The sixteen rows of R104, with the Match and Mask columns as printed. -/
def opcodeMap : List Row := [
  ⟨0x00000000, 0xFFFFFFFF, fun _ _ _ => .nop⟩,
  ⟨0x00000001, 0xFFF000FF, fun vd va vb => .pmul vd va vb⟩,
  ⟨0x00000002, 0xFFFF00FF, fun vd va _ => .pinv vd va⟩,
  ⟨0x00100002, 0xFFFF0FFF, fun _ va _ => .pinvT va⟩,
  ⟨0x00000003, 0xFFF000FF, fun vd va vb => .vxor vd va vb⟩,
  ⟨0x00000004, 0xFFFF0FFF, fun _ va _ => .vwt va⟩,
  ⟨0x00000010, 0xFFFFF0FF, fun vd _ _ => .cmbBinom vd⟩,
  ⟨0x00000011, 0xFFFF00FF, fun vd va _ => .cmbUnrank vd va⟩,
  ⟨0x00100011, 0xFFFF00FF, fun vd va _ => .cmbUnrankR vd va⟩,
  ⟨0x00000012, 0xFFFF00FF, fun vd va _ => .cmbRank vd va⟩,
  ⟨0x00000020, 0xFFFFF0FF, fun vd _ _ => .genRand vd⟩,
  ⟨0x00000021, 0xFFFFF0FF, fun vd _ _ => .genInv vd⟩,
  ⟨0x00000022, 0xFFFF00FF, fun vd va _ => .genHash vd va⟩,
  ⟨0x00000030, 0xFFFF00FF, fun vd va _ => .decCw vd va⟩,
  ⟨0x00000031, 0xFFF000FF, fun vd va vb => .decSyn vd va vb⟩,
  ⟨0x00000032, 0xFFF000FF, fun vd va vb => .decSynd vd va vb⟩]

/-! ## Decoding -/

/-- Why a word is no command: the four kinds of illegal word R105 lists. The engine answers each the same way. -/
inductive Illegal where
  /-- RSV is not 0. -/
  | reservedNonzero
  /-- OPC is outside the map. -/
  | unassignedOpcode
  /-- FL has a value no row of this OPC has. -/
  | wrongFlags
  /-- A field the opcode does not use is not 0. -/
  | unusedFieldNonzero
  deriving DecidableEq, Repr

/-- The first of the four kinds that holds of a word no row accepts. -/
def illegalReason (w : Word) : Illegal :=
  if rsvOf w ≠ 0 then .reservedNonzero
  else if (opcodeMap.all fun r => opcOf r.code != opcOf w) then .unassignedOpcode
  else if (opcodeMap.all fun r => opcOf r.code != opcOf w || flOf r.code != flOf w) then .wrongFlags
  else .unusedFieldNonzero

/-- The command a word encodes (R100, R104), or the reason it encodes none (R105). -/
def decode (w : Word) : Except Illegal Instr :=
  match opcodeMap.find? (·.accepts w) with
  | some r => .ok (r.build (vdOf w) (vaOf w) (vbOf w))
  | none => .error (illegalReason w)

/-- The decoder on a word numbered as spec/opcode_table.json numbers it: a command is the 32 bits of one CMD write
(R100), bit 0 the least significant; bits at and above `nbits` are 0. -/
def decodeTableWord (nbits w : Nat) : Option Instr :=
  (decode (BitVec.ofNat 32 (w % 2 ^ nbits))).toOption

/-! ## Encoding -/

/-- A word of format C with RSV = 0 (R101). -/
def packC (opc fl vd va vb : Nat) : Word :=
  BitVec.ofNat 32 (opc + vd * 2 ^ 8 + va * 2 ^ 12 + vb * 2 ^ 16 + fl * 2 ^ 20)

/-- The word of a command: OPC and FL of its row of R104, and 0 in every field it does not use. -/
def encode : Instr → Word
  | .nop => packC 0x00 0 0 0 0
  | .pmul vd va vb => packC 0x01 0 vd va vb
  | .pinv vd va => packC 0x02 0 vd va 0
  | .pinvT va => packC 0x02 1 0 va 0
  | .vxor vd va vb => packC 0x03 0 vd va vb
  | .vwt va => packC 0x04 0 0 va 0
  | .cmbBinom vd => packC 0x10 0 vd 0 0
  | .cmbUnrank vd va => packC 0x11 0 vd va 0
  | .cmbUnrankR vd va => packC 0x11 1 vd va 0
  | .cmbRank vd va => packC 0x12 0 vd va 0
  | .genRand vd => packC 0x20 0 vd 0 0
  | .genInv vd => packC 0x21 0 vd 0 0
  | .genHash vd va => packC 0x22 0 vd va 0
  | .decCw vd va => packC 0x30 0 vd va 0
  | .decSyn vd va vb => packC 0x31 0 vd va vb
  | .decSynd vd va vb => packC 0x32 0 vd va vb

end Sys2Proof
end

