-- ==== Sys2Proof/Machine/Bus.lean ====
section
/-! DEFINITION. The register aperture: the map of 10_state.md R40, reads and writes of every register and of the
vector window (20_memory.md R70 to R76), and one access of a bus master, by offset and by bus address. -/

namespace Sys2Proof

/-- VLEN/8, the bytes of one vector register in the window (R73). -/
def Params.vregBytes (p : Params) : Nat := p.vlen / 8

/-- Whether a bus address lies in the aperture: the 128 KiB from BASE (R70). -/
def Params.inAperture (p : Params) (address : Nat) : Bool :=
  decide (p.base ≤ address) && decide (address < p.base + apertureSize)

/-- The offset from BASE of an address in the aperture (R11). -/
def Params.offsetOf (p : Params) (address : Nat) : BitVec 17 := BitVec.ofNat 17 (address - p.base)

end Sys2Proof

namespace Sys2Proof.Machine

/-- What an aperture offset names (R40). -/
inductive Target where
  | id | cap0 | cap1 | ctrl | status | cmd | arg0 | arg1 | res | cfgP | cfgN0 | genCfg | rngData | rngLevel
  | decShift (b : Nat)
  | window (r w : Nat)
  | reserved
  deriving DecidableEq, Repr

/-- The register map (R40, R73), for an offset that is a multiple of 4. -/
def locate (p : Params) (off : Nat) : Target :=
  if off = 0x000 then .id
  else if off = 0x004 then .cap0
  else if off = 0x008 then .cap1
  else if off = 0x010 then .ctrl
  else if off = 0x014 then .status
  else if off = 0x018 then .cmd
  else if off = 0x01C then .arg0
  else if off = 0x020 then .arg1
  else if off = 0x024 then .res
  else if off = 0x028 then .cfgP
  else if off = 0x02C then .cfgN0
  else if off = 0x030 then .genCfg
  else if off = 0x034 then .rngData
  else if off = 0x038 then .rngLevel
  else if 0x040 ≤ off ∧ off < 0x040 + 4 * p.n0Max then .decShift ((off - 0x040) / 4)
  else if 0x1000 ≤ off ∧ off < 0x1000 + p.nvreg * p.vregBytes then
    .window ((off - 0x1000) / p.vregBytes) ((off - 0x1000) % p.vregBytes / 4)
  else .reserved

/-! ## Reading -/

/-- Word w of vector register r (R73). -/
def State.windowWord (s : State) (r w : Nat) : Word := BitVec.ofNat 32 (s.vreg r >>> (32 * w))

/-- CAP0 (R42). -/
def State.cap0Word (s : State) : Word :=
  BitVec.ofNat 8 s.params.n0Max ++ BitVec.ofNat 8 s.params.nvreg ++ BitVec.ofNat 16 s.params.vlen

/-- CAP1 (R43). -/
def State.cap1Word (s : State) : Word :=
  0#8 ++ BitVec.ofNat 8 s.params.fifoDepth ++ BitVec.ofNat 8 Config.decDelta ++ BitVec.ofNat 8 Config.decLimit

/-- The value a target holds, as an idle read returns it. CTRL.SRST, RNG_DATA and everything reserved read 0
(R39, R45, R53, R56). -/
def State.valueAt (s : State) : Target → Word
  | .id => 0x47460007
  | .cap0 => s.cap0Word
  | .cap1 => s.cap1Word
  | .ctrl => 0#30 ++ BitVec.ofBool s.rngSrc ++ BitVec.ofBool s.ie
  | .status => s.statusWord
  | .cmd => s.cmdLast
  | .arg0 => s.arg0
  | .arg1 => s.arg1
  | .res => s.res
  | .cfgP => 0#16 ++ s.cfgP
  | .cfgN0 => 0#24 ++ s.cfgN0
  | .genCfg => s.maxTry ++ s.maxDraw
  | .rngData => 0
  | .rngLevel => 0#24 ++ BitVec.ofNat 8 s.fifo.length
  | .decShift b => 0#16 ++ s.decShift.getD b 0
  | .window r w => s.windowWord r w
  | .reserved => 0

/-- A legal read of an aperture word: the value, but in the vector window while busy it is 0 and sets BUSY_ACC
(R76). No other read has a side effect (R75). -/
def State.readTarget (s : State) (t : Target) : State × Word :=
  match t with
  | .window _ _ => if s.busy then ({ s with busyAcc := true }, 0) else (s, s.valueAt t)
  | _ => (s, s.valueAt t)

/-! ## Writing -/

/-- A write to a LOCK register or to the window: refused while busy, setting BUSY_ACC (R76). -/
def State.lockedWrite (s written : State) : State := if s.busy then { s with busyAcc := true } else written

/-- V[r] with its word w replaced (R73). -/
def replaceWord (v w : Nat) (x : Word) : Nat :=
  low (32 * w) v ||| (x.toNat <<< (32 * w)) ||| (v >>> (32 * w + 32)) <<< (32 * w + 32)

/-- A write to CMD: acceptance when idle, dropped with OVERRUN while busy (R44, R130). -/
def State.writeCmd (s : State) (w : Word) : State := if s.busy then { s with overrun := true } else s.accept w

/-- A write to CTRL: SRST resets the engine and discards the other bits; otherwise IE and RNG_SRC are stored, busy or
not (R45, R321). -/
def State.writeCtrl (s : State) (w : Word) : State :=
  if w.getLsbD 2 then s.engineReset else { s with ie := w.getLsbD 0, rngSrc := w.getLsbD 1 }

/-- A write to RNG_DATA: append, or drop with RNG_OVF when the FIFO is full (R53). A word that arrives lifts the hold
of a waiting engine, so RNG_WAIT falls (40_execution.md R132, 43_generator.md R221, log 5). -/
def State.writeRngData (s : State) (w : Word) : State :=
  if s.fifo.length < s.params.fifoDepth then { s with fifo := s.fifo ++ [w], rngWait := false }
  else { s with rngOvf := true }

/-- A legal write of an aperture word (R40, R44 to R56, R73). Read-only and reserved offsets ignore it. -/
def State.writeTarget (s : State) (t : Target) (v : Word) : State :=
  match t with
  | .ctrl => s.writeCtrl v
  | .status => s.writeStatus v
  | .cmd => s.writeCmd v
  | .arg0 => s.lockedWrite { s with arg0 := v }
  | .arg1 => s.lockedWrite { s with arg1 := v }
  | .cfgP => s.lockedWrite { s with cfgP := v.setWidth 16 }
  | .cfgN0 => s.lockedWrite { s with cfgN0 := v.setWidth 8 }
  | .genCfg => s.lockedWrite { s with maxDraw := v.setWidth 16, maxTry := v.extractLsb' 16 16 }
  | .rngData => s.writeRngData v
  | .decShift b => s.lockedWrite { s with decShift := s.decShift.set b (v.setWidth 16) }
  | .window r w => s.lockedWrite (s.setVreg r (replaceWord (s.vreg r) w v))
  | .id | .cap0 | .cap1 | .res | .rngLevel | .reserved => s

/-! ## Accesses -/

/-- Only a 32-bit access at a multiple of 4 is served (R71). -/
def servable (off : BitVec 17) (width : Width) : Bool := decide (width = .w32) && decide (off.toNat % 4 = 0)

/-- One access of a bus master, and what the bus returns for it: nothing for a write that is served, the data of a
read, or the bus error of R72, which changes nothing. -/
def State.access (s : State) : Access → State × Option Reply
  | .read off width =>
    if servable off width then
      let r := s.readTarget (locate s.params off.toNat)
      (r.1, some (.data r.2))
    else (s, some .busError)
  | .write off width v =>
    if servable off width then (s.writeTarget (locate s.params off.toNat) v, none) else (s, some .busError)

/-! ## The aperture on the host bus (R70, R77) -/

/-- The access an offset names, on the bus: at BASE + offset (R11). -/
def Access.onBus (p : Params) : Access → Transfer
  | .read off width => .read (p.base + off.toNat) width
  | .write off width v => .write (p.base + off.toNat) width v

/-- What one bus access does to the engine and what the engine answers. An access outside the aperture is not the
engine's: nothing changes and nothing is answered (R70, log 10). -/
def State.transfer (s : State) : Transfer → State × Option Reply
  | .read address width =>
    if s.params.inAperture address then s.access (.read (s.params.offsetOf address) width) else (s, none)
  | .write address width v =>
    if s.params.inAperture address then s.access (.write (s.params.offsetOf address) width v) else (s, none)

/-- An access of the host's program, whose reply is recorded (70_reset_and_hazards.md R332, log 17). -/
def State.recorded (s : State) (a : Access) : State :=
  match s.transfer (a.onBus s.params) with
  | (t, some r) => { t with replies := r :: t.replies }
  | (t, none) => t

/-- An access of another bus master, which gets the reply instead of the host (R85). -/
def State.otherAccess (s : State) (x : Transfer) : State :=
  match s.transfer x with
  | (t, some r) => { t with otherReplies := r :: t.otherReplies }
  | (t, none) => t

end Sys2Proof.Machine
end

