-- ==== Sys2Proof/Machine/HostProgram.lean ====
section
/-! DEFINITION. The host agent: its directives and pseudo-instructions (30_encoding.md R107, R108), their expansion
into bus operations, the text of a command (R106), one operation of the host's program, and byte order as the host sees
it. -/

namespace Sys2Proof.Machine

/-! ## Names and text -/

/-- The register names of 10_state.md R40 that a directive may use. -/
inductive RegName where
  | id | cap0 | cap1 | ctrl | status | cmd | arg0 | arg1 | res | cfgP | cfgN0 | genCfg | rngData | rngLevel
  | decShift (b : Nat)
  deriving DecidableEq, Repr

/-- `off(NAME)` (R107, R40). R55 has DEC_SHIFT[b] for b < N0_MAX only and R107 gives the name no range; here it is at
0x040 + 4·b for every b, of which an access carries the low 17 bits (DESIGN CHOICE, log 18). -/
def RegName.offset : RegName → Nat
  | .id => 0x000
  | .cap0 => 0x004
  | .cap1 => 0x008
  | .ctrl => 0x010
  | .status => 0x014
  | .cmd => 0x018
  | .arg0 => 0x01C
  | .arg1 => 0x020
  | .res => 0x024
  | .cfgP => 0x028
  | .cfgN0 => 0x02C
  | .genCfg => 0x030
  | .rngData => 0x034
  | .rngLevel => 0x038
  | .decShift b => 0x040 + 4 * b

end Sys2Proof.Machine

namespace Sys2Proof

/-- The decimal digits of a register number, for the two digits that `v0` to `v15` need. -/
def regText (r : Nat) : String :=
  let digit (d : Nat) : String := String.singleton (Char.ofNat (48 + d % 10))
  "v" ++ (if r < 10 then digit r else digit (r / 10) ++ digit r)

/-- The text of a command: mnemonic, then the operands it uses in the order VD, VA, VB (R106). -/
def Instr.text : Instr → String
  | .nop => "nop"
  | .pmul vd va vb => "pmul " ++ regText vd ++ ", " ++ regText va ++ ", " ++ regText vb
  | .pinv vd va => "pinv " ++ regText vd ++ ", " ++ regText va
  | .pinvT va => "pinv.t " ++ regText va
  | .vxor vd va vb => "vxor " ++ regText vd ++ ", " ++ regText va ++ ", " ++ regText vb
  | .vwt va => "vwt " ++ regText va
  | .cmbBinom vd => "cmb.binom " ++ regText vd
  | .cmbUnrank vd va => "cmb.unrank " ++ regText vd ++ ", " ++ regText va
  | .cmbUnrankR vd va => "cmb.unrank.r " ++ regText vd ++ ", " ++ regText va
  | .cmbRank vd va => "cmb.rank " ++ regText vd ++ ", " ++ regText va
  | .genRand vd => "gen.rand " ++ regText vd
  | .genInv vd => "gen.inv " ++ regText vd
  | .genHash vd va => "gen.hash " ++ regText vd ++ ", " ++ regText va
  | .decCw vd va => "dec.cw " ++ regText vd ++ ", " ++ regText va
  | .decSyn vd va vb => "dec.syn " ++ regText vd ++ ", " ++ regText va ++ ", " ++ regText vb
  | .decSynd vd va vb => "dec.synd " ++ regText vd ++ ", " ++ regText va ++ ", " ++ regText vb

end Sys2Proof

namespace Sys2Proof.Machine

/-! ## Directives -/

/-- One line of a host program (R106, R107, R108). Labels are numbers here, and the type admits lines that no text of
these rules gives (DESIGN CHOICE, log 18). -/
inductive Directive where
  /-- A command line: one host write of the encoded word to CMD. -/
  | cmd (i : Instr)
  | wr (reg : RegName) (value : Word)
  | rd (reg : RegName)
  /-- `vld vR, {i1, …}` or `vld vR, 0xHEX`: the integer Σ 2^i, of which the writes carry the low VLEN bits (what more
  bits do, R107 leaves open: DESIGN CHOICE, log 18). -/
  | vld (r : Nat) (value : Nat)
  | vst (r : Nat)
  | feed (words : List Word)
  | wait
  | label (l : Nat)
  | br (reg : RegName) (hi lo : Nat) (whenEqual : Bool) (value : Word) (l : Nat)
  /-- `setp p` (R108). -/
  | setp (p : Word)
  /-- `setn0 n`. -/
  | setn0 (n : Word)
  /-- `args a0, a1`. -/
  | args (a0 a1 : Word)
  /-- `vclr vR`. -/
  | vclr (r : Nat)
  /-- `<mnemonic>! <operands>`. -/
  | cmdWait (i : Instr)
  /-- `vwt vA, len`. -/
  | vwtLen (va : Nat) (len : Word)
  /-- `cmb.binom vD, n, k` and the other pseudo-instructions that set both arguments. -/
  | cmdArgs (i : Instr) (a0 a1 : Word)
  deriving DecidableEq, Repr

/-- `wr NAME, value`: one 32-bit write. -/
def wrOp (off : Nat) (value : Word) : HostOp := .access (.write (BitVec.ofNat 17 off) .w32 value)

/-- `rd NAME`: one 32-bit read. -/
def rdOp (off : Nat) : HostOp := .access (.read (BitVec.ofNat 17 off) .w32)

/-- A command line: `MemWrite(off(CMD), 4, word)` (R106). -/
def cmdOp (i : Instr) : HostOp := wrOp RegName.cmd.offset (encode i)

/-- Offset of word w of register r in the vector window (20_memory.md R73). R73 gives it for r < NVREG only, and R107 does
not say what `vld`, `vst` and `vclr` of a register that is not there do; here the formula holds for every r, and these
accesses go to reserved offsets (R56) for r ≤ 15 (DESIGN CHOICE, log 18). -/
def windowOffset (p : Params) (r w : Nat) : Nat := 0x1000 + r * p.vregBytes + 4 * w

/-- The bus operations of a directive (R107), and the exact expansions of the pseudo-instructions (R108); `labelAt` gives
the operation index of each label. -/
def Directive.ops (p : Params) (labelAt : Nat → Nat) : Directive → List HostOp
  | .cmd i => [cmdOp i]
  | .wr reg v => [wrOp reg.offset v]
  | .rd reg => [rdOp reg.offset]
  | .vld r v => (List.range (p.vlen / 32)).map fun w => wrOp (windowOffset p r w) (BitVec.ofNat 32 (v >>> (32 * w)))
  | .vst r => (List.range (p.vlen / 32)).map fun w => rdOp (windowOffset p r w)
  | .feed ws => ws.map fun w => wrOp RegName.rngData.offset w
  | .wait => [.wait]
  | .label _ => []
  | .br reg hi lo eq v l => [.branch (BitVec.ofNat 17 reg.offset) hi lo eq v (labelAt l)]
  | .setp v => [wrOp RegName.cfgP.offset v]
  | .setn0 v => [wrOp RegName.cfgN0.offset v]
  | .args a0 a1 => [wrOp RegName.arg0.offset a0, wrOp RegName.arg1.offset a1]
  | .vclr r => (List.range (p.vlen / 32)).map fun w => wrOp (windowOffset p r w) 0
  | .cmdWait i => [cmdOp i, .wait]
  | .vwtLen va len => [wrOp RegName.arg0.offset len, cmdOp (.vwt va), .wait]
  | .cmdArgs i a0 a1 => [wrOp RegName.arg0.offset a0, wrOp RegName.arg1.offset a1, cmdOp i, .wait]

/-- How many bus operations a directive expands to; the labels' places do not matter for that. -/
def Directive.size (p : Params) (d : Directive) : Nat := (d.ops p fun _ => 0).length

/-- The operation index at which label l stands: the operations of the lines before it. Two points R107 leaves open are
the model's choice (DESIGN CHOICE, log 18): a label that stands on several lines names the first of them, and one that
stands nowhere names the end of the program. -/
def labelIndex (p : Params) (l : Nat) : List Directive → Nat
  | [] => 0
  | .label m :: rest => if m = l then 0 else labelIndex p l rest
  | d :: rest => d.size p + labelIndex p l rest

/-- The bus operations of a program. -/
def assemble (p : Params) (lines : List Directive) : List HostOp :=
  lines.flatMap fun d => d.ops p fun l => labelIndex p l lines

/-! ## The host's turn -/

/-- `v[hi:lo]` of a word read by `br`. Two cases R107 leaves open are the model's choice (DESIGN CHOICE, log 18): with
hi < lo it is 0, and with hi > 31 the bits above 31 count as 0. -/
def fieldOf (w : Word) (hi lo : Nat) : Nat := w.toNat / 2 ^ lo % 2 ^ (hi + 1 - lo)

/-- A 32-bit read by `wait` or `br`, whose value only the host's control flow sees. -/
def State.pollRead (s : State) (off : BitVec 17) : State × Word := s.readTarget (locate s.params off.toNat)

/-- The host performs its next operation; past the last one its run has ended (R332) and nothing happens. -/
def State.hostTurn (s : State) : State :=
  match s.prog[s.hostPc]? with
  | none => s
  | some (.access a) => { s.recorded a with hostPc := s.hostPc + 1 }
  | some .wait =>
    let r := s.pollRead (BitVec.ofNat 17 RegName.status.offset)
    if r.2.getLsbD 0 then r.1 else { r.1 with hostPc := s.hostPc + 1 }
  | some (.branch off hi lo eq v target) =>
    let r := s.pollRead off
    if (fieldOf r.2 hi lo == v.toNat) == eq then { r.1 with hostPc := target }
    else { r.1 with hostPc := s.hostPc + 1 }

/-- The host's program is loaded: it starts at its first operation, with nothing returned yet (log 3). -/
def State.withProgram (s : State) (lines : List Directive) : State :=
  { s with prog := assemble s.params lines, hostPc := 0, replies := [] }

/-! ## Byte order -/

/-- Byte j of a bus word, for a byte-addressed host: bits 8j to 8j+7 (20_memory.md R74). -/
def byteOf (w : Word) (j : Nat) : BitVec 8 := w.extractLsb' (8 * j) 8

/-- Byte i of the register image of V[r], at offset 0x1000 + r·(VLEN/8) + i (R74). -/
def State.imageByte (s : State) (r i : Nat) : BitVec 8 := byteOf (s.windowWord r (i / 4)) (i % 4)

/-- The vector a byte string packs to: bit b of byte j is bit 8j + b (R74, 43_generator.md R227). -/
def packBytes : List (BitVec 8) → Nat
  | [] => 0
  | b :: rest => b.toNat + 2 ^ 8 * packBytes rest

end Sys2Proof.Machine
end

