-- ==== Sys2Proof/Machine/Step.lean ====
section
/-! DEFINITION. One step of the whole machine: the agent whose turn it is moves (20_memory.md R79). -/

namespace Sys2Proof.Machine

/-- The engine's turn: one step of the command in flight (40_execution.md R132); an illegal word completes with
ILLEGAL_CMD (30_encoding.md R105); an idle engine, or one that is held for a word, has no step to take and does
nothing (R132, 43_generator.md R221). RNG_WAIT = 1 is the hold. Where a power-down left it 1 without a draw that the empty
FIFO holds, the spec does not say whether a step is enabled; here the flag alone decides, for every command (DESIGN
CHOICE, log 22). -/
def engineTurn (s : State) : Host.Outcome State Fault Refusal :=
  match s.inflight with
  | none => .next s
  | some f =>
    if s.rngWait then .next s
    else
      match decode f.word with
      | .ok i => exec i s
      | .error _ => .next s.illegalCompletion

/-- Whether an engine step is enabled: a command is in flight and it is not held, which RNG_WAIT says (R132, R330,
log 22). -/
def State.stepEnabled (s : State) : Bool := s.busy && !s.rngWait

/-- One step. The next turn of the agenda is taken; with an empty agenda an enabled engine step goes first, and
otherwise the host moves (log 2). -/
def step (s : State) : Host.Outcome State Fault Refusal :=
  match s.agenda with
  | [] => if s.stepEnabled then engineTurn s else .next s.hostTurn
  | .engine :: rest => engineTurn { s with agenda := rest }
  | .host :: rest => .next { s with agenda := rest }.hostTurn
  | .access x :: rest => .next ({ s with agenda := rest }.otherAccess x)
  | .reset :: rest => .next { s with agenda := rest }.engineReset
  | .powerDown :: rest => .next { s with agenda := rest }.powerDown

/-- The command word w in flight as if just accepted (R130), and the engine's turn next. The engine fetches nothing
(20_memory.md R83): a command reaches it by a CMD write, and acceptance is what this stands for (log 3). -/
def State.withFetchWord (s : State) (nbits w : Nat) : State :=
  { s.accept (BitVec.ofNat 32 (w % 2 ^ nbits)) with rngWait := false, agenda := .engine :: s.agenda }

end Sys2Proof.Machine
end

