-- ==== Sys2Proof/Safety.lean ====
section
/-! DEFINITION. The terms claims are made in: the invariant of the engine, which registers a command may write, and
the counts and orders the rules speak of, written without the model's own loops. -/

namespace Sys2Proof

/-- GEN_RAND and GEN_INV: the two commands that draw random words (40_execution.md R132). -/
def Instr.isGenerator : Instr → Bool
  | .genRand .. | .genInv .. => true
  | .nop | .pmul .. | .pinv .. | .pinvT .. | .vxor .. | .vwt .. | .cmbBinom .. | .cmbUnrank .. | .cmbUnrankR ..
  | .cmbRank .. | .genHash .. | .decCw .. | .decSyn .. | .decSynd .. => false

/-- The vector registers a command writes on success, for n0 blocks (10_state.md R32). -/
def Instr.destinations (n0 : Nat) : Instr → List Nat
  | .nop | .pinvT _ | .vwt _ => []
  | .pmul vd _ _ | .pinv vd _ | .vxor vd _ _ | .cmbBinom vd | .cmbUnrank vd _ | .cmbUnrankR vd _ | .cmbRank vd _
  | .genRand vd | .genInv vd | .genHash vd _ | .decSynd vd _ _ => [vd]
  | .decCw vd _ | .decSyn vd _ _ => (List.range n0).map (vd + ·)

end Sys2Proof

namespace Sys2Proof.Machine

/-! ## Counting and order -/

/-- How many i < n satisfy f. -/
def countBelow (n : Nat) (f : Nat → Bool) : Nat := (List.range n).countP f

/-- XOR of the bits f i over i < n: whether an odd number of them is set. -/
def parityBelow (n : Nat) (f : Nat → Bool) : Bool := decide (countBelow n f % 2 = 1)

/-- The subset u comes before v in lexicographic order of increasing element lists, for subsets of one size: at the
lowest position where they differ, u has the element (42_combinatorial.md R196). -/
def lexBefore (u v : Nat) : Prop :=
  ∃ i, u.testBit i = true ∧ v.testBit i = false ∧ ∀ j, j < i → u.testBit j = v.testBit j

/-- H[k][b·P + j] = h_b[(j − k·σ_b) mod P] (44_decoder.md R250), with the subtraction of integers. -/
def parityEntry (s : State) (r : Nat) (k q : Nat) : Bool :=
  let b := q / s.P
  let j := q % s.P
  (s.vreg (r + b)).testBit (((j : Int) - k * s.shift b) % s.P).toNat

/-! ## Checks and completion, said without the model's operations -/

/-- Steps 2 to 4 of 40_execution.md R134 pass for command i, on an instance of legal build parameters with its NVREG
registers present. -/
structure State.Ready (s : State) (i : Instr) : Prop where
  legal : s.params.legal = true
  vregCount : s.vregs.length = s.params.nvreg
  goodP : i.usesP = true → 1 ≤ s.P ∧ s.P ≤ s.params.vlen
  goodBlocks : i.usesBlocks = true → 1 ≤ s.n0 ∧ s.n0 ≤ s.params.n0Max ∧ ∀ b, b < s.n0 → s.shift b < s.P
  goodSingles : ∀ r ∈ i.singleFields, r < s.params.nvreg
  goodBlockEnds : ∀ r ∈ i.blockFields, r + s.n0 - 1 < s.params.nvreg

/-- t is s after a completion with this code and this RES: nothing else differs but the vector registers (R133, R135). -/
def State.CompletesAs (s t : State) (code : ErrCode) (res : Word) : Prop :=
  t = { s with vregs := t.vregs, res := res, err := code, done := true, inflight := none }

/-- One round of the bit-flipping loop (44_decoder.md R252, R253) on the matrix in blk(va), from the candidate x and the
syndrome z to x' and z', bit by bit: with u[q] the number of unsatisfied checks of position q and m the largest of
them, the positions with u[q] > max(m − 5, 0) flip, and z gains the columns of those positions. -/
def State.RoundTo (s : State) (va x z x' z' : Nat) : Prop :=
  let width := s.n0 * s.P
  let u := fun q => countBelow s.P fun k => parityEntry s va k q && z.testBit k
  ∃ m, (∀ q, q < width → u q ≤ m) ∧ (∃ q, q < width ∧ u q = m) ∧
    (∀ q, x'.testBit q = (x.testBit q ^^ (decide (q < width) && decide (m - 5 < u q)))) ∧
    ∀ k, z'.testBit k =
      (z.testBit k ^^ (decide (k < s.P) && parityBelow width fun q => parityEntry s va k q && decide (m - 5 < u q)))

/-- The acceptance test of GEN_INV on a size-bit vector (43_generator.md R224, R225): invertible modulo x^size + 1, and
an odd number of set bits at positions size div 2 and above. -/
def AcceptableVector (size v : Nat) : Prop :=
  (∃ b, b < 2 ^ size ∧ ringMul size v b = 1) ∧
    parityBelow size (fun i => decide (size / 2 ≤ i) && v.testBit i) = true

/-- p' is p after one draw of the word w (43_generator.md R223): the low bitlen(size − 1) bits of w are an index, which
is set and counted when it is below size and not set yet; the draw counts either way. -/
def Progress.DrawnTo (p p' : Progress) (size : Nat) (w : Word) : Prop :=
  let idx := w.toNat % 2 ^ (size - 1).size
  p'.draws = p.draws + 1 ∧ p'.attempt = p.attempt ∧
    ((idx < size ∧ p.vec.testBit idx = false ∧ p'.cnt = p.cnt + 1 ∧
        ∀ j, p'.vec.testBit j = (p.vec.testBit j || decide (j = idx))) ∨
      ((size ≤ idx ∨ p.vec.testBit idx = true) ∧ p'.cnt = p.cnt ∧ p'.vec = p.vec))

/-! ## The invariant -/

/-- What generator progress is while a command is in flight (R35, R223, R224): the partial vector lies below size and
has cnt bits set, at most weight of them; the caps of GEN_CFG are respected (R228). -/
structure Progress.Sound (p : Progress) (s : State) : Prop where
  vecBelow : p.vec < 2 ^ s.n
  cntCounts : countBelow s.n p.vec.testBit = p.cnt
  cntAtMost : p.cnt ≤ s.k
  drawsAtMost : s.maxDraw ≠ 0 → p.draws ≤ s.maxDraw.toNat
  attemptAtMost : s.maxTry ≠ 0 → p.attempt ≤ s.maxTry.toNat

/-- The shape of the state, which every step keeps, a power-down too. -/
structure State.Shape (s : State) : Prop where
  /-- The build parameters are legal (00_scope.md R8). -/
  legal : s.params.legal = true
  /-- There are NVREG vector registers (R31). -/
  vregCount : s.vregs.length = s.params.nvreg
  /-- Each is VLEN bits wide (R31). -/
  vregWidth : ∀ v ∈ s.vregs, v < 2 ^ s.params.vlen
  /-- There are N0_MAX shift registers (R55). -/
  shiftCount : s.decShift.length = s.params.n0Max
  /-- The FIFO holds at most RNG_FIFO_DEPTH words (R37). -/
  fifoFits : s.fifo.length ≤ s.params.fifoDepth

/-- The invariant: a reset establishes it, and every step keeps it but a power-down, after which the values are any until
a reset (60_exceptions.md R297, U16). -/
structure State.Inv (s : State) : Prop extends State.Shape s where
  /-- While a command is in flight, DONE and ERR are clear and CMD_LAST is its word (R44, R46, R130). -/
  busyClean : ∀ f, s.inflight = some f → s.done = false ∧ s.err = .ok ∧ s.cmdLast = f.word
  /-- RNG_WAIT is 1 only while a generator that draws from the empty FIFO is in flight (R221). -/
  waitHeld : s.rngWait = true → ∃ f i, s.inflight = some f ∧ f.rngSrc = true ∧ s.fifo = [] ∧
    decode f.word = .ok i ∧ i.isGenerator = true
  /-- Generator progress is sound (R35). -/
  progressSound : ∀ f, s.inflight = some f → f.progress.Sound s

end Sys2Proof.Machine
end

