-- ==== Sys2Proof/Certificates/Slice0/Obligations.lean ====
section
/-! DEFINITION. The statements for the provers. -/

open Sys2Proof Sys2Proof.Machine

/-! ## Encoding -/

/-- Every well-formed command is what its own word decodes to, with every register field at every value (R101, R104). -/
def Obligations.EncodedCommandDecodesToItself : Prop :=
  ∀ i : Instr, i.wellFormed = true → decode (encode i) = .ok i

/-- A word that decodes is the encoding of a well-formed command: each word has one meaning (R101, R104, R105). -/
def Obligations.DecodedWordIsTheEncoding : Prop :=
  ∀ (w : Word) (i : Instr), decode w = .ok i → i.wellFormed = true ∧ encode i = w

/-- The kinds of illegal word (R105), by the fields of R101: RSV not 0; an OPC outside the map; an FL value no row of
this OPC has (FL[0] is free in 0x02 and 0x11 only, R103); a field the opcode does not use not 0. R105 says which words
are illegal. That a word illegal in several ways counts as the first kind in this order (RSV, OPC, FL, unused field) is
the model's own choice (log 20): it is not the order in which R105 lists them, and no state depends on it. -/
def Obligations.IllegalWordsAreRefusedByKind : Prop :=
  ∀ w : Word,
    (decode w = .error .reservedNonzero ↔ rsvOf w ≠ 0) ∧
    (decode w = .error .unassignedOpcode ↔ rsvOf w = 0 ∧
      (0x05 ≤ opcOf w ∧ opcOf w ≤ 0x0F ∨ 0x13 ≤ opcOf w ∧ opcOf w ≤ 0x1F ∨ 0x23 ≤ opcOf w ∧ opcOf w ≤ 0x2F ∨
        0x33 ≤ opcOf w)) ∧
    (decode w = .error .wrongFlags ↔ rsvOf w = 0 ∧
      ((opcOf w = 0x02 ∨ opcOf w = 0x11) ∧ 2 ≤ flOf w ∨
        (opcOf w ∈ [0x00, 0x01, 0x03, 0x04, 0x10, 0x12, 0x20, 0x21, 0x22, 0x30, 0x31, 0x32] ∧ 1 ≤ flOf w))) ∧
    (decode w = .error .unusedFieldNonzero ↔ rsvOf w = 0 ∧
      ((opcOf w = 0x00 ∧ flOf w = 0 ∧ ¬ (vdOf w = 0 ∧ vaOf w = 0 ∧ vbOf w = 0)) ∨
        ((opcOf w = 0x02 ∧ flOf w = 1 ∨ opcOf w = 0x04 ∧ flOf w = 0) ∧ ¬ (vdOf w = 0 ∧ vbOf w = 0)) ∨
        (opcOf w ∈ [0x10, 0x20, 0x21] ∧ flOf w = 0 ∧ ¬ (vaOf w = 0 ∧ vbOf w = 0)) ∨
        ((opcOf w ∈ [0x02, 0x12, 0x22, 0x30] ∧ flOf w = 0 ∨ opcOf w = 0x11 ∧ flOf w ≤ 1) ∧ vbOf w ≠ 0)))

/-- The sixteen encoding examples of R109 decode to the commands they stand for. -/
def Obligations.EncodingExamplesDecode : Prop :=
  decode 0x00000000 = .ok .nop ∧ decode 0x00021301 = .ok (.pmul 3 1 2) ∧ decode 0x00001202 = .ok (.pinv 2 1) ∧
  decode 0x00101002 = .ok (.pinvT 1) ∧ decode 0x00000003 = .ok (.vxor 0 0 0) ∧ decode 0x00007004 = .ok (.vwt 7) ∧
  decode 0x00000510 = .ok (.cmbBinom 5) ∧ decode 0x00001211 = .ok (.cmbUnrank 2 1) ∧
  decode 0x00106511 = .ok (.cmbUnrankR 5 6) ∧ decode 0x00002312 = .ok (.cmbRank 3 2) ∧
  decode 0x00000120 = .ok (.genRand 1) ∧ decode 0x00000221 = .ok (.genInv 2) ∧ decode 0x00009322 = .ok (.genHash 3 9) ∧
  decode 0x00000230 = .ok (.decCw 2 0) ∧ decode 0x00020431 = .ok (.decSyn 4 0 2) ∧
  decode 0x00020632 = .ok (.decSynd 6 0 2)

/-! ## Steps -/

/-- The engine's turn runs the command whose word is in flight, on the state with the turn taken off the agenda, unless
the engine is held (RNG_WAIT = 1; log 22). With an empty agenda an engine that is not held moves first, by the model's own choice (log 2). -/
def Obligations.EngineTurnRunsTheDecodedCommand : Prop :=
  ∀ (s : State) (f : InFlight) (i : Instr), s.inflight = some f → decode f.word = .ok i → s.rngWait = false →
    (∀ rest, s.agenda = .engine :: rest → step s = exec i { s with agenda := rest }) ∧
    (s.agenda = [] → step s = exec i s)

/-- An illegal word in flight completes on the engine's turn with ILLEGAL_CMD and RES = 0, and no other effect (R105). -/
def Obligations.IllegalWordCompletesWithIllegalCmd : Prop :=
  ∀ (s : State) (f : InFlight) (e : Illegal) (rest : List Turn), s.inflight = some f → decode f.word = .error e →
    s.rngWait = false → s.agenda = .engine :: rest →
    ∃ t, step s = .next t ∧ State.CompletesAs { s with agenda := rest } t .illegalCmd 0 ∧ t.vregs = s.vregs

/-- No step stops the machine: every state has a next state (60_exceptions.md R283, R288; logs 3, 8). -/
def Obligations.EveryStepHasANextState : Prop := ∀ s : State, ∃ t, step s = .next t

/-- The invariant holds after reset, of the default instance from the start, and of any engine whatever its state was
before, as after a power-down (R320, R297). -/
def Obligations.ResetStateMeetsTheInvariant : Prop :=
  State.reset.Inv ∧ ∀ s : State, s.params.legal = true → s.engineReset.Inv

/-- Every step of every state keeps the shape of the state: legal parameters, register counts and widths, the FIFO
bound. Every step but a power-down, which leaves any values until a reset (R297, U16), keeps the whole invariant, which
adds the flags clear while busy, the hold flag, and the soundness of generator progress. -/
def Obligations.EveryStepKeepsTheInvariant : Prop :=
  (∀ s t : State, s.Shape → step s = .next t → t.Shape) ∧
    ∀ s t : State, s.Inv → (∀ rest, s.agenda ≠ .powerDown :: rest) → step s = .next t → t.Inv

/-! ## What all commands share -/

/-- Every command other than GEN_RAND and GEN_INV completes in exactly one engine step, from every state (R132, R141). -/
def Obligations.NonGeneratorsCompleteInOneStep : Prop :=
  ∀ (i : Instr) (s : State), i.isGenerator = false →
    ∃ t code res, exec i s = .next t ∧ s.CompletesAs t code res

/-- Steps 2 to 4 of R134 in their order: BAD_CFG for P, then BAD_CFG for n0 and the shifts, then BAD_REG, each with
RES = 0 and no register written. -/
def Obligations.ChecksReportTheFirstFailure : Prop :=
  ∀ (i : Instr) (s : State), (i.isGenerator = true → s.inflight ≠ none) →
    let pBad := i.usesP = true ∧ ¬ (1 ≤ s.P ∧ s.P ≤ s.params.vlen)
    let blocksBad := i.usesBlocks = true ∧
      (¬ (1 ≤ s.n0 ∧ s.n0 ≤ s.params.n0Max) ∨ ∃ b, b < s.n0 ∧ s.P ≤ s.shift b)
    let regsBad := (∃ r ∈ i.singleFields, s.params.nvreg ≤ r) ∨ ∃ r ∈ i.blockFields, s.params.nvreg ≤ r + s.n0 - 1
    (pBad ∨ blocksBad → ∃ t, exec i s = .next t ∧ s.CompletesAs t .badCfg 0 ∧ t.vregs = s.vregs) ∧
    (¬ pBad → ¬ blocksBad → regsBad → ∃ t, exec i s = .next t ∧ s.CompletesAs t .badReg 0 ∧ t.vregs = s.vregs)

/-- Step 5 of R134: the argument checks of R164, R192 to R195, R222, R224 and R226. Once steps 2 to 4 pass, a command
whose arguments are bad completes with BAD_ARG, RES = 0 and no register written. -/
def Obligations.BadArgumentsAreReported : Prop :=
  ∀ (i : Instr) (s : State), s.Ready i → (i.isGenerator = true → s.inflight ≠ none) →
    (match i with
      | .vwt _ | .cmbBinom _ => s.params.vlen < s.n
      | .cmbUnrank _ _ | .cmbUnrankR _ _ => s.params.vlen < s.n ∨ s.n < s.k
      | .cmbRank _ va => s.params.vlen < s.n ∨ s.n < s.k ∨
          countBelow s.params.vlen (s.vreg va).testBit ≠ s.k ∨ ∃ j, s.n ≤ j ∧ (s.vreg va).testBit j = true
      | .genRand _ | .genHash _ _ => s.n < 1 ∨ s.params.vlen < s.n ∨ s.n < s.k
      | .genInv _ => s.n < 1 ∨ s.params.vlen < s.n ∨ s.n < s.k ∨ s.k % 2 = 0
      | _ => False) →
    ∃ t, exec i s = .next t ∧ s.CompletesAs t .badArg 0 ∧ t.vregs = s.vregs

/-- A command that ends in an error code writes no vector register and changes only RES, ERR, DONE and BUSY in that
step (R135). -/
def Obligations.ErrorCompletionWritesNoRegister : Prop :=
  ∀ (i : Instr) (s t : State), s.inflight ≠ none → exec i s = .next t → t.inflight = none → t.err ≠ .ok →
    s.CompletesAs t t.err t.res ∧ t.vregs = s.vregs

/-- What every command leaves alone, completing or not: every vector register outside its row of R32, and all state but
the registers, RES, ERR, DONE, the command in flight and, for a generator, the random source and RNG_WAIT. -/
def Obligations.CommandsTouchOnlyTheirRow : Prop :=
  ∀ (i : Instr) (s t : State), exec i s = .next t →
    (∀ r, r ∉ i.destinations s.n0 → t.vreg r = s.vreg r) ∧ t.vregs.length = s.vregs.length ∧
    t = { s with
          vregs := t.vregs, res := t.res, err := t.err, done := t.done, inflight := t.inflight,
          fifo := t.fifo, rngWait := t.rngWait, entropyNext := t.entropyNext } ∧
    (i.isGenerator = false → t.fifo = s.fifo ∧ t.rngWait = s.rngWait ∧ t.entropyNext = s.entropyNext)

/-- The result of a command that uses P depends on bits [P-1:0] of the registers only: two states that agree there give
the same code, RES and destinations (R140; bits at positions P and above are ignored). -/
def Obligations.SourceBitsAtOrAbovePAreIgnored : Prop :=
  ∀ (i : Instr) (s : State) (l : List Nat) (t t' : State), i.usesP = true → l.length = s.vregs.length →
    (∀ r j, j < s.P → ({ s with vregs := l }.vreg r).testBit j = (s.vreg r).testBit j) →
    exec i s = .next t → exec i { s with vregs := l } = .next t' →
    t.err = t'.err ∧ t.res = t'.res ∧ (t.err = .ok → ∀ r ∈ i.destinations s.n0, r < s.vregs.length → t.vreg r = t'.vreg r)

/-- Destination bits at positions at or above the operation length are written 0: P for the commands that use it, the
scalar length for the generators and GEN_HASH (R140). -/
def Obligations.DestinationBitsAtOrAboveTheLengthAreZero : Prop :=
  ∀ (i : Instr) (s t : State), s.Inv → s.Ready i → s.inflight ≠ none → exec i s = .next t → t.inflight = none →
    t.err = .ok → ∀ r ∈ i.destinations s.n0,
      (i.usesP = true → t.vreg r < 2 ^ s.P) ∧
      ((∃ vd, i = .genRand vd ∨ i = .genInv vd) ∨ (∃ vd va, i = .genHash vd va) → t.vreg r < 2 ^ s.n)

/-- Every completion, successful or not, raises `irq` exactly when CTRL.IE is set (R286), on the platform's line
IRQ_LINE and on no other (R77). -/
def Obligations.CompletionRaisesTheEnabledInterrupt : Prop :=
  ∀ (i : Instr) (s t : State), s.inflight ≠ none → exec i s = .next t → t.inflight = none →
    t.irq = s.ie ∧ ∀ line, t.irqAt line = (decide (line = s.params.irqLine) && s.ie)

/-! ## NOP and the polynomial commands -/

/-- NOP: complete(OK, 0, {}) (R137). Of the words with OPC = 0x00, the word 0 is NOP and every other is illegal. -/
def Obligations.NopCompletesOkWithZero : Prop :=
  (∀ s : State, ∃ t, exec .nop s = .next t ∧ s.CompletesAs t .ok 0 ∧ t.vregs = s.vregs) ∧
    ∀ w : Word, opcOf w = 0x00 → (w = 0 → decode w = .ok .nop) ∧ (w ≠ 0 → ∃ e, decode w = .error e)

/-- PMUL: c[j] = XOR over i in [0,P) of (a[i] AND b[(j − i) mod P]), zero-extended into V[VD] (R160). -/
def Obligations.PmulIsTheCyclicConvolution : Prop :=
  ∀ (s : State) (vd va vb : Nat), s.Ready (.pmul vd va vb) →
    ∃ t, exec (.pmul vd va vb) s = .next t ∧ s.CompletesAs t .ok 0 ∧ (∀ r, r ≠ vd → t.vreg r = s.vreg r) ∧
      ∀ j, (t.vreg vd).testBit j = (decide (j < s.P) &&
        parityBelow s.P fun i => (s.vreg va).testBit i && (s.vreg vb).testBit ((j + s.P - i) % s.P))

/-- PINV: when some P-bit b has a ⊛ b = 1, that b is written and RES = 1; otherwise NO_INVERSE with RES = 0 and nothing
written (R161). -/
def Obligations.PinvWritesTheInverseOrReportsNone : Prop :=
  ∀ (s : State) (vd va : Nat), s.Ready (.pinv vd va) →
    ∃ t, exec (.pinv vd va) s = .next t ∧
      ((∃ b, b < 2 ^ s.P ∧ ringMul s.P (low s.P (s.vreg va)) b = 1 ∧ s.CompletesAs t .ok 1 ∧ t.vreg vd = b ∧
          ∀ r, r ≠ vd → t.vreg r = s.vreg r) ∨
        ((∀ b, b < 2 ^ s.P → ringMul s.P (low s.P (s.vreg va)) b ≠ 1) ∧ s.CompletesAs t .noInverse 0 ∧
          t.vregs = s.vregs))

/-- PINV reports NO_INVERSE exactly when a(x) and x^P + 1 have a common divisor other than 1 (R161: gcd ≠ 1). -/
def Obligations.PinvFailsExactlyOnACommonDivisor : Prop :=
  ∀ (s t : State) (vd va : Nat), s.Ready (.pinv vd va) → exec (.pinv vd va) s = .next t →
    (t.err = .noInverse ↔
      ∃ d u v, d ≠ 1 ∧ polyMul d u = low s.P (s.vreg va) ∧ polyMul d v = 2 ^ s.P + 1)

/-- PINV.T: OK with RES = 1 when the operand has an inverse, NO_INVERSE with RES = 0 otherwise, and no register is ever
written (R162). -/
def Obligations.PinvTTestsWithoutWriting : Prop :=
  ∀ (s : State) (va : Nat), s.Ready (.pinvT va) →
    ∃ t, exec (.pinvT va) s = .next t ∧ t.vregs = s.vregs ∧
      ((∃ b, b < 2 ^ s.P ∧ ringMul s.P (low s.P (s.vreg va)) b = 1) → s.CompletesAs t .ok 1) ∧
      ((¬ ∃ b, b < 2 ^ s.P ∧ ringMul s.P (low s.P (s.vreg va)) b = 1) → s.CompletesAs t .noInverse 0)

/-- "Every a of even weight gives NO_INVERSE" (R161). -/
def Obligations.EvenWeightHasNoInverse : Prop :=
  ∀ (s : State) (vd va : Nat), s.Ready (.pinv vd va) → countBelow s.P (s.vreg va).testBit % 2 = 0 →
    ∃ t, exec (.pinv vd va) s = .next t ∧ s.CompletesAs t .noInverse 0 ∧ t.vregs = s.vregs

/-- The laws of R165 for P-bit operands: ⊛ is commutative and associative with identity 1 and distributes over ⊕; and
"the inverse is unique" (R161). -/
def Obligations.RingProductObeysTheRingLaws : Prop :=
  ∀ P a b c : Nat, 1 ≤ P → a < 2 ^ P → b < 2 ^ P → c < 2 ^ P →
    ringMul P a b = ringMul P b a ∧ ringMul P (ringMul P a b) c = ringMul P a (ringMul P b c) ∧
    ringMul P 1 a = a ∧ ringMul P a (b ^^^ c) = ringMul P a b ^^^ ringMul P a c ∧
    (ringMul P a b = 1 → ringMul P a c = 1 → b = c)

/-- VXOR: V[VD] ← V[VA] xor V[VB] over all VLEN bits, RES = 0; CFG_P is not read (R163). -/
def Obligations.VxorAddsWholeRegisters : Prop :=
  ∀ (s : State) (vd va vb : Nat), s.Ready (.vxor vd va vb) →
    ∃ t, exec (.vxor vd va vb) s = .next t ∧ s.CompletesAs t .ok 0 ∧ (∀ r, r ≠ vd → t.vreg r = s.vreg r) ∧
      ∀ j, (t.vreg vd).testBit j = ((s.vreg va).testBit j ^^ (s.vreg vb).testBit j)

/-- VWT: RES = popcount(V[VA][len−1:0]) with len = ARG0 ≤ VLEN, BAD_ARG when ARG0 > VLEN; no register is written (R164). -/
def Obligations.VwtCountsThePrefix : Prop :=
  ∀ (s : State) (va : Nat), s.Ready (.vwt va) →
    ∃ t, exec (.vwt va) s = .next t ∧ t.vregs = s.vregs ∧
      (s.n ≤ s.params.vlen → s.CompletesAs t .ok (BitVec.ofNat 32 (countBelow s.n (s.vreg va).testBit))) ∧
      (s.params.vlen < s.n → s.CompletesAs t .badArg 0)

/-! ## The combinatorial commands -/

/-- CMB_BINOM: V[VD] ← C(n,k), RES = bitlen(C(n,k)) for n ≤ VLEN; BAD_ARG when n > VLEN (R192). -/
def Obligations.CmbBinomWritesTheBinomialCoefficient : Prop :=
  ∀ (s : State) (vd : Nat), s.Ready (.cmbBinom vd) →
    ∃ t, exec (.cmbBinom vd) s = .next t ∧ (∀ r, r ≠ vd → t.vreg r = s.vreg r) ∧
      (s.n ≤ s.params.vlen →
        s.CompletesAs t .ok (BitVec.ofNat 32 (s.n.choose s.k).size) ∧ t.vreg vd = s.n.choose s.k) ∧
      (s.params.vlen < s.n → s.CompletesAs t .badArg 0 ∧ t.vregs = s.vregs)

/-- CMB_UNRANK, for k ≤ n ≤ VLEN: INDEX_RANGE with nothing written when the index is C(n,k) or more; otherwise a
k-subset of the numbers below n in V[VD], RES = 0 (R193, R196). -/
def Obligations.CmbUnrankWritesAKSubset : Prop :=
  ∀ (s : State) (vd va : Nat), s.Ready (.cmbUnrank vd va) → s.n ≤ s.params.vlen → s.k ≤ s.n →
    ∃ t, exec (.cmbUnrank vd va) s = .next t ∧ (∀ r, r ≠ vd → t.vreg r = s.vreg r) ∧
      (s.n.choose s.k ≤ s.vreg va → s.CompletesAs t .indexRange 0 ∧ t.vregs = s.vregs) ∧
      (s.vreg va < s.n.choose s.k → s.CompletesAs t .ok 0 ∧ t.vreg vd < 2 ^ s.n ∧
        countBelow s.n (t.vreg vd).testBit = s.k)

/-- The order of the bijection is lexicographic (R196): of two indices of one (n, k), the smaller gives the subset that
comes first. -/
def Obligations.CmbUnrankIsLexicographic : Prop :=
  ∀ (s s' t t' : State) (vd va : Nat), s.Ready (.cmbUnrank vd va) → s'.Ready (.cmbUnrank vd va) →
    s.n ≤ s.params.vlen → s.k ≤ s.n → s'.params = s.params → s'.n = s.n → s'.k = s.k →
    s.vreg va < s'.vreg va → s'.vreg va < s.n.choose s.k →
    exec (.cmbUnrank vd va) s = .next t → exec (.cmbUnrank vd va) s' = .next t' → lexBefore (t.vreg vd) (t'.vreg vd)

/-- CMB_UNRANK.R: the index is reduced modulo C(n,k), so INDEX_RANGE cannot occur, and the result is what CMB_UNRANK
gives for the reduced index (R194). -/
def Obligations.CmbUnrankRReducesTheIndex : Prop :=
  ∀ (s : State) (vd va : Nat), s.Ready (.cmbUnrankR vd va) → s.n ≤ s.params.vlen → s.k ≤ s.n →
    ∃ t, exec (.cmbUnrankR vd va) s = .next t ∧ s.CompletesAs t .ok 0 ∧ (∀ r, r ≠ vd → t.vreg r = s.vreg r) ∧
      ∃ u, exec (.cmbUnrank vd va) (s.setVreg va (s.vreg va % s.n.choose s.k)) = .next u ∧ u.err = .ok ∧
        t.vreg vd = u.vreg vd

/-- CMB_RANK, for a k-subset of the numbers below n ≤ VLEN: V[VD] ← the sum of C(n − i − 1, k − sel − 1) over the
positions i that are not elements and lie before the last one, sel counting the elements before i; RES = 0 (R195). -/
def Obligations.CmbRankSumsTheSkippedCounts : Prop :=
  ∀ (s : State) (vd va : Nat), s.Ready (.cmbRank vd va) → s.n ≤ s.params.vlen →
    countBelow s.params.vlen (s.vreg va).testBit = s.k → s.vreg va < 2 ^ s.n →
    ∃ t, exec (.cmbRank vd va) s = .next t ∧ s.CompletesAs t .ok 0 ∧ (∀ r, r ≠ vd → t.vreg r = s.vreg r) ∧
      t.vreg vd = ((List.range s.n).map fun i =>
        let sel := countBelow i (s.vreg va).testBit
        if (s.vreg va).testBit i = true ∨ s.k ≤ sel then 0 else (s.n - i - 1).choose (s.k - sel - 1)).sum

/-- CMB_RANK is the inverse of CMB_UNRANK (R196): ranking the subset that an index was unranked to gives the index back,
whatever was accepted in between from the same arguments. -/
def Obligations.CmbRankUndoesCmbUnrank : Prop :=
  ∀ (s t : State) (w : Word) (vd va vr : Nat), s.Ready (.cmbUnrank vd va) → s.Ready (.cmbRank vr vd) →
    exec (.cmbUnrank vd va) s = .next t → t.err = .ok →
    ∃ u, exec (.cmbRank vr vd) (t.accept w) = .next u ∧ u.err = .ok ∧ u.vreg vr = s.vreg va

/-- CMB_UNRANK is the inverse of CMB_RANK (R196), and the index of a k-subset is below C(n,k). -/
def Obligations.CmbUnrankUndoesCmbRank : Prop :=
  ∀ (s t : State) (w : Word) (vd va vr : Nat), s.Ready (.cmbRank vd va) → s.Ready (.cmbUnrank vr vd) →
    exec (.cmbRank vd va) s = .next t → t.err = .ok →
    t.vreg vd < s.n.choose s.k ∧
      ∃ u, exec (.cmbUnrank vr vd) (t.accept w) = .next u ∧ u.err = .ok ∧ u.vreg vr = s.vreg va

/-! ## The generator commands -/

/-- GEN_RAND with `weight` bits set completes: V[VD] ← the vector, RES = the draws, saturating (R222). -/
def Obligations.GenRandFinishesAtItsWeight : Prop :=
  ∀ (s : State) (f : InFlight) (vd : Nat), s.Ready (.genRand vd) → s.inflight = some f → 1 ≤ s.n →
    s.n ≤ s.params.vlen → s.k ≤ s.n → s.k ≤ f.progress.cnt → f.progress.vec < 2 ^ s.n →
    ∃ t, exec (.genRand vd) s = .next t ∧ s.CompletesAs t .ok (BitVec.ofNat 32 (min f.progress.draws 0xFFFFFFFF)) ∧
      t.vreg vd = f.progress.vec ∧ ∀ r, r ≠ vd → t.vreg r = s.vreg r

/-- One draw of GEN_RAND, or of an attempt of GEN_INV, below its weight and its draw cap (R221, R223): it takes the
oldest FIFO word or, on the entropy source, the port's next word, whatever that is; with an empty FIFO it takes
nothing and the engine is held with RNG_WAIT = 1. -/
def Obligations.GeneratorsDrawOneWordOrAreHeld : Prop :=
  ∀ (i : Instr) (s : State) (f : InFlight), s.Ready i → s.inflight = some f →
    ((∃ vd, i = .genRand vd) ∨ ((∃ vd, i = .genInv vd) ∧ f.progress.attempt ≠ 0 ∧ s.k % 2 = 1)) →
    1 ≤ s.n → s.n ≤ s.params.vlen → s.k ≤ s.n → f.progress.cnt < s.k →
    (s.maxDraw = 0 ∨ f.progress.draws ≠ s.maxDraw.toNat) →
    (∀ w rest, f.rngSrc = true → s.fifo = w :: rest → ∃ p, f.progress.DrawnTo p s.n w ∧
      exec i s = .next { s with fifo := rest, rngWait := false, inflight := some { f with progress := p } }) ∧
    (f.rngSrc = true → s.fifo = [] → exec i s = .next { s with rngWait := true }) ∧
    (f.rngSrc = false → ∃ p, f.progress.DrawnTo p s.n (Config.entropy s.entropyNext) ∧
      exec i s = .next { s with entropyNext := s.entropyNext + 1, inflight := some { f with progress := p } })

/-- GEN_EXHAUSTED (R222, R223, R224): at MAXDRAW draws below the weight, GEN_RAND ends with RES = the draws and GEN_INV
with RES = the attempt's number; nothing is written. -/
def Obligations.DrawCapExhaustsTheGenerators : Prop :=
  ∀ (s : State) (f : InFlight) (vd : Nat), s.Ready (.genRand vd) → s.inflight = some f → 1 ≤ s.n →
    s.n ≤ s.params.vlen → s.k ≤ s.n → f.progress.cnt < s.k → s.maxDraw ≠ 0 → f.progress.draws = s.maxDraw.toNat →
    (∃ t, exec (.genRand vd) s = .next t ∧ s.CompletesAs t .genExhausted (s.maxDraw.setWidth 32) ∧
      t.vregs = s.vregs) ∧
    (s.k % 2 = 1 → f.progress.attempt ≠ 0 → f.progress.attempt < 2 ^ 32 →
      ∃ t, exec (.genInv vd) s = .next t ∧
        s.CompletesAs t .genExhausted (BitVec.ofNat 32 f.progress.attempt) ∧ t.vregs = s.vregs)

/-- The attempts of GEN_INV (R224): an acceptable full vector is written with RES = the attempt's number; one that is
rejected at the attempt cap ends in GEN_EXHAUSTED; with no attempt begun, or a vector rejected below the cap, a fresh
attempt begins, whose first draw is made in the same step (R132, log 12): it takes the oldest FIFO word or the entropy
port's next word, or, with an empty FIFO, the engine is held with the fresh attempt begun and no draw made. -/
def Obligations.GenInvAcceptsOrRetries : Prop :=
  ∀ (s : State) (f : InFlight) (vd : Nat), s.Ready (.genInv vd) → s.inflight = some f → 1 ≤ s.n →
    s.n ≤ s.params.vlen → s.k ≤ s.n → s.k % 2 = 1 → f.progress.vec < 2 ^ s.n →
    let full := f.progress.attempt ≠ 0 ∧ f.progress.attempt < 2 ^ 32 ∧ s.k ≤ f.progress.cnt
    (full → AcceptableVector s.n f.progress.vec →
      ∃ t, exec (.genInv vd) s = .next t ∧ s.CompletesAs t .ok (BitVec.ofNat 32 f.progress.attempt) ∧
        t.vreg vd = f.progress.vec ∧ ∀ r, r ≠ vd → t.vreg r = s.vreg r) ∧
    (full → ¬ AcceptableVector s.n f.progress.vec → f.progress.attempt = s.maxTry.toNat →
      ∃ t, exec (.genInv vd) s = .next t ∧
        s.CompletesAs t .genExhausted (BitVec.ofNat 32 f.progress.attempt) ∧ t.vregs = s.vregs) ∧
    (f.progress.attempt = 0 ∨
        (full ∧ ¬ AcceptableVector s.n f.progress.vec ∧ f.progress.attempt ≠ s.maxTry.toNat) →
      let begun : Progress := ⟨0, 0, 0, f.progress.attempt + 1⟩
      (∀ w rest, f.rngSrc = true → s.fifo = w :: rest → ∃ p, begun.DrawnTo p s.n w ∧
        exec (.genInv vd) s =
          .next { s with fifo := rest, rngWait := false, inflight := some { f with progress := p } }) ∧
      (f.rngSrc = true → s.fifo = [] →
        exec (.genInv vd) s = .next { s with rngWait := true, inflight := some { f with progress := begun } }) ∧
      (f.rngSrc = false → ∃ p, begun.DrawnTo p s.n (Config.entropy s.entropyNext) ∧
        exec (.genInv vd) s =
          .next { s with entropyNext := s.entropyNext + 1, inflight := some { f with progress := p } }))

/-- A generator whose step finds the FIFO empty is held, and however many turns the engine then gets, they change
nothing; a word written to RNG_DATA lifts the hold (R221, R330; that it does so at the write is log 5). -/
def Obligations.HeldGeneratorTurnsChangeNothing : Prop :=
  ∀ (i : Instr) (s t : State) (f : InFlight) (n : Nat) (rest : List Turn), i.isGenerator = true →
    s.inflight = some f → f.rngSrc = true → s.fifo = [] → exec i s = .next t → t.inflight ≠ none →
    t.rngWait = true ∧ t.fifo = [] ∧
      core.run n { t with agenda := List.replicate n .engine ++ rest } = .next { t with agenda := rest } ∧
      (1 ≤ s.params.fifoDepth → ∀ w,
        t.access (.write 0x034 .w32 w) = ({ t with fifo := [w], rngWait := false }, none))

/-- GEN_RAND on injected words is RandWeight on those words in their order (R222, R223, R141): after the CMD write of
gen.rand, if the vector first reaches its weight with the last of the words ws, and the draw cap is not met before, then
ws.length + 1 engine steps complete it, with the words after ws left in the FIFO. The agenda is empty, and the steps are
the engine's because it then moves first: the model's own choice (log 2), not a rule. -/
def Obligations.GenRandRunTakesItsWordsInOrder : Prop :=
  ∀ (s : State) (w : Word) (vd : Nat) (ws rest : List Word) (p : Nat → Progress),
    s.Ready (.genRand vd) → s.agenda = [] → s.inflight = none → decode w = .ok (.genRand vd) →
    s.rngSrc = true → s.rngWait = false → s.fifo = ws ++ rest → 1 ≤ s.n → s.n ≤ s.params.vlen → s.k ≤ s.n →
    p 0 = ⟨0, 0, 0, 0⟩ →
    (∀ j, (h : j < ws.length) → (p j).DrawnTo (p (j + 1)) s.n ws[j] ∧ (p j).cnt < s.k ∧
      (s.maxDraw = 0 ∨ j < s.maxDraw.toNat)) →
    (p ws.length).cnt = s.k →
    ∃ t, core.run (ws.length + 1) (s.access (.write 0x018 .w32 w)).1 = .next t ∧
      t = { s with
            vregs := t.vregs, res := BitVec.ofNat 32 (min ws.length 0xFFFFFFFF), err := .ok, done := true,
            cmdLast := w, inflight := none, fifo := rest } ∧
      t.vreg vd = (p ws.length).vec ∧ ∀ r, r ≠ vd → t.vreg r = s.vreg r

/-- With a draw cap, GEN_RAND on the entropy source completes within MAXDRAW + 1 engine steps of its CMD write, whatever
the words are (R228, R220). The agenda is empty, and the steps are the engine's because it then moves first: the model's
own choice (log 2), not a rule. -/
def Obligations.GenRandWithADrawCapCompletes : Prop :=
  ∀ (s : State) (w : Word) (vd : Nat), s.agenda = [] → s.rngWait = false → s.inflight = none →
    decode w = .ok (.genRand vd) → s.rngSrc = false → s.maxDraw ≠ 0 →
    ∃ j t, j ≤ s.maxDraw.toNat + 1 ∧ core.run j (s.access (.write 0x018 .w32 w)).1 = .next t ∧ t.inflight = none ∧
      t.done = true

/-- What GEN_RAND and GEN_INV write (R223, R224, R225): exactly `weight` bits, all below size, and for GEN_INV an
acceptable vector. -/
def Obligations.GeneratedVectorsHaveTheirWeight : Prop :=
  ∀ (i : Instr) (s t : State) (vd : Nat), s.Inv → s.inflight ≠ none → (i = .genRand vd ∨ i = .genInv vd) →
    exec i s = .next t → t.inflight = none → t.err = .ok →
    t.vreg vd < 2 ^ s.n ∧ countBelow s.n (t.vreg vd).testBit = s.k ∧
      (i = .genInv vd → AcceptableVector s.n (t.vreg vd))

/-- GEN_HASH (R226), for legal arguments: with `weight` ones below len, V[VD] is the digest up to the first position pos
before which there are `weight` ones, and RES = weight + pos·65536; otherwise HASH_SHORT, nothing written, and
RES = ones + len·65536. -/
def Obligations.GenHashTakesTheFirstOnes : Prop :=
  ∀ (s : State) (vd va : Nat), s.Ready (.genHash vd va) → 1 ≤ s.n → s.n ≤ s.params.vlen → s.k ≤ s.n →
    ∃ t, exec (.genHash vd va) s = .next t ∧ (∀ r, r ≠ vd → t.vreg r = s.vreg r) ∧
      (s.k ≤ countBelow s.n (s.vreg va).testBit →
        ∃ pos, pos ≤ s.n ∧ countBelow pos (s.vreg va).testBit = s.k ∧
          (∀ q, q < pos → countBelow q (s.vreg va).testBit < s.k) ∧
          s.CompletesAs t .ok (BitVec.ofNat 32 (s.k + pos * 65536)) ∧
          ∀ j, (t.vreg vd).testBit j = (decide (j < pos) && (s.vreg va).testBit j)) ∧
      (countBelow s.n (s.vreg va).testBit < s.k →
        s.CompletesAs t .hashShort (BitVec.ofNat 32 (countBelow s.n (s.vreg va).testBit + s.n * 65536)) ∧
        t.vregs = s.vregs)

/-! ## The decoder commands -/

/-- DEC_SYND: V[VD] ← s = H·cᵗ with H[k][b·P + j] = h_b[(j − k·σ_b) mod P], RES = its weight (R250, R251, R256). -/
def Obligations.DecSyndComputesTheSyndrome : Prop :=
  ∀ (s : State) (vd va vb : Nat), s.Ready (.decSynd vd va vb) →
    ∃ t, exec (.decSynd vd va vb) s = .next t ∧
      s.CompletesAs t .ok (BitVec.ofNat 32 (countBelow s.P (t.vreg vd).testBit)) ∧
      (∀ r, r ≠ vd → t.vreg r = s.vreg r) ∧
      ∀ k, (t.vreg vd).testBit k = (decide (k < s.P) && parityBelow (s.n0 * s.P) fun q =>
        parityEntry s va k q && (s.vreg (vb + q / s.P)).testBit (q % s.P))

/-- DEC_CW ends in OK after at most DEC_LIMIT rounds with a word of syndrome 0 in blk(VD), its bits at P and above 0, or
in DECODE_FAIL with RES = DEC_LIMIT and nothing written (R254, R257). -/
def Obligations.DecCwWritesACodewordOrFails : Prop :=
  ∀ (s : State) (vd va : Nat), s.Ready (.decCw vd va) →
    ∃ t res, exec (.decCw vd va) s = .next t ∧ (∀ r, r ∉ (List.range s.n0).map (vd + ·) → t.vreg r = s.vreg r) ∧
      ((s.CompletesAs t .ok res ∧ res.toNat ≤ 10 ∧ (∀ b, b < s.n0 → t.vreg (vd + b) < 2 ^ s.P) ∧
          ∀ k, k < s.P → parityBelow (s.n0 * s.P) (fun q =>
            parityEntry s va k q && (t.vreg (vd + q / s.P)).testBit (q % s.P)) = false) ∨
        (s.CompletesAs t .decodeFail 10 ∧ t.vregs = s.vregs))

/-- DEC_SYN ends in OK after at most DEC_LIMIT rounds with an error pattern in blk(VD) whose syndrome is V[VB][P−1:0], or
in DECODE_FAIL with RES = DEC_LIMIT and nothing written (R255, R257). -/
def Obligations.DecSynWritesAPatternOfTheSyndromeOrFails : Prop :=
  ∀ (s : State) (vd va vb : Nat), s.Ready (.decSyn vd va vb) →
    ∃ t res, exec (.decSyn vd va vb) s = .next t ∧
      (∀ r, r ∉ (List.range s.n0).map (vd + ·) → t.vreg r = s.vreg r) ∧
      ((s.CompletesAs t .ok res ∧ res.toNat ≤ 10 ∧ (∀ b, b < s.n0 → t.vreg (vd + b) < 2 ^ s.P) ∧
          ∀ k, k < s.P → parityBelow (s.n0 * s.P) (fun q =>
            parityEntry s va k q && (t.vreg (vd + q / s.P)).testBit (q % s.P)) = (s.vreg vb).testBit k) ∨
        (s.CompletesAs t .decodeFail 10 ∧ t.vregs = s.vregs))

/-- The decoder runs the rounds of R252 (R252, R254, R255). Let x and z be the candidates and syndromes of successive
rounds, from the received word and its syndrome for DEC_CW, from 0 and V[VB][P−1:0] for DEC_SYN. If z is first 0 after
r ≤ 10 rounds, the command completes OK with RES = r and x r in blk(VD); if it is 0 after none of 0 to 10 rounds, it
ends in DECODE_FAIL with RES = 10. -/
def Obligations.DecodersRunTheBitFlippingRounds : Prop :=
  ∀ (i : Instr) (s : State) (vd va : Nat) (x z : Nat → Nat), s.Ready i →
    ((i = .decCw vd va ∧
        (∀ q, (x 0).testBit q = (decide (q < s.n0 * s.P) && (s.vreg (vd + q / s.P)).testBit (q % s.P))) ∧
        ∀ k, (z 0).testBit k = (decide (k < s.P) && parityBelow (s.n0 * s.P) fun q =>
          parityEntry s va k q && (s.vreg (vd + q / s.P)).testBit (q % s.P))) ∨
      (∃ vb, i = .decSyn vd va vb ∧ x 0 = 0 ∧ z 0 = low s.P (s.vreg vb))) →
    (∀ r, s.RoundTo va (x r) (z r) (x (r + 1)) (z (r + 1))) →
    (∀ r, r ≤ 10 → z r = 0 → (∀ r', r' < r → z r' ≠ 0) →
      ∃ t, exec i s = .next t ∧ s.CompletesAs t .ok (BitVec.ofNat 32 r) ∧
        (∀ b j, b < s.n0 → (t.vreg (vd + b)).testBit j = (decide (j < s.P) && (x r).testBit (b * s.P + j))) ∧
        ∀ q, q ∉ (List.range s.n0).map (vd + ·) → t.vreg q = s.vreg q) ∧
    ((∀ r, r ≤ 10 → z r ≠ 0) → ∃ t, exec i s = .next t ∧ s.CompletesAs t .decodeFail 10 ∧ t.vregs = s.vregs)

/-! ## The aperture -/

/-- An access that is not 32 bits wide or not at a multiple of 4 gets a bus error: nothing changes and a read returns no
data; no other access gets one (R72). -/
def Obligations.UnalignedOrNarrowAccessIsABusError : Prop :=
  ∀ (s : State) (off : BitVec 17) (width : Width) (v : Word),
    (width ≠ .w32 ∨ off.toNat % 4 ≠ 0 →
      s.access (.read off width) = (s, some .busError) ∧ s.access (.write off width v) = (s, some .busError)) ∧
    (width = .w32 → off.toNat % 4 = 0 →
      (s.access (.read off width)).2 ≠ some .busError ∧ (s.access (.write off width v)).2 ≠ some .busError)

/-- CMD (R44, R130): a write of any word to an idle engine is accepted, with exactly the effects of R130; to a busy one
it is dropped and sets OVERRUN; a read returns CMD_LAST, which is 0 after reset. -/
def Obligations.CmdWriteIsAcceptedOrDropped : Prop :=
  ∀ (s : State) (w : Word),
    (s.inflight = none → ∃ p, s.access (.write 0x018 .w32 w) =
      ({ s with
          cmdLast := w, done := false, err := .ok,
          inflight := some { word := w, rngSrc := s.rngSrc, progress := p } }, none)) ∧
    (s.inflight ≠ none → s.access (.write 0x018 .w32 w) = ({ s with overrun := true }, none)) ∧
    s.access (.read 0x018 .w32) = (s, some (.data s.cmdLast)) ∧ s.engineReset.cmdLast = 0 ∧ State.reset.cmdLast = 0

/-- While busy, a write to a LOCK register or to the vector window is dropped, a read of the window returns 0, and both
set BUSY_ACC and nothing else; a read of a LOCK register changes nothing and returns what an idle read would (R76). -/
def Obligations.LockedAccessesAreRefusedWhileBusy : Prop :=
  ∀ (s : State) (off : BitVec 17) (v : Word), s.params.legal = true → s.inflight ≠ none → off.toNat % 4 = 0 →
    let lock := off.toNat = 0x01C ∨ off.toNat = 0x020 ∨ off.toNat = 0x028 ∨ off.toNat = 0x02C ∨ off.toNat = 0x030 ∨
      (0x040 ≤ off.toNat ∧ off.toNat < 0x040 + 4 * s.params.n0Max)
    let window := 0x1000 ≤ off.toNat ∧ off.toNat < 0x1000 + s.params.nvreg * (s.params.vlen / 8)
    (lock ∨ window → s.access (.write off .w32 v) = ({ s with busyAcc := true }, none)) ∧
    (window → s.access (.read off .w32) = ({ s with busyAcc := true }, some (.data 0))) ∧
    (lock → (s.access (.read off .w32)).1 = s ∧
      (s.access (.read off .w32)).2 = ({ s with inflight := none }.access (.read off .w32)).2)

/-- The vector window (R73): while idle, word w of register r at 0x1000 + r·(VLEN/8) + 4·w is bits 32w to 32w+31 of
V[r]; a read returns them and changes nothing, a write sets them and changes nothing else. -/
def Obligations.WindowWordIsThirtyTwoRegisterBits : Prop :=
  ∀ (s : State) (r w : Nat) (v : Word), s.params.legal = true → s.vregs.length = s.params.nvreg → s.inflight = none →
    r < s.params.nvreg → w < s.params.vlen / 32 →
    let off := BitVec.ofNat 17 (0x1000 + r * (s.params.vlen / 8) + 4 * w)
    (∃ d, s.access (.read off .w32) = (s, some (.data d)) ∧
      ∀ b, b < 32 → d.getLsbD b = (s.vreg r).testBit (32 * w + b)) ∧
    ∃ t, s.access (.write off .w32 v) = (t, none) ∧ t = { s with vregs := t.vregs } ∧
      (∀ q, q ≠ r → t.vreg q = s.vreg q) ∧
      ∀ j, (t.vreg r).testBit j =
        if 32 * w ≤ j ∧ j < 32 * w + 32 then v.getLsbD (j - 32 * w) else (s.vreg r).testBit j

/-- While idle, the configuration and argument registers store the bits written, without their RES0 bits, and nothing
else changes (R39, R47 to R50, R52, R55). -/
def Obligations.ConfigurationWritesStoreTheirFields : Prop :=
  ∀ (s : State) (v : Word) (b : Nat), s.inflight = none → b < s.params.n0Max → s.params.n0Max ≤ 8 →
    s.access (.write 0x01C .w32 v) = ({ s with arg0 := v }, none) ∧
    s.access (.write 0x020 .w32 v) = ({ s with arg1 := v }, none) ∧
    s.access (.write 0x028 .w32 v) = ({ s with cfgP := v.extractLsb' 0 16 }, none) ∧
    s.access (.write 0x02C .w32 v) = ({ s with cfgN0 := v.extractLsb' 0 8 }, none) ∧
    s.access (.write 0x030 .w32 v) =
      ({ s with maxDraw := v.extractLsb' 0 16, maxTry := v.extractLsb' 16 16 }, none) ∧
    s.access (.write (BitVec.ofNat 17 (0x040 + 4 * b)) .w32 v) =
      ({ s with decShift := s.decShift.set b (v.extractLsb' 0 16) }, none)

/-- "A host write to STATUS changes only the W1C bits it writes as 1": DONE, OVERRUN, BUSY_ACC and RNG_OVF, busy or not,
and no other state (R46). -/
def Obligations.StatusWriteClearsOnlyItsOnes : Prop :=
  ∀ (s : State) (w : Word), ∃ t, s.access (.write 0x014 .w32 w) = (t, none) ∧
    t = { s with done := t.done, overrun := t.overrun, busyAcc := t.busyAcc, rngOvf := t.rngOvf } ∧
    ∃ before after : Word, s.access (.read 0x014 .w32) = (s, some (.data before)) ∧
      t.access (.read 0x014 .w32) = (t, some (.data after)) ∧ after = before &&& ~~~ (w &&& 0x0000001E)

/-- Every offset the map marks reserved, and every RES0 field, reads 0 and ignores writes: no side effect, no flag, busy
or not (R56, R40). A mask m holds the bits of a register that are not RES0. -/
def Obligations.ReservedBitsReadZeroAndIgnoreWrites : Prop :=
  ∀ (s : State) (off : BitVec 17) (v : Word), s.params.legal = true → off.toNat % 4 = 0 →
    (off.toNat = 0x00C ∨ off.toNat = 0x03C ∨ (0x040 + 4 * s.params.n0Max ≤ off.toNat ∧ off.toNat ≤ 0xFFF) ∨
        0x1000 + s.params.nvreg * (s.params.vlen / 8) ≤ off.toNat →
      s.access (.read off .w32) = (s, some (.data 0)) ∧ s.access (.write off .w32 v) = (s, none)) ∧
    ∀ m : Word,
      ((off, m) ∈ [((0x008, 0x00FFFFFF) : BitVec 17 × Word), (0x010, 0x00000007), (0x014, 0x00000F3F), (0x028, 0x0000FFFF),
          (0x02C, 0x000000FF), (0x038, 0x000000FF)] ∨
        (0x040 ≤ off.toNat ∧ off.toNat < 0x040 + 4 * s.params.n0Max ∧ m = 0x0000FFFF)) →
      (∃ d, s.access (.read off .w32) = (s, some (.data d)) ∧ d &&& ~~~m = 0) ∧
        s.access (.write off .w32 v) = s.access (.write off .w32 (v &&& m))

/-- What the registers read, busy or not, with no effect: ID, the build parameters in CAP0 and CAP1, STATUS bit by bit,
RES, the FIFO's level, and the RW registers their fields (R40 to R43, R46 to R52, R54, R55, R75). Writes to the read-only
ones, ID, CAP0, CAP1, RES and RNG_LEVEL, "are ignored and have no side effect", busy or not (R39). -/
def Obligations.RegistersReadTheirFields : Prop :=
  ∀ s : State, s.params.legal = true → s.fifo.length ≤ s.params.fifoDepth →
    s.access (.read 0x000 .w32) = (s, some (.data 0x47460007)) ∧
    (∃ d : Word, s.access (.read 0x004 .w32) = (s, some (.data d)) ∧ (d.extractLsb' 0 16).toNat = s.params.vlen ∧
      (d.extractLsb' 16 8).toNat = s.params.nvreg ∧ (d.extractLsb' 24 8).toNat = s.params.n0Max) ∧
    (∃ d : Word, s.access (.read 0x008 .w32) = (s, some (.data d)) ∧ d.extractLsb' 0 8 = 10 ∧ d.extractLsb' 8 8 = 5 ∧
      (d.extractLsb' 16 8).toNat = s.params.fifoDepth ∧ d.extractLsb' 24 8 = 0) ∧
    (∃ d : Word, s.access (.read 0x014 .w32) = (s, some (.data d)) ∧ d.getLsbD 0 = s.inflight.isSome ∧
      d.getLsbD 1 = s.done ∧ d.getLsbD 2 = s.overrun ∧ d.getLsbD 3 = s.busyAcc ∧ d.getLsbD 4 = s.rngOvf ∧
      d.getLsbD 5 = s.rngWait ∧ d.extractLsb' 6 2 = 0 ∧ d.extractLsb' 8 4 = s.err.code ∧ d.extractLsb' 12 20 = 0) ∧
    s.access (.read 0x024 .w32) = (s, some (.data s.res)) ∧
    (∃ d : Word, s.access (.read 0x038 .w32) = (s, some (.data d)) ∧ d.toNat = s.fifo.length) ∧
    (∀ v : Word, s.access (.write 0x000 .w32 v) = (s, none) ∧ s.access (.write 0x004 .w32 v) = (s, none) ∧
      s.access (.write 0x008 .w32 v) = (s, none) ∧ s.access (.write 0x024 .w32 v) = (s, none) ∧
      s.access (.write 0x038 .w32 v) = (s, none)) ∧
    s.access (.read 0x01C .w32) = (s, some (.data s.arg0)) ∧ s.access (.read 0x020 .w32) = (s, some (.data s.arg1)) ∧
    s.access (.read 0x028 .w32) = (s, some (.data (s.cfgP.setWidth 32))) ∧
    s.access (.read 0x02C .w32) = (s, some (.data (s.cfgN0.setWidth 32))) ∧
    s.access (.read 0x030 .w32) = (s, some (.data (s.maxTry ++ s.maxDraw))) ∧
    ∀ b, b < s.params.n0Max →
      s.access (.read (BitVec.ofNat 17 (0x040 + 4 * b)) .w32) = (s, some (.data ((s.decShift.getD b 0).setWidth 32)))

/-- RNG_DATA (R53, R37): a word is appended after the words already there, or dropped with RNG_OVF when the FIFO is
full, busy or not and whatever the source; reads return 0. Of the hold flag, only that no write raises it. -/
def Obligations.RngDataAppendsOrOverflows : Prop :=
  ∀ (s : State) (w : Word),
    (s.fifo.length < s.params.fifoDepth → ∃ t, s.access (.write 0x034 .w32 w) = (t, none) ∧
      t = { s with fifo := s.fifo ++ [w], rngWait := t.rngWait } ∧ (t.rngWait = true → s.rngWait = true)) ∧
    (s.params.fifoDepth ≤ s.fifo.length → s.access (.write 0x034 .w32 w) = ({ s with rngOvf := true }, none)) ∧
    s.access (.read 0x034 .w32) = (s, some (.data 0))

/-- No access of a bus master, at any bus address, but a soft reset changes what a running command reads: the command in
flight, its operands and its latched source (R131, R36, R76). The aperture is the 128 KiB from BASE (R70): an access
outside it does nothing and the engine does not answer it (log 10). -/
def Obligations.BusyAccessesKeepTheOperands : Prop :=
  ∀ (s : State) (x : Transfer), s.inflight ≠ none →
    (∀ v, x = .write (s.params.base + 0x010) .w32 v → v.getLsbD 2 = false) →
    let t := (s.transfer x).1
    (t.inflight = s.inflight ∧ t.vregs = s.vregs ∧ t.arg0 = s.arg0 ∧ t.arg1 = s.arg1 ∧ t.cfgP = s.cfgP ∧
      t.cfgN0 = s.cfgN0 ∧ t.maxDraw = s.maxDraw ∧ t.maxTry = s.maxTry ∧ t.decShift = s.decShift ∧
      t.params = s.params ∧ t.res = s.res ∧ t.err = s.err ∧ ∃ l, t.fifo = s.fifo ++ l) ∧
    ∀ address, (∃ width v, x = .read address width ∨ x = .write address width v) →
      address < s.params.base ∨ s.params.base + 0x20000 ≤ address → s.transfer x = (s, none)

/-- CTRL (R45): SRST performs the reset of R320 on every piece of engine state, busy or not, whatever the other bits;
without SRST a write stores IE and RNG_SRC only, busy or not; a read returns these two, and 0 in every other bit. -/
def Obligations.CtrlWriteResetsOrStores : Prop :=
  ∀ (s : State) (w : Word),
    (w.getLsbD 2 = true → s.access (.write 0x010 .w32 w) =
      ({ params := s.params
         vregs := List.replicate s.params.nvreg 0, decShift := List.replicate s.params.n0Max 1
         ie := false, rngSrc := false, done := false, overrun := false, busyAcc := false, rngOvf := false
         rngWait := false, err := .ok, cmdLast := 0, arg0 := 0, arg1 := 0, res := 0, cfgP := 0, cfgN0 := 2
         maxDraw := 0, maxTry := 256, fifo := [], inflight := none
         entropyNext := s.entropyNext, agenda := s.agenda, prog := s.prog, hostPc := s.hostPc
         replies := s.replies, otherReplies := s.otherReplies, powerDowns := s.powerDowns }, none)) ∧
    (w.getLsbD 2 = false →
      s.access (.write 0x010 .w32 w) = ({ s with ie := w.getLsbD 0, rngSrc := w.getLsbD 1 }, none)) ∧
    ∃ d : Word, s.access (.read 0x010 .w32) = (s, some (.data d)) ∧
      ∀ b, d.getLsbD b = if b = 0 then s.ie else if b = 1 then s.rngSrc else false

/-- The reads of every register, CAP0 and CAP1 with the build parameters among them, after the reset of R320, whatever
state and instance it meets: by the platform's reset, at any turn (that it is one turn is the model's choice, log 19), and
after any number of power-downs before it (R297; that each is one turn is the model's choice, log 16). -/
def Obligations.PlatformResetGivesTheResetValues : Prop :=
  ∀ (s : State) (n : Nat) (rest : List Turn), s.params.legal = true →
    s.agenda = List.replicate n .powerDown ++ .reset :: rest →
    ∃ t, core.run (n + 1) s = .next t ∧ t.agenda = rest ∧ t.irq = false ∧ (∀ r, t.vreg r = 0) ∧ t.fifo = [] ∧ t.inflight = none ∧
      (∀ off : BitVec 17, off.toNat % 4 = 0 → 0x00C ≤ off.toNat → t.access (.read off .w32) = (t, some (.data
        (if off.toNat = 0x02C then 0x00000002 else if off.toNat = 0x030 then 0x01000000
         else if 0x040 ≤ off.toNat ∧ off.toNat < 0x040 + 4 * s.params.n0Max then 0x00000001 else 0)))) ∧
      t.access (.read 0x000 .w32) = (t, some (.data 0x47460007)) ∧
      (∃ d : Word, t.access (.read 0x004 .w32) = (t, some (.data d)) ∧ (d.extractLsb' 0 16).toNat = s.params.vlen ∧
        (d.extractLsb' 16 8).toNat = s.params.nvreg ∧ (d.extractLsb' 24 8).toNat = s.params.n0Max) ∧
      (∃ d : Word, t.access (.read 0x008 .w32) = (t, some (.data d)) ∧ d.extractLsb' 0 8 = 10 ∧
        d.extractLsb' 8 8 = 5 ∧ (d.extractLsb' 16 8).toNat = s.params.fifoDepth ∧ d.extractLsb' 24 8 = 0) ∧
      t.params = s.params

/-! ## The host -/

/-- `vld vR, value` (R107): while idle, the VLEN/32 writes it stands for leave exactly the bits of the value in V[R]
and change nothing else. The agenda is empty, and the steps are the host's because the engine is idle: the model's own
choice (log 2). A value of more than VLEN bits loses its high bits, which R107 does not state (log 18). -/
def Obligations.VldLoadsTheRegister : Prop :=
  ∀ (s : State) (r value : Nat), s.params.legal = true → s.vregs.length = s.params.nvreg → s.inflight = none →
    r < s.params.nvreg →
    ∃ t, core.run (s.params.vlen / 32)
        { s with agenda := [], prog := assemble s.params [.vld r value], hostPc := 0 } = .next t ∧
      t = { s with
            agenda := [], prog := assemble s.params [.vld r value], hostPc := s.params.vlen / 32, vregs := t.vregs } ∧
      t.vreg r = value % 2 ^ s.params.vlen ∧ ∀ q, q ≠ r → t.vreg q = s.vreg q

/-- `wait` (R107): on its turn the host stays while BUSY = 1 and goes on when BUSY = 0, and the poll changes nothing in
the engine. That the host's program is data in the state is the model's own choice (log 3), and so is that what the poll
reads is not recorded, though R107 has `wait` repeat `rd STATUS` (log 17): `replies` stays as it was. -/
def Obligations.WaitPollsUntilIdle : Prop :=
  ∀ (s : State) (rest : List Turn), s.agenda = .host :: rest → s.prog[s.hostPc]? = some .wait →
    step s = .next { s with
      agenda := rest
      hostPc := if s.inflight = none then s.hostPc + 1 else s.hostPc }
end

