-- ==== Sys2Proof/Laws/Bits.lean ====
section
/-! SUPPORT. What each bit-vector helper does, bit by bit. -/

namespace Sys2Proof.Machine

theorem low_eq_mod (n v : Nat) : low n v = v % 2 ^ n := by
  rw [low, Nat.one_shiftLeft, Nat.and_two_pow_sub_one_eq_mod]

theorem low_lt (n v : Nat) : low n v < 2 ^ n := low_eq_mod n v ▸ Nat.mod_lt _ (Nat.two_pow_pos n)

@[simp] theorem testBit_low (n v i : Nat) : (low n v).testBit i = (decide (i < n) && v.testBit i) := by
  simp [low_eq_mod, Nat.testBit_mod_two_pow]

theorem low_of_lt {n v : Nat} (h : v < 2 ^ n) : low n v = v :=
  (low_eq_mod n v).trans (Nat.mod_eq_of_lt h)

@[simp] theorem low_low (n v : Nat) : low n (low n v) = low n v := low_of_lt (low_lt n v)

@[simp] theorem low_zero (n : Nat) : low n 0 = 0 := Nat.zero_and _

theorem testBit_one_shiftLeft (n i : Nat) : (1 <<< n).testBit i = decide (n = i) := by
  simp [Nat.one_shiftLeft, Nat.testBit_two_pow]

@[simp] theorem testBit_bitsOf (n : Nat) (f : Nat → Bool) (i : Nat) :
    (bitsOf n f).testBit i = (decide (i < n) && f i) := by
  induction n with
  | zero => simp [bitsOf]
  | succ n ih =>
    have hn : (if f n then 1 <<< n else 0).testBit i = (f n && decide (n = i)) := by
      cases hf : f n
      · simp
      · rw [if_pos rfl, testBit_one_shiftLeft]; rfl
    rw [bitsOf, Nat.testBit_or, ih, hn]
    rcases Nat.lt_trichotomy i n with h | rfl | h
    · have h2 : n ≠ i := by omega
      simp [h, Nat.lt_succ_of_lt h, h2]
    · simp
    · have h1 : ¬ i < n := by omega
      have h2 : ¬ i < n + 1 := by omega
      have h3 : n ≠ i := by omega
      simp [h1, h2, h3]

theorem bitsOf_lt (n : Nat) (f : Nat → Bool) : bitsOf n f < 2 ^ n :=
  Nat.lt_pow_two_of_testBit _ fun i hi => by simp [Nat.not_lt.mpr hi]

@[simp] theorem xorOver_zero (f : Nat → Nat) : xorOver 0 f = 0 := rfl

theorem xorOver_succ (n : Nat) (f : Nat → Nat) : xorOver (n + 1) f = xorOver n f ^^^ f n := rfl

/-- A bit of an XOR over i < n is set when an odd number of the terms have it. -/
theorem testBit_xorOver (n : Nat) (f : Nat → Nat) (j : Nat) :
    (xorOver n f).testBit j = decide ((List.range n).countP (fun i => (f i).testBit j) % 2 = 1) := by
  induction n with
  | zero => simp
  | succ n ih =>
    rw [xorOver_succ, Nat.testBit_xor, ih, List.range_succ, List.countP_append]
    cases h : (f n).testBit j
    · simp [h]
    · rcases Nat.mod_two_eq_zero_or_one ((List.range n).countP fun i => (f i).testBit j) with h2 | h2 <;>
        simp [h, h2, Nat.add_mod]

theorem xorOver_lt {n m : Nat} {f : Nat → Nat} (h : ∀ i, i < n → f i < 2 ^ m) : xorOver n f < 2 ^ m := by
  induction n with
  | zero => simp
  | succ n ih =>
    exact Nat.xor_lt_two_pow (ih fun i hi => h i (Nat.lt_succ_of_lt hi)) (h n (Nat.lt_succ_self n))

theorem xorOver_congr {n : Nat} {f g : Nat → Nat} (h : ∀ i, i < n → f i = g i) : xorOver n f = xorOver n g := by
  induction n with
  | zero => rfl
  | succ n ih => rw [xorOver_succ, xorOver_succ, ih fun i hi => h i (Nat.lt_succ_of_lt hi), h n (Nat.lt_succ_self n)]

/-- An XOR of sums is the sum of the XORs. -/
theorem xorOver_xor (n : Nat) (f g : Nat → Nat) :
    xorOver n (fun i => f i ^^^ g i) = xorOver n f ^^^ xorOver n g := by
  induction n with
  | zero => simp
  | succ n ih => simp only [xorOver_succ, ih]; ac_rfl

theorem popcount_eq_countP (n v : Nat) : popcount n v = (List.range n).countP fun i => v.testBit i := by
  induction n with
  | zero => rfl
  | succ n ih =>
    rw [popcount, ih, List.range_succ, List.countP_append]
    cases h : v.testBit n <;> simp [h]

theorem popcount_le (n v : Nat) : popcount n v ≤ n := by
  rw [popcount_eq_countP]; simpa using List.countP_le_length (l := List.range n) (p := fun i => v.testBit i)

theorem le_maxOver {n i : Nat} (f : Nat → Nat) (h : i < n) : f i ≤ maxOver n f := by
  induction n with
  | zero => omega
  | succ n ih =>
    rcases Nat.lt_or_eq_of_le (Nat.le_of_lt_succ h) with h2 | rfl
    · exact Nat.le_trans (ih h2) (Nat.le_max_left _ _)
    · exact Nat.le_max_right _ _

theorem maxOver_le {n b : Nat} (f : Nat → Nat) (h : ∀ i, i < n → f i ≤ b) : maxOver n f ≤ b := by
  induction n with
  | zero => exact Nat.zero_le _
  | succ n ih =>
    exact Nat.max_le.mpr ⟨ih fun i hi => h i (Nat.lt_succ_of_lt hi), h n (Nat.lt_succ_self n)⟩

theorem bitlen_eq_size (z : Nat) : bitlen z = z.size := by
  rcases Nat.eq_zero_or_pos z with rfl | h
  · rfl
  · have hz : z ≠ 0 := by omega
    rw [bitlen, if_neg hz]
    apply Nat.le_antisymm
    · exact Nat.lt_size.mpr (Nat.log2_self_le hz)
    · exact Nat.size_le.mpr Nat.lt_log2_self

end Sys2Proof.Machine
end

