-- ==== Sys2Proof/Laws/State.lean ====
section
/-! SUPPORT. One lemma per field of State and per shared update, so that no proof unfolds a record update. -/

namespace Sys2Proof.Machine

/-! ## One destination write -/

@[simp] theorem State.setVreg_params (s : State) (r : Nat) (v : Nat) : (s.setVreg r v).params = s.params := rfl
@[simp] theorem State.setVreg_vregs (s : State) (r : Nat) (v : Nat) :
    (s.setVreg r v).vregs = s.vregs.set r (low s.params.vlen v) := rfl
@[simp] theorem State.setVreg_ie (s : State) (r : Nat) (v : Nat) : (s.setVreg r v).ie = s.ie := rfl
@[simp] theorem State.setVreg_rngSrc (s : State) (r : Nat) (v : Nat) : (s.setVreg r v).rngSrc = s.rngSrc := rfl
@[simp] theorem State.setVreg_done (s : State) (r : Nat) (v : Nat) : (s.setVreg r v).done = s.done := rfl
@[simp] theorem State.setVreg_overrun (s : State) (r : Nat) (v : Nat) : (s.setVreg r v).overrun = s.overrun := rfl
@[simp] theorem State.setVreg_busyAcc (s : State) (r : Nat) (v : Nat) : (s.setVreg r v).busyAcc = s.busyAcc := rfl
@[simp] theorem State.setVreg_rngOvf (s : State) (r : Nat) (v : Nat) : (s.setVreg r v).rngOvf = s.rngOvf := rfl
@[simp] theorem State.setVreg_rngWait (s : State) (r : Nat) (v : Nat) : (s.setVreg r v).rngWait = s.rngWait := rfl
@[simp] theorem State.setVreg_err (s : State) (r : Nat) (v : Nat) : (s.setVreg r v).err = s.err := rfl
@[simp] theorem State.setVreg_cmdLast (s : State) (r : Nat) (v : Nat) : (s.setVreg r v).cmdLast = s.cmdLast := rfl
@[simp] theorem State.setVreg_arg0 (s : State) (r : Nat) (v : Nat) : (s.setVreg r v).arg0 = s.arg0 := rfl
@[simp] theorem State.setVreg_arg1 (s : State) (r : Nat) (v : Nat) : (s.setVreg r v).arg1 = s.arg1 := rfl
@[simp] theorem State.setVreg_res (s : State) (r : Nat) (v : Nat) : (s.setVreg r v).res = s.res := rfl
@[simp] theorem State.setVreg_cfgP (s : State) (r : Nat) (v : Nat) : (s.setVreg r v).cfgP = s.cfgP := rfl
@[simp] theorem State.setVreg_cfgN0 (s : State) (r : Nat) (v : Nat) : (s.setVreg r v).cfgN0 = s.cfgN0 := rfl
@[simp] theorem State.setVreg_maxDraw (s : State) (r : Nat) (v : Nat) : (s.setVreg r v).maxDraw = s.maxDraw := rfl
@[simp] theorem State.setVreg_maxTry (s : State) (r : Nat) (v : Nat) : (s.setVreg r v).maxTry = s.maxTry := rfl
@[simp] theorem State.setVreg_decShift (s : State) (r : Nat) (v : Nat) : (s.setVreg r v).decShift = s.decShift := rfl
@[simp] theorem State.setVreg_fifo (s : State) (r : Nat) (v : Nat) : (s.setVreg r v).fifo = s.fifo := rfl
@[simp] theorem State.setVreg_inflight (s : State) (r : Nat) (v : Nat) : (s.setVreg r v).inflight = s.inflight := rfl
@[simp] theorem State.setVreg_entropyNext (s : State) (r : Nat) (v : Nat) : (s.setVreg r v).entropyNext = s.entropyNext := rfl
@[simp] theorem State.setVreg_agenda (s : State) (r : Nat) (v : Nat) : (s.setVreg r v).agenda = s.agenda := rfl
@[simp] theorem State.setVreg_prog (s : State) (r : Nat) (v : Nat) : (s.setVreg r v).prog = s.prog := rfl
@[simp] theorem State.setVreg_hostPc (s : State) (r : Nat) (v : Nat) : (s.setVreg r v).hostPc = s.hostPc := rfl
@[simp] theorem State.setVreg_replies (s : State) (r : Nat) (v : Nat) : (s.setVreg r v).replies = s.replies := rfl
@[simp] theorem State.setVreg_otherReplies (s : State) (r : Nat) (v : Nat) : (s.setVreg r v).otherReplies = s.otherReplies := rfl
@[simp] theorem State.setVreg_powerDowns (s : State) (r : Nat) (v : Nat) : (s.setVreg r v).powerDowns = s.powerDowns := rfl

/-! ## A list of destination writes -/

@[simp] theorem State.setVregs_nil (s : State) : s.setVregs [] = s := rfl

@[simp] theorem State.setVregs_cons (s : State) (r : Nat) (v : Nat) (rest : List (Nat × Nat)) :
    s.setVregs ((r, v) :: rest) = (s.setVreg r v).setVregs rest := rfl

/-- Destination writes change the vector registers and nothing else. -/
theorem State.setVregs_eq (s : State) (d : List (Nat × Nat)) :
    s.setVregs d = { s with vregs := (s.setVregs d).vregs } := by
  induction d generalizing s with
  | nil => rfl
  | cons w rest ih => rw [State.setVregs_cons, ih]; rfl

@[simp] theorem State.setVregs_params (s : State) (d : List (Nat × Nat)) : (s.setVregs d).params = s.params := by
  rw [s.setVregs_eq d]
@[simp] theorem State.setVregs_ie (s : State) (d : List (Nat × Nat)) : (s.setVregs d).ie = s.ie := by
  rw [s.setVregs_eq d]
@[simp] theorem State.setVregs_rngSrc (s : State) (d : List (Nat × Nat)) : (s.setVregs d).rngSrc = s.rngSrc := by
  rw [s.setVregs_eq d]
@[simp] theorem State.setVregs_done (s : State) (d : List (Nat × Nat)) : (s.setVregs d).done = s.done := by
  rw [s.setVregs_eq d]
@[simp] theorem State.setVregs_overrun (s : State) (d : List (Nat × Nat)) : (s.setVregs d).overrun = s.overrun := by
  rw [s.setVregs_eq d]
@[simp] theorem State.setVregs_busyAcc (s : State) (d : List (Nat × Nat)) : (s.setVregs d).busyAcc = s.busyAcc := by
  rw [s.setVregs_eq d]
@[simp] theorem State.setVregs_rngOvf (s : State) (d : List (Nat × Nat)) : (s.setVregs d).rngOvf = s.rngOvf := by
  rw [s.setVregs_eq d]
@[simp] theorem State.setVregs_rngWait (s : State) (d : List (Nat × Nat)) : (s.setVregs d).rngWait = s.rngWait := by
  rw [s.setVregs_eq d]
@[simp] theorem State.setVregs_err (s : State) (d : List (Nat × Nat)) : (s.setVregs d).err = s.err := by
  rw [s.setVregs_eq d]
@[simp] theorem State.setVregs_cmdLast (s : State) (d : List (Nat × Nat)) : (s.setVregs d).cmdLast = s.cmdLast := by
  rw [s.setVregs_eq d]
@[simp] theorem State.setVregs_arg0 (s : State) (d : List (Nat × Nat)) : (s.setVregs d).arg0 = s.arg0 := by
  rw [s.setVregs_eq d]
@[simp] theorem State.setVregs_arg1 (s : State) (d : List (Nat × Nat)) : (s.setVregs d).arg1 = s.arg1 := by
  rw [s.setVregs_eq d]
@[simp] theorem State.setVregs_res (s : State) (d : List (Nat × Nat)) : (s.setVregs d).res = s.res := by
  rw [s.setVregs_eq d]
@[simp] theorem State.setVregs_cfgP (s : State) (d : List (Nat × Nat)) : (s.setVregs d).cfgP = s.cfgP := by
  rw [s.setVregs_eq d]
@[simp] theorem State.setVregs_cfgN0 (s : State) (d : List (Nat × Nat)) : (s.setVregs d).cfgN0 = s.cfgN0 := by
  rw [s.setVregs_eq d]
@[simp] theorem State.setVregs_maxDraw (s : State) (d : List (Nat × Nat)) : (s.setVregs d).maxDraw = s.maxDraw := by
  rw [s.setVregs_eq d]
@[simp] theorem State.setVregs_maxTry (s : State) (d : List (Nat × Nat)) : (s.setVregs d).maxTry = s.maxTry := by
  rw [s.setVregs_eq d]
@[simp] theorem State.setVregs_decShift (s : State) (d : List (Nat × Nat)) : (s.setVregs d).decShift = s.decShift := by
  rw [s.setVregs_eq d]
@[simp] theorem State.setVregs_fifo (s : State) (d : List (Nat × Nat)) : (s.setVregs d).fifo = s.fifo := by
  rw [s.setVregs_eq d]
@[simp] theorem State.setVregs_inflight (s : State) (d : List (Nat × Nat)) : (s.setVregs d).inflight = s.inflight := by
  rw [s.setVregs_eq d]
@[simp] theorem State.setVregs_entropyNext (s : State) (d : List (Nat × Nat)) : (s.setVregs d).entropyNext = s.entropyNext := by
  rw [s.setVregs_eq d]
@[simp] theorem State.setVregs_agenda (s : State) (d : List (Nat × Nat)) : (s.setVregs d).agenda = s.agenda := by
  rw [s.setVregs_eq d]
@[simp] theorem State.setVregs_prog (s : State) (d : List (Nat × Nat)) : (s.setVregs d).prog = s.prog := by
  rw [s.setVregs_eq d]
@[simp] theorem State.setVregs_hostPc (s : State) (d : List (Nat × Nat)) : (s.setVregs d).hostPc = s.hostPc := by
  rw [s.setVregs_eq d]
@[simp] theorem State.setVregs_replies (s : State) (d : List (Nat × Nat)) : (s.setVregs d).replies = s.replies := by
  rw [s.setVregs_eq d]
@[simp] theorem State.setVregs_otherReplies (s : State) (d : List (Nat × Nat)) : (s.setVregs d).otherReplies = s.otherReplies := by
  rw [s.setVregs_eq d]
@[simp] theorem State.setVregs_powerDowns (s : State) (d : List (Nat × Nat)) : (s.setVregs d).powerDowns = s.powerDowns := by
  rw [s.setVregs_eq d]

/-! ## Completion -/

@[simp] theorem State.complete_params (s : State) (code : ErrCode) (res : Word) (d : List (Nat × Nat)) :
    (s.complete code res d).params = s.params := by simp [State.complete]
@[simp] theorem State.complete_vregs (s : State) (code : ErrCode) (res : Word) (d : List (Nat × Nat)) :
    (s.complete code res d).vregs = (s.setVregs d).vregs := rfl
@[simp] theorem State.complete_ie (s : State) (code : ErrCode) (res : Word) (d : List (Nat × Nat)) :
    (s.complete code res d).ie = s.ie := by simp [State.complete]
@[simp] theorem State.complete_rngSrc (s : State) (code : ErrCode) (res : Word) (d : List (Nat × Nat)) :
    (s.complete code res d).rngSrc = s.rngSrc := by simp [State.complete]
@[simp] theorem State.complete_done (s : State) (code : ErrCode) (res : Word) (d : List (Nat × Nat)) :
    (s.complete code res d).done = true := rfl
@[simp] theorem State.complete_overrun (s : State) (code : ErrCode) (res : Word) (d : List (Nat × Nat)) :
    (s.complete code res d).overrun = s.overrun := by simp [State.complete]
@[simp] theorem State.complete_busyAcc (s : State) (code : ErrCode) (res : Word) (d : List (Nat × Nat)) :
    (s.complete code res d).busyAcc = s.busyAcc := by simp [State.complete]
@[simp] theorem State.complete_rngOvf (s : State) (code : ErrCode) (res : Word) (d : List (Nat × Nat)) :
    (s.complete code res d).rngOvf = s.rngOvf := by simp [State.complete]
@[simp] theorem State.complete_rngWait (s : State) (code : ErrCode) (res : Word) (d : List (Nat × Nat)) :
    (s.complete code res d).rngWait = s.rngWait := by simp [State.complete]
@[simp] theorem State.complete_err (s : State) (code : ErrCode) (res : Word) (d : List (Nat × Nat)) :
    (s.complete code res d).err = code := rfl
@[simp] theorem State.complete_cmdLast (s : State) (code : ErrCode) (res : Word) (d : List (Nat × Nat)) :
    (s.complete code res d).cmdLast = s.cmdLast := by simp [State.complete]
@[simp] theorem State.complete_arg0 (s : State) (code : ErrCode) (res : Word) (d : List (Nat × Nat)) :
    (s.complete code res d).arg0 = s.arg0 := by simp [State.complete]
@[simp] theorem State.complete_arg1 (s : State) (code : ErrCode) (res : Word) (d : List (Nat × Nat)) :
    (s.complete code res d).arg1 = s.arg1 := by simp [State.complete]
@[simp] theorem State.complete_res (s : State) (code : ErrCode) (res : Word) (d : List (Nat × Nat)) :
    (s.complete code res d).res = res := rfl
@[simp] theorem State.complete_cfgP (s : State) (code : ErrCode) (res : Word) (d : List (Nat × Nat)) :
    (s.complete code res d).cfgP = s.cfgP := by simp [State.complete]
@[simp] theorem State.complete_cfgN0 (s : State) (code : ErrCode) (res : Word) (d : List (Nat × Nat)) :
    (s.complete code res d).cfgN0 = s.cfgN0 := by simp [State.complete]
@[simp] theorem State.complete_maxDraw (s : State) (code : ErrCode) (res : Word) (d : List (Nat × Nat)) :
    (s.complete code res d).maxDraw = s.maxDraw := by simp [State.complete]
@[simp] theorem State.complete_maxTry (s : State) (code : ErrCode) (res : Word) (d : List (Nat × Nat)) :
    (s.complete code res d).maxTry = s.maxTry := by simp [State.complete]
@[simp] theorem State.complete_decShift (s : State) (code : ErrCode) (res : Word) (d : List (Nat × Nat)) :
    (s.complete code res d).decShift = s.decShift := by simp [State.complete]
@[simp] theorem State.complete_fifo (s : State) (code : ErrCode) (res : Word) (d : List (Nat × Nat)) :
    (s.complete code res d).fifo = s.fifo := by simp [State.complete]
@[simp] theorem State.complete_inflight (s : State) (code : ErrCode) (res : Word) (d : List (Nat × Nat)) :
    (s.complete code res d).inflight = none := rfl
@[simp] theorem State.complete_entropyNext (s : State) (code : ErrCode) (res : Word) (d : List (Nat × Nat)) :
    (s.complete code res d).entropyNext = s.entropyNext := by simp [State.complete]
@[simp] theorem State.complete_agenda (s : State) (code : ErrCode) (res : Word) (d : List (Nat × Nat)) :
    (s.complete code res d).agenda = s.agenda := by simp [State.complete]
@[simp] theorem State.complete_prog (s : State) (code : ErrCode) (res : Word) (d : List (Nat × Nat)) :
    (s.complete code res d).prog = s.prog := by simp [State.complete]
@[simp] theorem State.complete_hostPc (s : State) (code : ErrCode) (res : Word) (d : List (Nat × Nat)) :
    (s.complete code res d).hostPc = s.hostPc := by simp [State.complete]
@[simp] theorem State.complete_replies (s : State) (code : ErrCode) (res : Word) (d : List (Nat × Nat)) :
    (s.complete code res d).replies = s.replies := by simp [State.complete]
@[simp] theorem State.complete_otherReplies (s : State) (code : ErrCode) (res : Word) (d : List (Nat × Nat)) :
    (s.complete code res d).otherReplies = s.otherReplies := by simp [State.complete]
@[simp] theorem State.complete_powerDowns (s : State) (code : ErrCode) (res : Word) (d : List (Nat × Nat)) :
    (s.complete code res d).powerDowns = s.powerDowns := by simp [State.complete]

/-! ## Completion with an error -/

@[simp] theorem State.raise_params (s : State) (code : ErrCode) (res : Word) : (s.raise code res).params = s.params := rfl
@[simp] theorem State.raise_vregs (s : State) (code : ErrCode) (res : Word) : (s.raise code res).vregs = s.vregs := rfl
@[simp] theorem State.raise_ie (s : State) (code : ErrCode) (res : Word) : (s.raise code res).ie = s.ie := rfl
@[simp] theorem State.raise_rngSrc (s : State) (code : ErrCode) (res : Word) : (s.raise code res).rngSrc = s.rngSrc := rfl
@[simp] theorem State.raise_done (s : State) (code : ErrCode) (res : Word) : (s.raise code res).done = true := rfl
@[simp] theorem State.raise_overrun (s : State) (code : ErrCode) (res : Word) : (s.raise code res).overrun = s.overrun := rfl
@[simp] theorem State.raise_busyAcc (s : State) (code : ErrCode) (res : Word) : (s.raise code res).busyAcc = s.busyAcc := rfl
@[simp] theorem State.raise_rngOvf (s : State) (code : ErrCode) (res : Word) : (s.raise code res).rngOvf = s.rngOvf := rfl
@[simp] theorem State.raise_rngWait (s : State) (code : ErrCode) (res : Word) : (s.raise code res).rngWait = s.rngWait := rfl
@[simp] theorem State.raise_err (s : State) (code : ErrCode) (res : Word) : (s.raise code res).err = code := rfl
@[simp] theorem State.raise_cmdLast (s : State) (code : ErrCode) (res : Word) : (s.raise code res).cmdLast = s.cmdLast := rfl
@[simp] theorem State.raise_arg0 (s : State) (code : ErrCode) (res : Word) : (s.raise code res).arg0 = s.arg0 := rfl
@[simp] theorem State.raise_arg1 (s : State) (code : ErrCode) (res : Word) : (s.raise code res).arg1 = s.arg1 := rfl
@[simp] theorem State.raise_res (s : State) (code : ErrCode) (res : Word) : (s.raise code res).res = res := rfl
@[simp] theorem State.raise_cfgP (s : State) (code : ErrCode) (res : Word) : (s.raise code res).cfgP = s.cfgP := rfl
@[simp] theorem State.raise_cfgN0 (s : State) (code : ErrCode) (res : Word) : (s.raise code res).cfgN0 = s.cfgN0 := rfl
@[simp] theorem State.raise_maxDraw (s : State) (code : ErrCode) (res : Word) : (s.raise code res).maxDraw = s.maxDraw := rfl
@[simp] theorem State.raise_maxTry (s : State) (code : ErrCode) (res : Word) : (s.raise code res).maxTry = s.maxTry := rfl
@[simp] theorem State.raise_decShift (s : State) (code : ErrCode) (res : Word) : (s.raise code res).decShift = s.decShift := rfl
@[simp] theorem State.raise_fifo (s : State) (code : ErrCode) (res : Word) : (s.raise code res).fifo = s.fifo := rfl
@[simp] theorem State.raise_inflight (s : State) (code : ErrCode) (res : Word) : (s.raise code res).inflight = none := rfl
@[simp] theorem State.raise_entropyNext (s : State) (code : ErrCode) (res : Word) : (s.raise code res).entropyNext = s.entropyNext := rfl
@[simp] theorem State.raise_agenda (s : State) (code : ErrCode) (res : Word) : (s.raise code res).agenda = s.agenda := rfl
@[simp] theorem State.raise_prog (s : State) (code : ErrCode) (res : Word) : (s.raise code res).prog = s.prog := rfl
@[simp] theorem State.raise_hostPc (s : State) (code : ErrCode) (res : Word) : (s.raise code res).hostPc = s.hostPc := rfl
@[simp] theorem State.raise_replies (s : State) (code : ErrCode) (res : Word) : (s.raise code res).replies = s.replies := rfl
@[simp] theorem State.raise_otherReplies (s : State) (code : ErrCode) (res : Word) : (s.raise code res).otherReplies = s.otherReplies := rfl
@[simp] theorem State.raise_powerDowns (s : State) (code : ErrCode) (res : Word) : (s.raise code res).powerDowns = s.powerDowns := rfl

/-! ## Acceptance -/

@[simp] theorem State.accept_params (s : State) (w : Word) : (s.accept w).params = s.params := rfl
@[simp] theorem State.accept_vregs (s : State) (w : Word) : (s.accept w).vregs = s.vregs := rfl
@[simp] theorem State.accept_ie (s : State) (w : Word) : (s.accept w).ie = s.ie := rfl
@[simp] theorem State.accept_rngSrc (s : State) (w : Word) : (s.accept w).rngSrc = s.rngSrc := rfl
@[simp] theorem State.accept_done (s : State) (w : Word) : (s.accept w).done = false := rfl
@[simp] theorem State.accept_overrun (s : State) (w : Word) : (s.accept w).overrun = s.overrun := rfl
@[simp] theorem State.accept_busyAcc (s : State) (w : Word) : (s.accept w).busyAcc = s.busyAcc := rfl
@[simp] theorem State.accept_rngOvf (s : State) (w : Word) : (s.accept w).rngOvf = s.rngOvf := rfl
@[simp] theorem State.accept_rngWait (s : State) (w : Word) : (s.accept w).rngWait = s.rngWait := rfl
@[simp] theorem State.accept_err (s : State) (w : Word) : (s.accept w).err = .ok := rfl
@[simp] theorem State.accept_cmdLast (s : State) (w : Word) : (s.accept w).cmdLast = w := rfl
@[simp] theorem State.accept_arg0 (s : State) (w : Word) : (s.accept w).arg0 = s.arg0 := rfl
@[simp] theorem State.accept_arg1 (s : State) (w : Word) : (s.accept w).arg1 = s.arg1 := rfl
@[simp] theorem State.accept_res (s : State) (w : Word) : (s.accept w).res = s.res := rfl
@[simp] theorem State.accept_cfgP (s : State) (w : Word) : (s.accept w).cfgP = s.cfgP := rfl
@[simp] theorem State.accept_cfgN0 (s : State) (w : Word) : (s.accept w).cfgN0 = s.cfgN0 := rfl
@[simp] theorem State.accept_maxDraw (s : State) (w : Word) : (s.accept w).maxDraw = s.maxDraw := rfl
@[simp] theorem State.accept_maxTry (s : State) (w : Word) : (s.accept w).maxTry = s.maxTry := rfl
@[simp] theorem State.accept_decShift (s : State) (w : Word) : (s.accept w).decShift = s.decShift := rfl
@[simp] theorem State.accept_fifo (s : State) (w : Word) : (s.accept w).fifo = s.fifo := rfl
@[simp] theorem State.accept_inflight (s : State) (w : Word) :
    (s.accept w).inflight = some { word := w, rngSrc := s.rngSrc, progress := .fresh } := rfl
@[simp] theorem State.accept_entropyNext (s : State) (w : Word) : (s.accept w).entropyNext = s.entropyNext := rfl
@[simp] theorem State.accept_agenda (s : State) (w : Word) : (s.accept w).agenda = s.agenda := rfl
@[simp] theorem State.accept_prog (s : State) (w : Word) : (s.accept w).prog = s.prog := rfl
@[simp] theorem State.accept_hostPc (s : State) (w : Word) : (s.accept w).hostPc = s.hostPc := rfl
@[simp] theorem State.accept_replies (s : State) (w : Word) : (s.accept w).replies = s.replies := rfl
@[simp] theorem State.accept_otherReplies (s : State) (w : Word) : (s.accept w).otherReplies = s.otherReplies := rfl
@[simp] theorem State.accept_powerDowns (s : State) (w : Word) : (s.accept w).powerDowns = s.powerDowns := rfl

/-! ## Reset -/

@[simp] theorem State.engineReset_params (s : State) : s.engineReset.params = s.params := rfl
@[simp] theorem State.engineReset_vregs (s : State) : s.engineReset.vregs = List.replicate s.params.nvreg 0 := rfl
@[simp] theorem State.engineReset_ie (s : State) : s.engineReset.ie = false := rfl
@[simp] theorem State.engineReset_rngSrc (s : State) : s.engineReset.rngSrc = false := rfl
@[simp] theorem State.engineReset_done (s : State) : s.engineReset.done = false := rfl
@[simp] theorem State.engineReset_overrun (s : State) : s.engineReset.overrun = false := rfl
@[simp] theorem State.engineReset_busyAcc (s : State) : s.engineReset.busyAcc = false := rfl
@[simp] theorem State.engineReset_rngOvf (s : State) : s.engineReset.rngOvf = false := rfl
@[simp] theorem State.engineReset_rngWait (s : State) : s.engineReset.rngWait = false := rfl
@[simp] theorem State.engineReset_err (s : State) : s.engineReset.err = .ok := rfl
@[simp] theorem State.engineReset_cmdLast (s : State) : s.engineReset.cmdLast = 0 := rfl
@[simp] theorem State.engineReset_arg0 (s : State) : s.engineReset.arg0 = 0 := rfl
@[simp] theorem State.engineReset_arg1 (s : State) : s.engineReset.arg1 = 0 := rfl
@[simp] theorem State.engineReset_res (s : State) : s.engineReset.res = 0 := rfl
@[simp] theorem State.engineReset_cfgP (s : State) : s.engineReset.cfgP = 0 := rfl
@[simp] theorem State.engineReset_cfgN0 (s : State) : s.engineReset.cfgN0 = 2 := rfl
@[simp] theorem State.engineReset_maxDraw (s : State) : s.engineReset.maxDraw = 0 := rfl
@[simp] theorem State.engineReset_maxTry (s : State) : s.engineReset.maxTry = 256 := rfl
@[simp] theorem State.engineReset_decShift (s : State) : s.engineReset.decShift = List.replicate s.params.n0Max 1 := rfl
@[simp] theorem State.engineReset_fifo (s : State) : s.engineReset.fifo = [] := rfl
@[simp] theorem State.engineReset_inflight (s : State) : s.engineReset.inflight = none := rfl
@[simp] theorem State.engineReset_entropyNext (s : State) : s.engineReset.entropyNext = s.entropyNext := rfl
@[simp] theorem State.engineReset_agenda (s : State) : s.engineReset.agenda = s.agenda := rfl
@[simp] theorem State.engineReset_prog (s : State) : s.engineReset.prog = s.prog := rfl
@[simp] theorem State.engineReset_hostPc (s : State) : s.engineReset.hostPc = s.hostPc := rfl
@[simp] theorem State.engineReset_replies (s : State) : s.engineReset.replies = s.replies := rfl
@[simp] theorem State.engineReset_otherReplies (s : State) : s.engineReset.otherReplies = s.otherReplies := rfl
@[simp] theorem State.engineReset_powerDowns (s : State) : s.engineReset.powerDowns = s.powerDowns := rfl

/-! ## Power-down -/

@[simp] theorem State.powerDown_params (s : State) : s.powerDown.params = s.params := rfl
@[simp] theorem State.powerDown_entropyNext (s : State) : s.powerDown.entropyNext = s.entropyNext := rfl
@[simp] theorem State.powerDown_agenda (s : State) : s.powerDown.agenda = s.agenda := rfl
@[simp] theorem State.powerDown_prog (s : State) : s.powerDown.prog = s.prog := rfl
@[simp] theorem State.powerDown_hostPc (s : State) : s.powerDown.hostPc = s.hostPc := rfl
@[simp] theorem State.powerDown_replies (s : State) : s.powerDown.replies = s.replies := rfl
@[simp] theorem State.powerDown_otherReplies (s : State) : s.powerDown.otherReplies = s.otherReplies := rfl
@[simp] theorem State.powerDown_powerDowns (s : State) : s.powerDown.powerDowns = s.powerDowns + 1 := rfl

@[simp] theorem State.powerDown_vregs_length (s : State) : s.powerDown.vregs.length = s.params.nvreg := by
  simp [State.powerDown]

@[simp] theorem State.powerDown_decShift_length (s : State) : s.powerDown.decShift.length = s.params.n0Max := by
  simp [State.powerDown]

theorem State.powerDown_fifo_length_le (s : State) : s.powerDown.fifo.length ≤ s.params.fifoDepth := by
  simp [State.powerDown]

/-- A reset after a power-down leaves what a reset alone leaves, but for the count (60_exceptions.md R297). -/
theorem State.engineReset_powerDown (s : State) :
    s.powerDown.engineReset = { s.engineReset with powerDowns := s.powerDowns + 1 } := rfl

/-! ## BUSY -/

@[simp] theorem State.setVregs_busy (s : State) (d : List (Nat × Nat)) : (s.setVregs d).busy = s.busy := by
  simp [State.busy]

@[simp] theorem State.complete_busy (s : State) (code : ErrCode) (res : Word) (d : List (Nat × Nat)) :
    (s.complete code res d).busy = false := rfl

@[simp] theorem State.raise_busy (s : State) (code : ErrCode) (res : Word) : (s.raise code res).busy = false := rfl

@[simp] theorem State.accept_busy (s : State) (w : Word) : (s.accept w).busy = true := rfl

@[simp] theorem State.engineReset_busy (s : State) : s.engineReset.busy = false := rfl

end Sys2Proof.Machine
end

