-- ==== Sys2Proof/Laws/Operands.lean ====
section
/-! SUPPORT. What reading and writing vector registers and blocks does. -/

namespace Sys2Proof.Machine

theorem State.vreg_lt (s : State) (r : Nat) : s.vreg r < 2 ^ s.params.vlen := low_lt _ _

theorem State.poly_lt (s : State) (r : Nat) : s.poly r < 2 ^ s.P := low_lt _ _

@[simp] theorem State.low_vreg (s : State) (r : Nat) : low s.params.vlen (s.vreg r) = s.vreg r :=
  low_of_lt (s.vreg_lt r)

/-- A vector register is a function of the register file and VLEN. -/
theorem State.vreg_congr {s t : State} (hp : t.params = s.params) (hv : t.vregs = s.vregs) (r : Nat) :
    t.vreg r = s.vreg r := by
  unfold State.vreg; rw [hp, hv]

/-- A register holds the VLEN bits last written to it. -/
theorem State.setVreg_vreg_self {s : State} {r : Nat} (h : r < s.vregs.length) (v : Nat) :
    (s.setVreg r v).vreg r = low s.params.vlen v := by
  simp [State.vreg, h]

/-- A write leaves every other register alone. -/
theorem State.setVreg_vreg_of_ne {s : State} {r q : Nat} (h : q ≠ r) (v : Nat) : (s.setVreg r v).vreg q = s.vreg q := by
  simp [State.vreg, List.getD_eq_getElem?_getD, List.getElem?_set_ne (Ne.symm h)]

@[simp] theorem State.setVreg_length (s : State) (r : Nat) (v : Nat) : (s.setVreg r v).vregs.length = s.vregs.length := by
  simp

theorem State.setVregs_length (s : State) (d : List (Nat × Nat)) : (s.setVregs d).vregs.length = s.vregs.length := by
  induction d generalizing s with
  | nil => rfl
  | cons w rest ih => rw [State.setVregs_cons, ih, State.setVreg_length]

/-- Destination writes leave every register alone that none of them names. -/
theorem State.setVregs_vreg_of_not_mem {s : State} {d : List (Nat × Nat)} {q : Nat} (h : q ∉ d.map Prod.fst) :
    (s.setVregs d).vreg q = s.vreg q := by
  induction d generalizing s with
  | nil => rfl
  | cons w rest ih =>
    simp only [List.map_cons, List.mem_cons, not_or] at h
    rw [State.setVregs_cons, ih h.2, State.setVreg_vreg_of_ne h.1]

/-- With destinations that differ, each register holds the VLEN bits written to it. -/
theorem State.setVregs_vreg_of_mem {s : State} {d : List (Nat × Nat)} {q : Nat} {v : Nat}
    (hd : (d.map Prod.fst).Nodup) (hm : (q, v) ∈ d) (hq : q < s.vregs.length) :
    (s.setVregs d).vreg q = low s.params.vlen v := by
  induction d generalizing s with
  | nil => cases hm
  | cons w rest ih =>
    rw [List.map_cons, List.nodup_cons] at hd
    rw [State.setVregs_cons]
    rcases List.mem_cons.mp hm with rfl | hm
    · rw [State.setVregs_vreg_of_not_mem hd.1, State.setVreg_vreg_self hq]
    · rw [ih hd.2 hm (by simpa using hq), State.setVreg_params]

/-- Every register stays VLEN bits wide. -/
theorem State.setVregs_width {s : State} (h : ∀ v ∈ s.vregs, v < 2 ^ s.params.vlen) (d : List (Nat × Nat)) :
    ∀ v ∈ (s.setVregs d).vregs, v < 2 ^ s.params.vlen := by
  induction d generalizing s with
  | nil => exact h
  | cons w rest ih =>
    refine ih (s := s.setVreg w.1 w.2) fun v hv => ?_
    rcases List.mem_or_eq_of_mem_set hv with hv | rfl
    · exact h v hv
    · exact low_lt _ _

@[simp] theorem State.complete_vreg (s : State) (code : ErrCode) (res : Word) (d : List (Nat × Nat)) (r : Nat) :
    (s.complete code res d).vreg r = (s.setVregs d).vreg r :=
  State.vreg_congr (by simp) (by simp) r

@[simp] theorem State.raise_vreg (s : State) (code : ErrCode) (res : Word) (r : Nat) :
    (s.raise code res).vreg r = s.vreg r := rfl

@[simp] theorem State.accept_vreg (s : State) (w : Word) (r : Nat) : (s.accept w).vreg r = s.vreg r := rfl

theorem State.testBit_poly (s : State) (r : Nat) (i : Nat) :
    (s.poly r).testBit i = (decide (i < s.P) && (s.vreg r).testBit i) := testBit_low _ _ _

/-- Bit q of a block word is bit (q mod P) of register r + (q div P) (44_decoder.md R250). -/
theorem State.testBit_blockWord (s : State) (r : Nat) (q : Nat) :
    (s.blockWord r).testBit q = (decide (q < s.n0 * s.P) && (s.vreg (r + q / s.P)).testBit (q % s.P)) :=
  testBit_bitsOf _ _ _

theorem State.blockWrites_fst (s : State) (r : Nat) (x : Nat) :
    (s.blockWrites r x).map Prod.fst = (List.range s.n0).map (r + ·) := by
  simp [State.blockWrites, Function.comp_def]

/-- Writing an N-bit word to a block writes block b of it to register r + b, and 0 above P (R250, R140). -/
theorem State.setVregs_blockWrites {s : State} {r : Nat} {b : Nat} (x : Nat) (hb : b < s.n0)
    (hr : r + b < s.vregs.length) (hP : s.P ≤ s.params.vlen) :
    (s.setVregs (s.blockWrites r x)).vreg (r + b) = low s.P (x >>> (b * s.P)) := by
  rw [State.setVregs_vreg_of_mem (v := low s.P (x >>> (b * s.P))) ?_ ?_ hr]
  · exact low_of_lt (Nat.lt_of_lt_of_le (low_lt _ _) (Nat.pow_le_pow_right (by decide) hP))
  · rw [State.blockWrites_fst]
    exact List.Nodup.map (fun a b h => Nat.add_left_cancel h) List.nodup_range
  · exact List.mem_map.mpr ⟨b, List.mem_range.mpr hb, rfl⟩

end Sys2Proof.Machine
end

