-- ==== Sys2Proof/Laws/Bus.lean ====
section
/-! SUPPORT. What a bus access can do, said once; and which offset names which register. -/

namespace Sys2Proof.Machine

/-! ## Where the offsets lead -/

/-- From 0x040 on only the decoder's shifts and the window are named (10_state.md R40, 20_memory.md R73). -/
theorem locate_above (p : Params) {off : Nat} (h : 0x040 ≤ off) :
    locate p off =
      if off < 0x040 + 4 * p.n0Max then .decShift ((off - 0x040) / 4)
      else if 0x1000 ≤ off ∧ off < 0x1000 + p.nvreg * p.vregBytes then
        .window ((off - 0x1000) / p.vregBytes) ((off - 0x1000) % p.vregBytes / 4)
      else .reserved := by
  have named : ∀ k, k < 0x040 → (off = k ↔ False) := fun k hk => iff_false_intro (by omega)
  simp [locate, named, h]

/-- Word w of vector register r is at 0x1000 + r·(VLEN/8) + 4·w (20_memory.md R73). -/
theorem locate_window {p : Params} {r w : Nat} (hv : p.vlen % 32 = 0) (hr : r < p.nvreg) (hw : w < p.vlen / 32)
    (hshift : p.n0Max ≤ 8) : locate p (0x1000 + r * p.vregBytes + 4 * w) = .window r w := by
  have hb : p.vregBytes = 4 * (p.vlen / 32) := by unfold Params.vregBytes; omega
  have hw4 : 4 * w < p.vregBytes := by omega
  have hle : r * p.vregBytes + p.vregBytes ≤ p.nvreg * p.vregBytes := by
    rw [← Nat.succ_mul]; exact Nat.mul_le_mul_right _ hr
  have hsub : 0x1000 + r * p.vregBytes + 4 * w - 0x1000 = 4 * w + p.vregBytes * r := by
    rw [Nat.mul_comm p.vregBytes r]; omega
  have hdiv : (4 * w + p.vregBytes * r) / p.vregBytes = r := by
    rw [Nat.add_mul_div_left _ _ (by omega), Nat.div_eq_of_lt hw4, Nat.zero_add]
  have hmod : (4 * w + p.vregBytes * r) % p.vregBytes / 4 = w := by
    rw [Nat.add_mul_mod_self_left, Nat.mod_eq_of_lt hw4]; omega
  have shift : ¬ 0x1000 + r * p.vregBytes + 4 * w < 0x040 + 4 * p.n0Max := by omega
  have window : 0x1000 + r * p.vregBytes + 4 * w < 0x1000 + p.nvreg * p.vregBytes := by omega
  rw [locate_above p (by omega), if_neg shift, if_pos ⟨by omega, window⟩, hsub, hdiv, hmod]

/-- DEC_SHIFT[b] is at 0x040 + 4·b (10_state.md R55). -/
theorem locate_decShift {p : Params} {b : Nat} (hb : b < p.n0Max) : locate p (0x040 + 4 * b) = .decShift b := by
  have hd : (0x040 + 4 * b - 0x040) / 4 = b := by omega
  rw [locate_above p (by omega), if_pos (by omega), hd]

/-- CTRL is at 0x010 and nowhere else (10_state.md R40). -/
theorem locate_eq_ctrl {p : Params} {off : Nat} : locate p off = .ctrl ↔ off = 0x010 := by
  constructor
  · intro h
    by_cases h40 : 0x040 ≤ off
    · rw [locate_above p h40] at h
      split at h
      · cases h
      · split at h <;> cases h
    · have below : ∀ k, k < 0x040 → locate p k = .ctrl → k = 0x010 := by
        intro k hk
        simp only [locate, show ¬ 0x040 ≤ k by omega, show ¬ 0x1000 ≤ k by omega, false_and, if_false]
        revert k
        decide
      exact below off (by omega) h
  · rintro rfl; rfl

/-! ## Reads -/

/-- A read changes nothing but, in the window while busy, BUSY_ACC (20_memory.md R75, R76). -/
theorem State.readTarget_fst (s : State) (t : Target) :
    (s.readTarget t).1 = s ∨ (s.busy = true ∧ (s.readTarget t).1 = { s with busyAcc := true }) := by
  unfold State.readTarget
  split
  · split
    · rename_i h; exact .inr ⟨h, rfl⟩
    · exact .inl rfl
  · exact .inl rfl

/-! ## Writes -/

/-- The kinds of thing a served write can do (R40, R44 to R56, R73, R76). -/
theorem State.writeTarget_cases (s : State) (t : Target) (v : Word) :
    s.writeTarget t v = s ∨
    s.writeTarget t v = s.writeCtrl v ∨
    s.writeTarget t v = s.writeStatus v ∨
    s.writeTarget t v = s.writeCmd v ∨
    s.writeTarget t v = s.writeRngData v ∨
    (s.busy = true ∧ s.writeTarget t v = { s with busyAcc := true }) ∨
    (s.busy = false ∧ (
      s.writeTarget t v = { s with arg0 := v } ∨
      s.writeTarget t v = { s with arg1 := v } ∨
      s.writeTarget t v = { s with cfgP := v.setWidth 16 } ∨
      s.writeTarget t v = { s with cfgN0 := v.setWidth 8 } ∨
      s.writeTarget t v = { s with maxDraw := v.setWidth 16, maxTry := v.extractLsb' 16 16 } ∨
      (∃ b, s.writeTarget t v = { s with decShift := s.decShift.set b (v.setWidth 16) }) ∨
      ∃ r w, s.writeTarget t v = s.setVreg r (replaceWord (s.vreg r) w v))) := by
  cases hb : s.busy
  · cases t with
    | decShift b =>
      have idle : s.writeTarget (.decShift b) v = { s with decShift := s.decShift.set b (v.setWidth 16) } := by
        simp [State.writeTarget, State.lockedWrite, hb]
      tauto
    | window r w =>
      have idle : s.writeTarget (.window r w) v = s.setVreg r (replaceWord (s.vreg r) w v) := by
        simp [State.writeTarget, State.lockedWrite, hb]
      tauto
    | _ => simp [State.writeTarget, State.lockedWrite, hb]
  · cases t <;> simp [State.writeTarget, State.lockedWrite, hb]

/-- An access is a read or a write of the target its offset names, or a bus error that changes nothing (R71, R72). -/
theorem State.access_cases (s : State) (a : Access) :
    ((s.access a).1 = s ∧ (s.access a).2 = some .busError) ∨
    (∃ t, (s.access a).1 = (s.readTarget t).1 ∧ (s.access a).2 = some (.data (s.readTarget t).2)) ∨
    ∃ t v, (s.access a).1 = s.writeTarget t v ∧ (s.access a).2 = none := by
  cases a with
  | read off width =>
    cases h : servable off width
    · exact .inl (by simp [State.access, h])
    · exact .inr (.inl ⟨locate s.params off.toNat, by simp [State.access, h]⟩)
  | write off width v =>
    cases h : servable off width
    · exact .inl (by simp [State.access, h])
    · exact .inr (.inr ⟨locate s.params off.toNat, v, by simp [State.access, h]⟩)

/-! ## Bus addresses (20_memory.md R70) -/

theorem Params.inAperture_eq_true {p : Params} {address : Nat} :
    p.inAperture address = true ↔ p.base ≤ address ∧ address < p.base + 0x20000 := by
  rw [Params.inAperture, Bool.and_eq_true, decide_eq_true_eq, decide_eq_true_eq, apertureSize]

theorem Params.inAperture_onBus (p : Params) (off : BitVec 17) : p.inAperture (p.base + off.toNat) = true :=
  Params.inAperture_eq_true.mpr ⟨Nat.le_add_right _ _, Nat.add_lt_add_left off.isLt _⟩

theorem Params.offsetOf_onBus (p : Params) (off : BitVec 17) : p.offsetOf (p.base + off.toNat) = off := by
  simp [Params.offsetOf]

/-- An access at BASE + offset is the access that the offset names. -/
@[simp] theorem State.transfer_onBus (s : State) (a : Access) : s.transfer (a.onBus s.params) = s.access a := by
  cases a <;> simp [Access.onBus, State.transfer, Params.inAperture_onBus, Params.offsetOf_onBus]

/-- Every transfer is an access of the engine, or lies outside the aperture and changes nothing. -/
theorem State.transfer_cases (s : State) (x : Transfer) :
    s.transfer x = (s, none) ∨ ∃ a : Access, x = a.onBus s.params ∧ s.transfer x = s.access a := by
  have inside : ∀ {address}, s.params.inAperture address = true →
      address = s.params.base + (s.params.offsetOf address).toNat := by
    intro address h
    rw [Params.inAperture_eq_true] at h
    rw [Params.offsetOf, BitVec.toNat_ofNat, Nat.mod_eq_of_lt (by omega)]; omega
  cases x with
  | read address width =>
    by_cases h : s.params.inAperture address
    · exact .inr ⟨.read (s.params.offsetOf address) width, by simp only [Access.onBus, ← inside h], by
        simp [State.transfer, h]⟩
    · exact .inl (by simp [State.transfer, h])
  | write address width v =>
    by_cases h : s.params.inAperture address
    · exact .inr ⟨.write (s.params.offsetOf address) width v, by simp only [Access.onBus, ← inside h], by
        simp [State.transfer, h]⟩
    · exact .inl (by simp [State.transfer, h])

/-- Recording a reply changes the record only. -/
theorem State.recorded_eq (s : State) (a : Access) :
    ∃ l, s.recorded a = { (s.access a).1 with replies := l } := by
  unfold State.recorded
  rw [State.transfer_onBus]
  rcases s.access a with ⟨t, _ | r⟩
  · exact ⟨t.replies, rfl⟩
  · exact ⟨r :: t.replies, rfl⟩

/-- A transfer of another master is one access of the engine or none, and changes its own record. -/
theorem State.otherAccess_eq (s : State) (x : Transfer) :
    ∃ u l, s.otherAccess x = { u with otherReplies := l } ∧ (u = s ∨ ∃ a : Access, u = (s.access a).1) := by
  have h := s.transfer_cases x
  unfold State.otherAccess
  rcases hx : s.transfer x with ⟨t, _ | r⟩ <;> rw [hx] at h
  · refine ⟨t, t.otherReplies, rfl, h.imp (congrArg Prod.fst) ?_⟩
    rintro ⟨a, -, ha⟩; exact ⟨a, congrArg Prod.fst ha⟩
  · refine ⟨t, r :: t.otherReplies, rfl, h.imp (congrArg Prod.fst) ?_⟩
    rintro ⟨a, -, ha⟩; exact ⟨a, congrArg Prod.fst ha⟩

end Sys2Proof.Machine
end

