-- ==== Sys2Proof/Laws/Combinatorial.lean ====
section
/-! SUPPORT. The reference loop of 42_combinatorial.md R191 computes the binomial coefficient. -/

namespace Sys2Proof.Machine

theorem binomLoop_eq_choose (n k i : Nat) : binomLoop n k i = (n - k + i).choose i := by
  induction i with
  | zero => simp [binomLoop]
  | succ i ih =>
    have h := Nat.add_one_mul_choose_eq (n - k + i) i
    rw [binomLoop, ih, Nat.mul_comm, show n - k + (i + 1) = n - k + i + 1 from rfl, h,
      Nat.mul_div_cancel _ (Nat.succ_pos i)]

theorem binom_eq_choose (n k : Nat) : binom n k = n.choose k := by
  unfold binom
  split
  · rename_i h; exact (Nat.choose_eq_zero_of_lt h).symm
  · rename_i h; rw [binomLoop_eq_choose n k k, show n - k + k = n from by omega]

/-- No element below position i is selected, and none from position i + rest on. -/
theorem testBit_unrankFrom_outside {rest i need idx j : Nat} (h : j < i ∨ i + rest ≤ j) :
    (unrankFrom rest i need idx).testBit j = false := by
  induction rest generalizing i need idx with
  | zero => simp [unrankFrom]
  | succ rest ih =>
    cases need with
    | zero => simp [unrankFrom]
    | succ need =>
      rw [unrankFrom]
      split
      · exact ih (by omega)
      · rw [Nat.testBit_or, testBit_one_shiftLeft, ih (by omega)]
        simp; omega

theorem unrank_lt (n k idx : Nat) : unrank n k idx < 2 ^ n :=
  Nat.lt_pow_two_of_testBit _ fun _ hj => testBit_unrankFrom_outside (.inr (by omega))

end Sys2Proof.Machine
end

