-- ==== Sys2Proof/Laws/Decoder.lean ====
section
/-! SUPPORT. What a round and the loop of the bit-flipping decoder do. -/

namespace Sys2Proof.Machine

/-- The syndrome is linear. -/
theorem Parity.synd_xor (h : Parity) (x y : Nat) : h.synd (x ^^^ y) = h.synd x ^^^ h.synd y := by
  unfold Parity.synd
  rw [← xorOver_xor]
  refine xorOver_congr fun q _ => ?_
  rw [Nat.testBit_xor]
  cases x.testBit q <;> cases y.testBit q <;> simp

@[simp] theorem Parity.synd_zero (h : Parity) : h.synd 0 = 0 := by
  have h2 := h.synd_xor 0 0
  simpa using h2

theorem Parity.synd_lt (h : Parity) (x : Nat) : h.synd x < 2 ^ h.p :=
  xorOver_lt fun _ _ => by
    split
    · exact bitsOf_lt _ _
    · exact Nat.two_pow_pos _

theorem Parity.flips_lt (h : Parity) (s : Nat) : h.flips s < 2 ^ h.width := bitsOf_lt _ _

/-- Where the loop succeeds, it ended on s = 0: the sum of the final and the first x has the first s as its syndrome,
and at most `fuel` rounds were executed (44_decoder.md R252). -/
theorem Parity.bitFlip_some {h : Parity} {fuel x s rounds x' rounds' : Nat}
    (e : h.bitFlip fuel x s rounds = some (x', rounds')) :
    h.synd (x ^^^ x') = s ∧ rounds ≤ rounds' ∧ rounds' ≤ rounds + fuel := by
  have stop : ∀ {x rounds : Nat}, some (x, rounds) = some (x', rounds') → h.synd (x ^^^ x') = 0 ∧ rounds = rounds' := by
    rintro x rounds ⟨⟩; simp
  induction fuel generalizing x s rounds with
  | zero =>
    rw [Parity.bitFlip] at e
    split at e
    · rename_i hs
      obtain ⟨h1, h2⟩ := stop e
      exact ⟨h1.trans hs.symm, by omega, by omega⟩
    · cases e
  | succ fuel ih =>
    rw [Parity.bitFlip] at e
    split at e
    · rename_i hs
      obtain ⟨h1, h2⟩ := stop e
      exact ⟨h1.trans hs.symm, by omega, by omega⟩
    · obtain ⟨h1, h2, h3⟩ := ih e
      refine ⟨?_, by omega, by omega⟩
      have h4 : x ^^^ x' = (x ^^^ h.flips s ^^^ x') ^^^ h.flips s := by
        rw [Nat.xor_assoc x, Nat.xor_comm (h.flips s) x', ← Nat.xor_assoc, Nat.xor_assoc (x ^^^ x'), Nat.xor_self,
          Nat.xor_zero]
      rw [h4, h.synd_xor, h1, Nat.xor_assoc, Nat.xor_self, Nat.xor_zero]

end Sys2Proof.Machine
end

