-- ==== Sys2Proof/Laws/Ops.lean ====
section
/-! SUPPORT. What the shared checks do, said once. -/

namespace Sys2Proof.Machine

theorem State.badP_eq_false {s : State} : s.badP = false ↔ 1 ≤ s.P ∧ s.P ≤ s.params.vlen := by
  simp [State.badP]

theorem State.badBlocks_eq_false {s : State} :
    s.badBlocks = false ↔ (1 ≤ s.n0 ∧ s.n0 ≤ s.params.n0Max) ∧ ∀ b, b < s.n0 → s.shift b < s.P := by
  simp [State.badBlocks]

theorem State.badRegs_eq_false {s : State} {i : Instr} :
    s.badRegs i = false ↔
      (∀ r ∈ i.singleFields, r < s.params.nvreg) ∧ ∀ r ∈ i.blockFields, r + s.n0 - 1 < s.params.nvreg := by
  simp [State.badRegs]

/-- Steps 2 to 4 of R134 pass exactly when P, the blocks and the registers the command uses are good. -/
theorem State.preCheck_eq_none {s : State} {i : Instr} :
    s.preCheck i = none ↔
      (i.usesP = true → s.badP = false) ∧ (i.usesBlocks = true → s.badBlocks = false) ∧ s.badRegs i = false := by
  unfold State.preCheck
  cases i.usesP <;> cases s.badP <;> cases i.usesBlocks <;> cases s.badBlocks <;> cases s.badRegs i <;> simp

/-- The only codes steps 2 to 4 report. -/
theorem State.preCheck_code {s : State} {i : Instr} {c : ErrCode} (h : s.preCheck i = some c) :
    c = .badCfg ∨ c = .badReg := by
  unfold State.preCheck at h
  split at h
  · exact .inl (Option.some.inj h).symm
  · split at h
    · exact .inl (Option.some.inj h).symm
    · split at h
      · exact .inr (Option.some.inj h).symm
      · cases h

/-- When the checks pass, a command performs its operation. -/
theorem State.checked_of_ok {s : State} {i : Instr} {argsOk : Bool} (h : s.preCheck i = none) (ha : argsOk = true)
    (op : Unit → State) : s.checked i argsOk op = op () := by
  simp [State.checked, h, ha]

/-- A command performs its operation, with its checks passed, or completes with a check's code and RES = 0. -/
theorem State.checked_cases (s : State) (i : Instr) (argsOk : Bool) (op : Unit → State) :
    (s.preCheck i = none ∧ argsOk = true ∧ s.checked i argsOk op = op ()) ∨
    ∃ c, c ≠ .ok ∧ s.checked i argsOk op = s.raise c 0 := by
  cases h : s.preCheck i with
  | some c =>
    refine .inr ⟨c, ?_, by simp [State.checked, h]⟩
    rcases State.preCheck_code h with rfl | rfl <;> decide
  | none =>
    cases argsOk with
    | true => exact .inl ⟨rfl, rfl, State.checked_of_ok h rfl op⟩
    | false => exact .inr ⟨.badArg, by decide, by simp [State.checked, h]⟩

end Sys2Proof.Machine
end

