-- ==== Sys2Proof/Laws/Exec.lean ====
section
/-! SUPPORT. What one engine step can do, said once: a command that draws no words completes, and a generator
completes, draws one word, or is held. -/

namespace Sys2Proof.Machine

/-- The checks around an operation that completes, complete too. -/
theorem State.checked_completes {s : State} {i : Instr} {argsOk : Bool} {op : Unit → State} {dst : List Nat}
    (h : ∃ code res d, op () = s.complete code res d ∧ (code ≠ .ok → d = []) ∧ (d = [] ∨ d.map Prod.fst = dst)) :
    ∃ code res d, s.checked i argsOk op = s.complete code res d ∧ (code ≠ .ok → d = []) ∧
      (d = [] ∨ d.map Prod.fst = dst) := by
  rcases s.checked_cases i argsOk op with ⟨-, -, e⟩ | ⟨c, -, e⟩
  · rw [e]; exact h
  · exact ⟨c, 0, [], e, fun _ => rfl, .inl rfl⟩

/-- A command other than GEN_RAND and GEN_INV completes in its one engine step (R132): with an error code it writes
nothing, and otherwise its destinations or nothing (R135, R32). -/
theorem exec_completes (i : Instr) (s : State) (hi : i.isGenerator = false) :
    ∃ code res d, exec i s = .next (s.complete code res d) ∧ (code ≠ .ok → d = []) ∧
      (d = [] ∨ d.map Prod.fst = i.destinations s.n0) := by
  have lift : ∀ {t : State},
      (∃ code res d, t = s.complete code res d ∧ (code ≠ .ok → d = []) ∧ (d = [] ∨ d.map Prod.fst = i.destinations s.n0)) →
      ∃ code res d, Host.Outcome.next (φ := Fault) (ρ := Refusal) t = .next (s.complete code res d) ∧
        (code ≠ .ok → d = []) ∧ (d = [] ∨ d.map Prod.fst = i.destinations s.n0) := by
    rintro t ⟨c, r, d, rfl, h⟩; exact ⟨c, r, d, rfl, h⟩
  have decoded : ∀ vd o, ∃ code res d, s.decoded vd o = s.complete code res d ∧ (code ≠ .ok → d = []) ∧
      (d = [] ∨ d.map Prod.fst = (List.range s.n0).map (vd + ·)) := by
    rintro vd (_ | ⟨x, r⟩)
    · exact ⟨_, _, _, rfl, fun _ => rfl, .inl rfl⟩
    · exact ⟨.ok, _, _, rfl, fun h => absurd rfl h, .inr (s.blockWrites_fst vd x)⟩
  cases i with
  | nop => exact lift (State.checked_completes ⟨.ok, _, _, rfl, fun _ => rfl, .inl rfl⟩)
  | pmul vd va vb => exact lift (State.checked_completes ⟨.ok, _, _, rfl, fun h => absurd rfl h, .inr rfl⟩)
  | pinv vd va =>
    refine lift (State.checked_completes ?_)
    split
    · exact ⟨.ok, _, _, rfl, fun h => absurd rfl h, .inr rfl⟩
    · exact ⟨_, _, _, rfl, fun _ => rfl, .inl rfl⟩
  | pinvT va =>
    refine lift (State.checked_completes ?_)
    split
    · exact ⟨.ok, _, _, rfl, fun _ => rfl, .inl rfl⟩
    · exact ⟨_, _, _, rfl, fun _ => rfl, .inl rfl⟩
  | vxor vd va vb => exact lift (State.checked_completes ⟨.ok, _, _, rfl, fun h => absurd rfl h, .inr rfl⟩)
  | vwt va => exact lift (State.checked_completes ⟨.ok, _, _, rfl, fun _ => rfl, .inl rfl⟩)
  | cmbBinom vd => exact lift (State.checked_completes ⟨.ok, _, _, rfl, fun h => absurd rfl h, .inr rfl⟩)
  | cmbUnrank vd va =>
    refine lift (State.checked_completes ?_)
    split
    · exact ⟨_, _, _, rfl, fun _ => rfl, .inl rfl⟩
    · exact ⟨.ok, _, _, rfl, fun h => absurd rfl h, .inr rfl⟩
  | cmbUnrankR vd va => exact lift (State.checked_completes ⟨.ok, _, _, rfl, fun h => absurd rfl h, .inr rfl⟩)
  | cmbRank vd va => exact lift (State.checked_completes ⟨.ok, _, _, rfl, fun h => absurd rfl h, .inr rfl⟩)
  | genRand vd => cases hi
  | genInv vd => cases hi
  | genHash vd va =>
    refine lift (State.checked_completes ?_)
    dsimp only
    split
    · exact ⟨_, _, _, rfl, fun _ => rfl, .inl rfl⟩
    · exact ⟨.ok, _, _, rfl, fun h => absurd rfl h, .inr rfl⟩
  | decCw vd va => exact lift (State.checked_completes (decoded _ _))
  | decSyn vd va vb => exact lift (State.checked_completes (decoded _ _))
  | decSynd vd va vb => exact lift (State.checked_completes ⟨.ok, _, _, rfl, fun h => absurd rfl h, .inr rfl⟩)

/-- A draw step takes the oldest FIFO word or the entropy port's next word, or holds the engine (R221). -/
theorem State.drawStep_cases (s : State) (f : InFlight) (p : Progress) (size : Nat) :
    (∃ w rest, f.rngSrc = true ∧ s.fifo = w :: rest ∧
      s.drawStep f p size =
        { s with fifo := rest, rngWait := false, inflight := some { f with progress := p.take size w } }) ∨
    (f.rngSrc = true ∧ s.fifo = [] ∧
      s.drawStep f p size = { s with rngWait := true, inflight := some { f with progress := p } }) ∨
    (f.rngSrc = false ∧
      s.drawStep f p size =
        { s with
          entropyNext := s.entropyNext + 1
          inflight := some { f with progress := p.take size (Config.entropy s.entropyNext) } }) := by
  unfold State.drawStep State.nextWord
  cases hr : f.rngSrc with
  | true =>
    cases hf : s.fifo with
    | nil => exact .inr (.inl ⟨rfl, rfl, by simp⟩)
    | cons w rest => exact .inl ⟨w, rest, rfl, rfl, by simp⟩
  | false => exact .inr (.inr ⟨rfl, by simp⟩)

/-- The step GEN_RAND or GEN_INV takes next, whichever it is: completion, or a draw step from some progress. -/
theorem State.genStep_cases (s : State) (f : InFlight) (vd : Nat) (g : GenStep) :
    (∃ v res, g = .finish v res ∧ s.genStep f vd g = s.complete .ok res [(vd, v)]) ∨
    (∃ res, g = .exhaust res ∧ s.genStep f vd g = s.raise .genExhausted res) ∨
    ∃ p, g = .draw p ∧ s.genStep f vd g = s.drawStep f p s.n := by
  cases g with
  | finish v res => exact .inl ⟨v, res, rfl, rfl⟩
  | exhaust res => exact .inr (.inl ⟨res, rfl, rfl⟩)
  | draw p => exact .inr (.inr ⟨p, rfl, rfl⟩)

end Sys2Proof.Machine
end

