-- ==== Sys2Proof/Laws/Generator.lean ====
section
/-! SUPPORT. What one word does to the progress of a generator. -/

namespace Sys2Proof.Machine

/-- A word sets a new index or sets nothing; either way it is one draw, of the same attempt (43_generator.md R223). -/
theorem Progress.take_cases (p : Progress) (size : Nat) (w : Word) :
    (∃ idx, idx = low (bitlen (size - 1)) w.toNat ∧ idx < size ∧ p.vec.testBit idx = false ∧
      p.take size w = { p with vec := p.vec ||| 1 <<< idx, cnt := p.cnt + 1, draws := p.draws + 1 }) ∨
    p.take size w = { p with draws := p.draws + 1 } := by
  unfold Progress.take
  by_cases h : (low (bitlen (size - 1)) w.toNat < size && !p.vec.testBit (low (bitlen (size - 1)) w.toNat)) = true
  · refine .inl ⟨_, rfl, ?_⟩
    simp only [Bool.and_eq_true, decide_eq_true_eq, Bool.not_eq_true'] at h
    exact ⟨h.1, h.2, by simp [h.1, h.2]⟩
  · exact .inr (if_neg h)

@[simp] theorem Progress.take_draws (p : Progress) (size : Nat) (w : Word) : (p.take size w).draws = p.draws + 1 := by
  rcases p.take_cases size w with ⟨_, _, _, _, e⟩ | e <;> rw [e]

@[simp] theorem Progress.take_attempt (p : Progress) (size : Nat) (w : Word) : (p.take size w).attempt = p.attempt := by
  rcases p.take_cases size w with ⟨_, _, _, _, e⟩ | e <;> rw [e]

/-- The partial vector stays below size. -/
theorem Progress.take_vec_lt {p : Progress} {size : Nat} (h : p.vec < 2 ^ size) (w : Word) :
    (p.take size w).vec < 2 ^ size := by
  rcases p.take_cases size w with ⟨idx, -, hi, -, e⟩ | e <;> rw [e]
  · refine Nat.or_lt_two_pow h ?_
    rw [Nat.one_shiftLeft]; exact Nat.pow_lt_pow_right (by decide) hi
  · exact h

end Sys2Proof.Machine
end

