-- ==== Sys2Proof/Laws/Gf2.lean ====
section
/-! SUPPORT. What rotation, the ring product and one step of division do. -/

namespace Sys2Proof.Machine

theorem rotate_lt {P i b : Nat} : rotate P i b < 2 ^ P :=
  Nat.or_lt_two_pow (low_lt _ _) (Nat.lt_of_le_of_lt (Nat.shiftRight_le _ _) (low_lt _ _))

/-- Bit j of x^i · b is bit (j − i) mod P of b. -/
theorem testBit_rotate {P i b j : Nat} (hi : i < P) (hj : j < P) :
    (rotate P i b).testBit j = b.testBit ((j + (P - i)) % P) := by
  rw [rotate, Nat.testBit_or, testBit_low, Nat.testBit_shiftLeft, Nat.testBit_shiftRight, testBit_low]
  by_cases h : i ≤ j
  · have h1 : (j + (P - i)) % P = j - i := by
      rw [show j + (P - i) = (j - i) + P from by omega, Nat.add_mod_right, Nat.mod_eq_of_lt (by omega)]
    have h2 : ¬ P - i + j < P := by omega
    simp [hj, h, h1, h2]
  · have h1 : (j + (P - i)) % P = P - i + j := by rw [Nat.add_comm, Nat.mod_eq_of_lt (by omega)]
    have h2 : P - i + j < P := by omega
    simp [h, h1, h2]

theorem ringMul_lt (P a b : Nat) : ringMul P a b < 2 ^ P :=
  xorOver_lt fun i _ => by
    split
    · exact rotate_lt
    · exact Nat.two_pow_pos _

/-- The product distributes over sums on the left. -/
theorem ringMul_xor_left (P a a' b : Nat) : ringMul P (a ^^^ a') b = ringMul P a b ^^^ ringMul P a' b := by
  unfold ringMul
  rw [← xorOver_xor]
  refine xorOver_congr fun i _ => ?_
  rw [Nat.testBit_xor]
  cases a.testBit i <;> cases a'.testBit i <;> simp

/-- One step of long division removes the leading term. -/
theorem bitlen_divStep_lt {a b : Nat} (hb : b ≠ 0) (h : bitlen b ≤ bitlen a) :
    bitlen (a ^^^ b <<< (bitlen a - bitlen b)) < bitlen a := by
  have hba : 0 < bitlen b := by unfold bitlen; rw [if_neg hb]; omega
  have ha : a ≠ 0 := by rintro rfl; simp [bitlen] at h; omega
  have topBit : ∀ z, z ≠ 0 → z.testBit (bitlen z - 1) = true ∧ ∀ j, bitlen z ≤ j → z.testBit j = false := by
    intro z hz
    have hl : bitlen z = z.log2 + 1 := by unfold bitlen; rw [if_neg hz]
    refine ⟨by rw [hl]; exact Nat.testBit_log2 hz, fun j hj => ?_⟩
    exact Nat.testBit_lt_two_pow (Nat.lt_of_lt_of_le Nat.lt_log2_self (Nat.pow_le_pow_right (by decide) (by omega)))
  obtain ⟨ta, za⟩ := topBit a ha
  obtain ⟨tb, zb⟩ := topBit b hb
  have hlt : a ^^^ b <<< (bitlen a - bitlen b) < 2 ^ (bitlen a - 1) := by
    refine Nat.lt_pow_two_of_testBit _ fun j hj => ?_
    rw [Nat.testBit_xor, Nat.testBit_shiftLeft]
    rcases Nat.lt_or_ge j (bitlen a) with h2 | h2
    · obtain rfl : j = bitlen a - 1 := by omega
      rw [ta, show bitlen a - 1 - (bitlen a - bitlen b) = bitlen b - 1 from by omega, tb]
      simp; omega
    · rw [za j h2, zb _ (by omega)]; simp
  rcases Nat.eq_zero_or_pos (a ^^^ b <<< (bitlen a - bitlen b)) with h0 | h0
  · rw [h0, show bitlen 0 = 0 from rfl]; omega
  · generalize hz : a ^^^ b <<< (bitlen a - bitlen b) = z at *
    have hz0 : z ≠ 0 := by omega
    have hl : bitlen z = z.log2 + 1 := by unfold bitlen; rw [if_neg hz0]
    have : z.log2 < bitlen a - 1 := (Nat.log2_lt hz0).mpr hlt
    omega

end Sys2Proof.Machine
end

