-- ==== Sys2Proof/Laws/PerInstr.lean ====
section
/-! SUPPORT. Facts stated per command, one lemma per constructor. -/

namespace Sys2Proof.Laws

/-- Four-bit fields and an 8-bit opcode leave RSV at 0 (30_encoding.md R101). -/
theorem packC_toNat_lt {opc fl vd va vb : Nat} (h0 : opc < 256) (h1 : fl < 16) (h2 : vd < 16) (h3 : va < 16)
    (h4 : vb < 16) : (packC opc fl vd va vb).toNat < 2 ^ 24 := by
  rw [packC, BitVec.toNat_ofNat]; omega

/-- The fields of a packed word are the numbers packed (R101). -/
theorem packC_fields {opc fl vd va vb : Nat} (h0 : opc < 256) (h1 : fl < 16) (h2 : vd < 16) (h3 : va < 16)
    (h4 : vb < 16) :
    opcOf (packC opc fl vd va vb) = opc ∧ vdOf (packC opc fl vd va vb) = vd ∧ vaOf (packC opc fl vd va vb) = va ∧
      vbOf (packC opc fl vd va vb) = vb ∧ flOf (packC opc fl vd va vb) = fl := by
  simp only [opcOf, vdOf, vaOf, vbOf, flOf, packC, BitVec.toNat_ofNat]
  omega

/-! ## Every encoded command has RSV = 0 -/

/-- The word of a well-formed command has RSV = 0 (R101, R105). -/
def RsvIsZero.Statement (i : Instr) : Prop := i.wellFormed = true → rsvOf (encode i) = 0

theorem RsvIsZero.of_lt {w : Word} (h : w.toNat < 2 ^ 24) : rsvOf w = 0 := Nat.div_eq_of_lt h

theorem RsvIsZero.nop : RsvIsZero.Statement .nop := by
  intro _; decide

theorem RsvIsZero.pmul (vd va vb : Nat) : RsvIsZero.Statement (.pmul vd va vb) := by
  intro h
  simp only [Instr.wellFormed, fieldFits, Bool.and_eq_true, decide_eq_true_eq] at h
  exact RsvIsZero.of_lt (packC_toNat_lt (by decide) (by decide) (by omega) (by omega) (by omega))

theorem RsvIsZero.pinv (vd va : Nat) : RsvIsZero.Statement (.pinv vd va) := by
  intro h
  simp only [Instr.wellFormed, fieldFits, Bool.and_eq_true, decide_eq_true_eq] at h
  exact RsvIsZero.of_lt (packC_toNat_lt (by decide) (by decide) (by omega) (by omega) (by omega))

theorem RsvIsZero.pinvT (va : Nat) : RsvIsZero.Statement (.pinvT va) := by
  intro h
  simp only [Instr.wellFormed, fieldFits, decide_eq_true_eq] at h
  exact RsvIsZero.of_lt (packC_toNat_lt (by decide) (by decide) (by omega) (by omega) (by omega))

theorem RsvIsZero.vxor (vd va vb : Nat) : RsvIsZero.Statement (.vxor vd va vb) := by
  intro h
  simp only [Instr.wellFormed, fieldFits, Bool.and_eq_true, decide_eq_true_eq] at h
  exact RsvIsZero.of_lt (packC_toNat_lt (by decide) (by decide) (by omega) (by omega) (by omega))

theorem RsvIsZero.vwt (va : Nat) : RsvIsZero.Statement (.vwt va) := by
  intro h
  simp only [Instr.wellFormed, fieldFits, decide_eq_true_eq] at h
  exact RsvIsZero.of_lt (packC_toNat_lt (by decide) (by decide) (by omega) (by omega) (by omega))

theorem RsvIsZero.cmbBinom (vd : Nat) : RsvIsZero.Statement (.cmbBinom vd) := by
  intro h
  simp only [Instr.wellFormed, fieldFits, decide_eq_true_eq] at h
  exact RsvIsZero.of_lt (packC_toNat_lt (by decide) (by decide) (by omega) (by omega) (by omega))

theorem RsvIsZero.cmbUnrank (vd va : Nat) : RsvIsZero.Statement (.cmbUnrank vd va) := by
  intro h
  simp only [Instr.wellFormed, fieldFits, Bool.and_eq_true, decide_eq_true_eq] at h
  exact RsvIsZero.of_lt (packC_toNat_lt (by decide) (by decide) (by omega) (by omega) (by omega))

theorem RsvIsZero.cmbUnrankR (vd va : Nat) : RsvIsZero.Statement (.cmbUnrankR vd va) := by
  intro h
  simp only [Instr.wellFormed, fieldFits, Bool.and_eq_true, decide_eq_true_eq] at h
  exact RsvIsZero.of_lt (packC_toNat_lt (by decide) (by decide) (by omega) (by omega) (by omega))

theorem RsvIsZero.cmbRank (vd va : Nat) : RsvIsZero.Statement (.cmbRank vd va) := by
  intro h
  simp only [Instr.wellFormed, fieldFits, Bool.and_eq_true, decide_eq_true_eq] at h
  exact RsvIsZero.of_lt (packC_toNat_lt (by decide) (by decide) (by omega) (by omega) (by omega))

theorem RsvIsZero.genRand (vd : Nat) : RsvIsZero.Statement (.genRand vd) := by
  intro h
  simp only [Instr.wellFormed, fieldFits, decide_eq_true_eq] at h
  exact RsvIsZero.of_lt (packC_toNat_lt (by decide) (by decide) (by omega) (by omega) (by omega))

theorem RsvIsZero.genInv (vd : Nat) : RsvIsZero.Statement (.genInv vd) := by
  intro h
  simp only [Instr.wellFormed, fieldFits, decide_eq_true_eq] at h
  exact RsvIsZero.of_lt (packC_toNat_lt (by decide) (by decide) (by omega) (by omega) (by omega))

theorem RsvIsZero.genHash (vd va : Nat) : RsvIsZero.Statement (.genHash vd va) := by
  intro h
  simp only [Instr.wellFormed, fieldFits, Bool.and_eq_true, decide_eq_true_eq] at h
  exact RsvIsZero.of_lt (packC_toNat_lt (by decide) (by decide) (by omega) (by omega) (by omega))

theorem RsvIsZero.decCw (vd va : Nat) : RsvIsZero.Statement (.decCw vd va) := by
  intro h
  simp only [Instr.wellFormed, fieldFits, Bool.and_eq_true, decide_eq_true_eq] at h
  exact RsvIsZero.of_lt (packC_toNat_lt (by decide) (by decide) (by omega) (by omega) (by omega))

theorem RsvIsZero.decSyn (vd va vb : Nat) : RsvIsZero.Statement (.decSyn vd va vb) := by
  intro h
  simp only [Instr.wellFormed, fieldFits, Bool.and_eq_true, decide_eq_true_eq] at h
  exact RsvIsZero.of_lt (packC_toNat_lt (by decide) (by decide) (by omega) (by omega) (by omega))

theorem RsvIsZero.decSynd (vd va vb : Nat) : RsvIsZero.Statement (.decSynd vd va vb) := by
  intro h
  simp only [Instr.wellFormed, fieldFits, Bool.and_eq_true, decide_eq_true_eq] at h
  exact RsvIsZero.of_lt (packC_toNat_lt (by decide) (by decide) (by omega) (by omega) (by omega))

end Sys2Proof.Laws
end

