-- ==== Sys2Proof/Laws/Step.lean ====
section
/-! SUPPORT. What one step of the machine can be, said once, and the induction over runs. -/

namespace Sys2Proof.Machine

/-- The engine's turn does nothing (idle or held), or is one step of the decoded command, or completes an illegal word. -/
theorem engineTurn_cases {s t : State} (h : engineTurn s = .next t) :
    (t = s ∧ (s.inflight = none ∨ s.rngWait = true)) ∨
    ∃ f, s.inflight = some f ∧ s.rngWait = false ∧
      ((∃ i, decode f.word = .ok i ∧ exec i s = .next t) ∨
        ∃ e, decode f.word = .error e ∧ t = s.raise .illegalCmd 0) := by
  unfold engineTurn at h
  cases hf : s.inflight with
  | none => rw [hf] at h; cases h; exact .inl ⟨rfl, .inl rfl⟩
  | some f =>
    rw [hf] at h
    cases hw : s.rngWait with
    | true => rw [hw] at h; cases h; exact .inl ⟨rfl, .inr rfl⟩
    | false =>
      rw [hw] at h
      cases hd : decode f.word with
      | ok i => exact .inr ⟨f, rfl, rfl, .inl ⟨i, hd, by simpa [hd] using h⟩⟩
      | error e =>
        have ht : Host.Outcome.next (φ := Fault) (ρ := Refusal) s.illegalCompletion = .next t := by simpa [hd] using h
        cases ht
        exact .inr ⟨f, rfl, rfl, .inr ⟨e, hd, rfl⟩⟩

/-- The host's turn reads, makes one access, or nothing, and otherwise only moves the host. -/
theorem State.hostTurn_cases (s : State) :
    ∃ u pc l, s.hostTurn = { u with hostPc := pc, replies := l } ∧
      (u = s ∨ (∃ tgt, u = (s.readTarget tgt).1) ∨ ∃ a, u = (s.access a).1) := by
  have poll : ∀ (tgt : Target) (pc : Nat), ∃ u pc' l, { (s.readTarget tgt).1 with hostPc := pc } =
      { u with hostPc := pc', replies := l } ∧
        (u = s ∨ (∃ tgt, u = (s.readTarget tgt).1) ∨ ∃ a, u = (s.access a).1) := fun tgt pc =>
    ⟨(s.readTarget tgt).1, pc, (s.readTarget tgt).1.replies, rfl, .inr (.inl ⟨tgt, rfl⟩)⟩
  unfold State.hostTurn
  split
  · exact ⟨s, s.hostPc, s.replies, rfl, .inl rfl⟩
  · rename_i a _
    obtain ⟨l, hl⟩ := s.recorded_eq a
    exact ⟨_, s.hostPc + 1, l, by rw [hl], .inr (.inr ⟨a, rfl⟩)⟩
  · dsimp only; split
    · exact poll (locate s.params (BitVec.ofNat 17 RegName.status.offset).toNat) (s.pollRead (BitVec.ofNat 17 RegName.status.offset)).1.hostPc
    · exact poll _ _
  · dsimp only; split
    · exact poll _ _
    · exact poll _ _

/-- One step is one agent's turn, on the state with the turn taken off the agenda. -/
theorem step_cases {s t : State} (h : step s = .next t) :
    ∃ s0, (∃ rest, s0 = { s with agenda := rest }) ∧
      (engineTurn s0 = .next t ∨ t = s0.hostTurn ∨ (∃ x, t = s0.otherAccess x) ∨ t = s0.engineReset ∨
        t = s0.powerDown) := by
  unfold step at h
  split at h
  · split at h
    · exact ⟨s, ⟨s.agenda, rfl⟩, .inl h⟩
    · cases h; exact ⟨s, ⟨s.agenda, rfl⟩, .inr (.inl rfl)⟩
  · exact ⟨_, ⟨_, rfl⟩, .inl h⟩
  · cases h; exact ⟨_, ⟨_, rfl⟩, .inr (.inl rfl)⟩
  · cases h; exact ⟨_, ⟨_, rfl⟩, .inr (.inr (.inl ⟨_, rfl⟩))⟩
  · cases h; exact ⟨_, ⟨_, rfl⟩, .inr (.inr (.inr (.inl rfl)))⟩
  · cases h; exact ⟨_, ⟨_, rfl⟩, .inr (.inr (.inr (.inr rfl)))⟩

@[simp] theorem run_zero (s : State) : core.run 0 s = .next s := rfl

/-- A run of n + 1 steps is a step and a run of n steps. -/
theorem run_succ_of_step {s t : State} (n : Nat) (h : step s = .next t) : core.run (n + 1) s = core.run n t := by
  have h' : core.step s = .next t := h
  simp only [Host.Core.run, h']

/-- What one step keeps, a run keeps. -/
theorem run_keeps {P : State → Prop} (hstep : ∀ s t : State, P s → step s = .next t → P t) :
    ∀ (n : Nat) (s t : State), P s → core.run n s = .next t → P t := by
  intro n
  induction n with
  | zero => intro s t hs h; cases h; exact hs
  | succ n ih =>
    intro s t hs h
    cases h1 : step s with
    | next u => rw [run_succ_of_step n h1] at h; exact ih u t (hstep s u hs h1) h
    | fault r => cases r
    | refused r =>
      have h' : core.step s = .refused r := h1
      simp only [Host.Core.run, h'] at h
      cases h

end Sys2Proof.Machine
end

