-- ==== Sys2Proof/Machine/Runs.lean ====
section
/-! DEFINITION. The end of a host program's run, and what is observed there (70_reset_and_hazards.md R332). -/

namespace Sys2Proof.Machine

/-- n turns of the engine with nothing in between. -/
def engineTurns : Nat → State → Host.Outcome State Fault Refusal
  | 0, s => .next s
  | n + 1, s =>
    match engineTurn s with
    | .next t => engineTurns n t
    | .fault r => .fault r
    | .refused r => .refused r

/-- The engine, left alone, becomes idle: it is idle, or its command is neither held nor endless (R330, 43_generator.md
R229). For a generator on the entropy source this depends on the words (log 4). -/
def State.Completes (s : State) : Prop := ∃ n t, engineTurns n s = .next t ∧ t.busy = false

/-- The run of the host's program has ended (R332): control has passed beyond its last line, and its last command is
not one that the engine holds or never ends. That command may still be in flight, its step not yet taken. R332 does not
say whether a held or endless command that is not the run's own (another master's, or one an earlier program left) keeps
the run from ending; here any command in flight does (DESIGN CHOICE, log 21). -/
def State.RunEnded (s : State) : Prop := s.prog.length ≤ s.hostPc ∧ s.Completes

/-- What is observed at the end of a run (70_reset_and_hazards.md R332); the configuration registers as they read. -/
structure EndState where
  vregs : List Nat
  res : Word
  status : Word
  cmdLast : Word
  rngLevel : Word
  ctrl : Word
  arg0 : Word
  arg1 : Word
  cfgP : Word
  cfgN0 : Word
  genCfg : Word
  decShift : List Word
  /-- What the program's `rd` and `vst` returned, oldest first. -/
  returned : List Reply
  deriving DecidableEq, Repr

/-- The observable state, which is the end state where the run has ended (R332). -/
def State.endState (s : State) : EndState where
  vregs := (List.range s.params.nvreg).map s.vreg
  res := s.res
  status := s.statusWord
  cmdLast := s.cmdLast
  rngLevel := s.valueAt .rngLevel
  ctrl := s.valueAt .ctrl
  arg0 := s.arg0
  arg1 := s.arg1
  cfgP := s.valueAt .cfgP
  cfgN0 := s.valueAt .cfgN0
  genCfg := s.valueAt .genCfg
  decShift := (List.range s.params.n0Max).map fun b => s.valueAt (.decShift b)
  returned := s.replies.reverse

end Sys2Proof.Machine
end

