-- ==== Sys2Proof/Laws/Runs.lean ====
section
/-! SUPPORT. When the engine, left alone, becomes idle, and when a run of the host's program has ended. -/

namespace Sys2Proof.Machine

@[simp] theorem engineTurns_zero (s : State) : engineTurns 0 s = .next s := rfl

/-- A turn that changes nothing, repeated, changes nothing. -/
theorem engineTurns_of_still {s : State} (h : engineTurn s = .next s) : ∀ n, engineTurns n s = .next s
  | 0 => rfl
  | n + 1 => by simp only [engineTurns, h, engineTurns_of_still h n]

theorem State.completes_of_idle {s : State} (h : s.busy = false) : s.Completes := ⟨0, s, rfl, h⟩

/-- A command that draws no words completes, once the engine is not held (70_reset_and_hazards.md R330). -/
theorem State.completes_of_no_draw {s : State} {f : InFlight} (hf : s.inflight = some f) (hw : s.rngWait = false)
    (hi : ∀ i, decode f.word = .ok i → i.isGenerator = false) : s.Completes := by
  have turn : ∃ code res d, engineTurn s = .next (s.complete code res d) := by
    unfold engineTurn
    simp only [hf, hw]
    cases hd : decode f.word with
    | ok i =>
      obtain ⟨code, res, d, h, -⟩ := exec_completes i s (hi i hd)
      exact ⟨code, res, d, h⟩
    | error e => exact ⟨.illegalCmd, 0, [], rfl⟩
  obtain ⟨code, res, d, h⟩ := turn
  exact ⟨1, _, by simp only [engineTurns, h], s.complete_busy code res d⟩

/-- A held engine does not become idle by itself: a run that ends in one is not ended (R330, R332). -/
theorem State.not_completes_of_held {s : State} (hb : s.busy = true) (hw : s.rngWait = true) : ¬ s.Completes := by
  rintro ⟨n, t, h, ht⟩
  have still : engineTurn s = .next s := by
    unfold engineTurn
    split
    · rfl
    · simp [hw]
  rw [engineTurns_of_still still n] at h
  cases h
  rw [hb] at ht
  cases ht

/-- Past its last line a program's run has ended when the engine is idle (R332). -/
theorem State.runEnded_of_idle {s : State} (hp : s.prog.length ≤ s.hostPc) (h : s.busy = false) : s.RunEnded :=
  ⟨hp, s.completes_of_idle h⟩

end Sys2Proof.Machine
end

