-- ==== Sys2Proof/Laws/Safety.lean ====
section
/-! SUPPORT. The terms of Safety.lean and the model's own operations say the same. -/

namespace Sys2Proof.Machine

theorem popcount_eq_countBelow (n v : Nat) : popcount n v = countBelow n v.testBit := popcount_eq_countP n v

theorem countBelow_zero (f : Nat → Bool) : countBelow 0 f = 0 := rfl

theorem countBelow_succ (n : Nat) (f : Nat → Bool) : countBelow (n + 1) f = countBelow n f + (f n).toNat := by
  rw [countBelow, countBelow, List.range_succ, List.countP_append]
  cases h : f n <;> simp [h]

theorem parityBelow_succ (n : Nat) (f : Nat → Bool) : parityBelow (n + 1) f = (parityBelow n f ^^ f n) := by
  unfold parityBelow
  rw [countBelow_succ]
  rcases Nat.mod_two_eq_zero_or_one (countBelow n f) with h | h <;> cases f n <;> simp [Nat.add_mod, h]

/-- A bit of an XOR of vectors is the parity of their bits. -/
theorem testBit_xorOver_parity (n : Nat) (f : Nat → Nat) (j : Nat) :
    (xorOver n f).testBit j = parityBelow n fun i => (f i).testBit j := by
  induction n with
  | zero => simp [parityBelow, countBelow]
  | succ n ih => rw [xorOver_succ, Nat.testBit_xor, ih, parityBelow_succ]

/-- On an instance with its registers, `Ready` is that the checks pass. -/
theorem State.ready_iff {s : State} {i : Instr} :
    s.Ready i ↔ s.params.legal = true ∧ s.vregs.length = s.params.nvreg ∧ s.preCheck i = none := by
  rw [State.preCheck_eq_none, State.badP_eq_false, State.badBlocks_eq_false, State.badRegs_eq_false]
  constructor
  · rintro ⟨h1, h2, h3, h4, h5, h6⟩
    exact ⟨h1, h2, h3, fun h => ⟨⟨(h4 h).1, (h4 h).2.1⟩, (h4 h).2.2⟩, h5, h6⟩
  · rintro ⟨h1, h2, h3, h4, h5, h6⟩
    exact ⟨h1, h2, h3, fun h => ⟨(h4 h).1.1, (h4 h).1.2, (h4 h).2⟩, h5, h6⟩

theorem State.Ready.preCheck_none {s : State} {i : Instr} (h : s.Ready i) : s.preCheck i = none :=
  (State.ready_iff.mp h).2.2

/-- Whatever a power-down leaves, it leaves the shape of the state (60_exceptions.md R297). -/
theorem State.shape_powerDown {s : State} (h : s.params.legal = true) : s.powerDown.Shape where
  legal := h
  vregCount := s.powerDown_vregs_length
  vregWidth := by
    intro v hv
    obtain ⟨r, -, rfl⟩ := List.mem_map.mp (show v ∈ (List.range s.params.nvreg).map _ from hv)
    exact low_lt _ _
  shiftCount := s.powerDown_decShift_length
  fifoFits := s.powerDown_fifo_length_le

/-- A completion differs from the state before in what `CompletesAs` lists. -/
theorem State.completesAs_complete (s : State) (code : ErrCode) (res : Word) (d : List (Nat × Nat)) :
    s.CompletesAs (s.complete code res d) code res := by
  unfold State.CompletesAs State.complete
  rw [State.setVregs_eq s d]

theorem State.completesAs_raise (s : State) (code : ErrCode) (res : Word) :
    s.CompletesAs (s.raise code res) code res := State.completesAs_complete s code res []

end Sys2Proof.Machine
end

