-- ==== Sys2Proof/Tests/Slice0.lean ====
section
/-! SUPPORT. The model's own tests. Expected values are those of spec/95_test_vectors.md and of the rules' examples, with
register numbers below 8; words are written out from 30_encoding.md R101, R104 and R109. The last part shows, for each
obligation with hypotheses, a state that meets them. -/

namespace Sys2Proof.Tests

open Sys2Proof.Machine

/-! ## A small instance: VLEN = 32, NVREG = 8, N0_MAX = 2, RNG_FIFO_DEPTH = 4, at BASE = 256 KiB on line 3 -/

def small : State := State.resetOf { vlen := 32, nvreg := 8, n0Max := 2, fifoDepth := 4, base := 0x40000, irqLine := 3 }

/-- The small instance with its first registers, CFG_P, ARG0 and ARG1 set. -/
def setup (regs : List Nat) (p a0 a1 : Nat) : State :=
  { small with
    vregs := regs ++ List.replicate (8 - regs.length) 0
    cfgP := BitVec.ofNat 16 p
    arg0 := BitVec.ofNat 32 a0
    arg1 := BitVec.ofNat 32 a1 }

/-- The same with the command word w in flight on injected words, at progress p. -/
def running (s : State) (w : Word) (fifo : List Word) (p : Progress) : State :=
  { s with cmdLast := w, fifo := fifo, inflight := some { word := w, rngSrc := true, progress := p } }

/-- Code, RES and registers after one engine step of i. -/
def result (i : Instr) (s : State) : Option (ErrCode × Word × List Nat) :=
  match exec i s with
  | .next t => some (t.err, t.res, t.vregs)
  | .fault _ | .refused _ => none

/-- Progress, FIFO and RNG_WAIT after one engine step of i that does not complete. -/
def drawn (i : Instr) (s : State) : Option (Option Progress × List Word × Bool) :=
  match exec i s with
  | .next t => some (t.inflight.map (·.progress), t.fifo, t.rngWait)
  | .fault _ | .refused _ => none

/-! ## Well-formedness and build parameters -/

theorem test_illformed_pmul : [Instr.pmul 16 0 0, .pmul 0 16 0, .pmul 0 0 16].all (!·.wellFormed) = true := by decide
theorem test_illformed_pinv : [Instr.pinv 16 0, .pinv 0 16, .pinvT 16].all (!·.wellFormed) = true := by decide
theorem test_illformed_vxor : [Instr.vxor 16 0 0, .vxor 0 16 0, .vxor 0 0 16, .vwt 16].all (!·.wellFormed) = true := by
  decide
theorem test_illformed_cmb :
    [Instr.cmbBinom 16, .cmbUnrank 16 0, .cmbUnrank 0 16, .cmbUnrankR 16 0, .cmbUnrankR 0 16, .cmbRank 16 0,
      .cmbRank 0 16].all (!·.wellFormed) = true := by decide
theorem test_illformed_gen :
    [Instr.genRand 16, .genInv 16, .genHash 16 0, .genHash 0 16].all (!·.wellFormed) = true := by decide
theorem test_illformed_dec :
    [Instr.decCw 16 0, .decCw 0 16, .decSyn 16 0 0, .decSyn 0 16 0, .decSyn 0 0 16, .decSynd 16 0 0, .decSynd 0 16 0,
      .decSynd 0 0 16].all (!·.wellFormed) = true := by decide
theorem test_illegal_params :
    [(⟨0, 16, 4, 16, 0, 0⟩ : Params), ⟨48, 16, 4, 16, 0, 0⟩, ⟨32800, 16, 4, 16, 0, 0⟩, ⟨4096, 0, 4, 16, 0, 0⟩,
      ⟨4096, 17, 4, 16, 0, 0⟩, ⟨4096, 16, 0, 16, 0, 0⟩, ⟨4096, 16, 9, 16, 0, 0⟩, ⟨4096, 16, 4, 0, 0, 0⟩,
      ⟨4096, 16, 4, 256, 0, 0⟩, ⟨4096, 16, 4, 16, 0x10000, 0⟩].all (!·.legal) = true := by decide

/-! ## Decoding: OPC, VD, VA, VB, FL, RSV from bit 0 up -/

theorem test_decode_nop : decode 0x00000000 = .ok .nop := by decide
theorem test_decode_pmul : decode 0b00000000_0000_0010_0001_0011_00000001#32 = .ok (.pmul 3 1 2) := by decide
theorem test_decode_pinv : decode 0b00000000_0000_0000_0001_0010_00000010#32 = .ok (.pinv 2 1) := by decide
theorem test_decode_pinvT : decode 0b00000000_0001_0000_0001_0000_00000010#32 = .ok (.pinvT 1) := by decide
theorem test_decode_vxor : decode 0b00000000_0000_1111_1110_1101_00000011#32 = .ok (.vxor 13 14 15) := by decide
theorem test_decode_vwt : decode 0b00000000_0000_0000_0111_0000_00000100#32 = .ok (.vwt 7) := by decide
theorem test_decode_cmbBinom : decode 0b00000000_0000_0000_0000_0101_00010000#32 = .ok (.cmbBinom 5) := by decide
theorem test_decode_cmbUnrank : decode 0b00000000_0000_0000_0001_0010_00010001#32 = .ok (.cmbUnrank 2 1) := by decide
theorem test_decode_cmbUnrankR : decode 0b00000000_0001_0000_0110_0101_00010001#32 = .ok (.cmbUnrankR 5 6) := by decide
theorem test_decode_cmbRank : decode 0b00000000_0000_0000_0010_0011_00010010#32 = .ok (.cmbRank 3 2) := by decide
theorem test_decode_genRand : decode 0b00000000_0000_0000_0000_0001_00100000#32 = .ok (.genRand 1) := by decide
theorem test_decode_genInv : decode 0b00000000_0000_0000_0000_0010_00100001#32 = .ok (.genInv 2) := by decide
theorem test_decode_genHash : decode 0b00000000_0000_0000_1001_0011_00100010#32 = .ok (.genHash 3 9) := by decide
theorem test_decode_decCw : decode 0b00000000_0000_0000_0000_0010_00110000#32 = .ok (.decCw 2 0) := by decide
theorem test_decode_decSyn : decode 0b00000000_0000_0010_0000_0100_00110001#32 = .ok (.decSyn 4 0 2) := by decide
theorem test_decode_decSynd : decode 0b00000000_0000_0010_0000_0110_00110010#32 = .ok (.decSynd 6 0 2) := by decide

/-- The illegal words of spec/95_test_vectors.md 2.5. -/
theorem test_decode_illegal :
    [0x00000100, 0x01000000, 0x00000005, 0x000000FF, 0x00010202, 0x00200002, 0x00100003].map decode =
      [.error .unusedFieldNonzero, .error .reservedNonzero, .error .unassignedOpcode, .error .unassignedOpcode,
        .error .unusedFieldNonzero, .error .wrongFlags, .error .wrongFlags] := by decide

theorem test_text : (Instr.pmul 3 1 12).text = "pmul v3, v1, v12" := by decide

/-! ## Commands -/

theorem test_nop_completes : result .nop (setup [5] 0 0 0) = some (.ok, 0, [5, 0, 0, 0, 0, 0, 0, 0]) := by decide

theorem test_pmul_example :
    result (.pmul 3 1 2) (setup [0, 0x7, 0x25] 7 0 0) = some (.ok, 0, [0, 0x7, 0x25, 0x7A, 0, 0, 0, 0]) := by decide
theorem test_pmul_source_is_destination :
    result (.pmul 1 1 1) (setup [0, 0x3] 7 0 0) = some (.ok, 0, [0, 0x5, 0, 0, 0, 0, 0, 0]) := by decide

theorem test_pinv_inverse :
    result (.pinv 2 1) (setup [0, 0x7, 9] 8 0 0) = some (.ok, 1, [0, 0x7, 0xB6, 0, 0, 0, 0, 0]) := by decide
theorem test_pinv_none :
    result (.pinv 2 1) (setup [0, 0xB, 9] 7 0 0) = some (.noInverse, 0, [0, 0xB, 9, 0, 0, 0, 0, 0]) := by decide
theorem test_pinvT_yes :
    result (.pinvT 1) (setup [0, 0x19] 7 0 0) = some (.ok, 1, [0, 0x19, 0, 0, 0, 0, 0, 0]) := by decide
theorem test_pinvT_no :
    result (.pinvT 1) (setup [0, 0xB] 7 0 0) = some (.noInverse, 0, [0, 0xB, 0, 0, 0, 0, 0, 0]) := by decide

theorem test_vxor_ignores_p :
    result (.vxor 3 1 2) (setup [0, 0x7, 0x80000012] 0 0 0) =
      some (.ok, 0, [0, 0x7, 0x80000012, 0x80000015, 0, 0, 0, 0]) := by decide

theorem test_vwt_prefix : (result (.vwt 1) (setup [0, 0x1089] 0 8 0)).map (·.2.1) = some 3 := by decide
theorem test_vwt_too_long : (result (.vwt 1) (setup [0, 0x1089] 0 33 0)).map (·.1) = some .badArg := by decide

theorem test_cmbBinom_value :
    result (.cmbBinom 5) (setup [] 0 5 3) = some (.ok, 4, [0, 0, 0, 0, 0, 10, 0, 0]) := by decide
theorem test_cmbBinom_k_above_n :
    result (.cmbBinom 0) (setup [7] 0 5 6) = some (.ok, 0, [0, 0, 0, 0, 0, 0, 0, 0]) := by decide

theorem test_cmbUnrank_index_3 :
    result (.cmbUnrank 2 1) (setup [0, 3] 0 5 3) = some (.ok, 0, [0, 3, 0xD, 0, 0, 0, 0, 0]) := by decide
theorem test_cmbUnrank_index_range :
    result (.cmbUnrank 2 1) (setup [0, 10, 7] 0 5 3) = some (.indexRange, 0, [0, 10, 7, 0, 0, 0, 0, 0]) := by decide

theorem test_cmbUnrankR_reduces :
    result (.cmbUnrankR 5 6) (setup [0, 0, 0, 0, 0, 0, 13] 0 5 3) = some (.ok, 0, [0, 0, 0, 0, 0, 0xD, 13, 0]) := by
  decide

theorem test_cmbRank_last :
    result (.cmbRank 3 2) (setup [0, 0, 0x1C] 0 5 3) = some (.ok, 0, [0, 0, 0x1C, 9, 0, 0, 0, 0]) := by decide
theorem test_cmbRank_bit_at_n :
    result (.cmbRank 3 2) (setup [0, 0, 0x25, 7] 0 5 3) = some (.badArg, 0, [0, 0, 0x25, 7, 0, 0, 0, 0]) := by decide

/-- GEN_RAND, size 10: the word 0xC gives index 12, which is rejected but counts as a draw. -/
theorem test_genRand_rejected_draw :
    drawn (.genRand 1) (running (setup [] 0 10 3) 0x120 [0xC, 0x13] ⟨0x8, 1, 1, 0⟩) =
      some (some ⟨0x8, 1, 2, 0⟩, [0x13], false) := by decide
theorem test_genRand_finish :
    result (.genRand 1) (running (setup [] 0 10 3) 0x120 [] ⟨0x89, 3, 5, 0⟩) =
      some (.ok, 5, [0, 0x89, 0, 0, 0, 0, 0, 0]) := by decide

/-- GEN_INV, size 7: {0,1,3} is not invertible, so attempt 2 begins; {0,1,4} is accepted. -/
theorem test_genInv_retry :
    drawn (.genInv 2) (running (setup [] 0 7 3) 0x221 [0, 1] ⟨0xB, 3, 3, 1⟩) = some (some ⟨0x1, 1, 1, 2⟩, [1], false) := by
  decide
theorem test_genInv_accept :
    result (.genInv 2) (running (setup [] 0 7 3) 0x221 [] ⟨0x13, 3, 3, 2⟩) = some (.ok, 2, [0, 0, 0x13, 0, 0, 0, 0, 0]) := by
  decide

theorem test_genHash_prefix :
    result (.genHash 3 1) (setup [0, 0x1226] 0 10 3) =
      some (.ok, 0x00060003, [0, 0x1226, 0, 0x26, 0, 0, 0, 0]) := by decide
theorem test_genHash_short :
    result (.genHash 3 1) (setup [0, 0x1226, 0, 7] 0 10 5) =
      some (.hashShort, 0x000A0004, [0, 0x1226, 0, 7, 0, 0, 0, 0]) := by decide

/-- The P = 5 decoder example of spec/95_test_vectors.md 2.4, and its syndrome. -/
theorem test_decSyn_small :
    result (.decSyn 5 0 7) (setup [0x3, 0xB, 0, 0, 0, 0, 0, 0x3] 5 0 0) =
      some (.ok, 2, [0x3, 0xB, 0, 0, 0, 0x1F, 0x05, 0x3]) := by decide
theorem test_decSynd_small :
    (result (.decSynd 2 0 5) (setup [0x3, 0xB, 0, 0, 0, 0x1F, 0x05, 0] 5 0 0)).map (fun x => (x.1, x.2.2.getD 2 0)) =
      some (.ok, 0x3) := by decide

/-- The codeword of spec/95_test_vectors.md 2.4 with bit 4 flipped (P = 31). -/
theorem test_decCw_one_error :
    result (.decCw 2 0) (setup [0x360988, 0x8458904, 0x2091A200, 0x11906C00] 31 0 0) =
      some (.ok, 1, [0x360988, 0x8458904, 0x2091A210, 0x11906C00, 0, 0, 0, 0]) := by decide +kernel
/-- BAD_CFG comes before BAD_REG. -/
theorem test_decCw_check_order : (result (.decCw 0 7) (setup [] 0 0 0)).map (·.1) = some .badCfg := by decide

/-! ## Aperture and steps -/

theorem test_identification :
    [0x000#17, 0x004#17, 0x008#17, 0x014#17, 0x02C#17, 0x030#17, 0x040#17].map
        (fun off => (State.reset.access (.read off .w32)).2) =
      [0x47460007#32, 0x04101000#32, 0x0010050A#32, 0#32, 2#32, 0x01000000#32, 1#32].map (fun w => some (.data w)) := by
  decide

/-- `wr CMD, 0x100` from reset: an illegal word is accepted and ends with STATUS = 0x102. -/
theorem test_illegal_command :
    (match step { (small.access (.write 0x018 .w32 0x100)).1 with agenda := [.engine] } with
      | .next t => some (t.statusWord, t.res)
      | .fault _ | .refused _ => none) = some (0x102, 0) := by decide

theorem test_fetched_word_runs :
    (match step (small.withFetchWord 32 0x00000000) with
      | .next t => some (t.statusWord, t.cmdLast)
      | .fault _ | .refused _ => none) = some (0x002, 0) := by decide

theorem test_branch_and_label :
    assemble small.params [.label 1, .wait, .br .status 11 8 false 0 1, .setp 7] =
      [.wait, .branch 0x014 11 8 false 0 0, .access (.write 0x028 .w32 7)] := by decide

/-- The byte-to-bit packing of spec/95_test_vectors.md 1.3. -/
theorem test_byte_order :
    packBytes [0x26, 0x12] = 0x1226 ∧ (setup [0, 0x1226] 0 0 0).imageByte 1 0 = 0x26 ∧
      (setup [0, 0x1226] 0 0 0).imageByte 1 1 = 0x12 := by decide

/-- `nop!`, then `rd RES`, from reset: the run ends with STATUS = 2, and an earlier program's reply is not among what
this one's `rd` returned (40_execution.md R137, 70_reset_and_hazards.md R332). -/
theorem test_program_runs_to_its_end :
    ∃ t, core.run 4 ({ small with replies := [.data 9] }.withProgram [.cmdWait .nop, .rd .res]) = .next t ∧ t.RunEnded ∧
      t.endState.status = 0x002 ∧ t.endState.returned = [.data 0] :=
  ⟨_, rfl, State.runEnded_of_idle (by decide) (by decide), by decide, by decide⟩

/-- A last command that nobody waits for and the engine has not stepped yet (R332). -/
theorem test_unwaited_last_command_ends_the_run :
    ∃ t, core.run 1 (small.withProgram [.cmd .nop]) = .next t ∧ t.busy = true ∧ t.RunEnded :=
  ⟨_, rfl, rfl, by decide, State.completes_of_no_draw rfl rfl fun i h => by
    have hn : decode 0 = .ok .nop := by decide
    rw [show decode 0 = .ok i from h] at hn; cases hn; rfl⟩

/-- BASE + 0x024 is RES; the address below BASE and the one 128 KiB above it are not the engine's (20_memory.md R70). -/
theorem test_bus_addresses :
    let s := { small with res := 7 }
    (s.transfer (.read 0x40024 .w32)).2 = some (.data 7) ∧ (s.transfer (.read 0x3FFFC .w32)).2 = none ∧
      (s.transfer (.write 0x60018 .w32 0)).1 = s ∧ (s.transfer (.write 0x40018 .w32 0)).1.busy = true := by decide

/-- The reset after a power-down gives the values of 70_reset_and_hazards.md R320 (60_exceptions.md R297), and the power-down
before it leaves the parameters and the host (log 16). -/
theorem test_reset_after_power_down :
    core.run 2 { setup [1] 7 4 3 with agenda := [.powerDown, .reset] } = .next { small with powerDowns := 1 } ∧
      ∃ t, core.run 1 { small with prog := [.wait], agenda := [.powerDown] } = .next t ∧ t.params = small.params ∧
        t.prog = [.wait] := ⟨rfl, _, rfl, rfl, rfl⟩

/-- `irq` drives the one line the platform gave it (60_exceptions.md R286). -/
theorem test_irq_line :
    let s := { small with ie := true, done := true }
    s.irqAt 3 = true ∧ s.irqAt 0 = false := by decide

/-! ## Witnesses: each obligation's hypotheses can be met, each clause at a boundary of its range -/

/-- A busy engine: the word w in flight on injected words, no draw made. -/
def busyWith (w : Word) (fifo : List Word) : State := running (setup [1, 1] 7 4 3) w fifo ⟨0, 0, 0, 0⟩

theorem ready_of {s : State} {i : Instr} (h : (s.params.legal && s.vregs.length == s.params.nvreg &&
    (s.preCheck i).isNone) = true) : s.Ready i := by
  simp only [Bool.and_eq_true, beq_iff_eq, Option.isNone_iff_eq_none] at h
  exact State.ready_iff.mpr ⟨h.1.1, h.1.2, h.2⟩

theorem busyWith_inv (w : Word) : (busyWith w [5]).Inv where
  legal := (by decide : small.params.legal = true)
  vregCount := rfl
  vregWidth := (by decide : ∀ v ∈ (setup [1, 1] 7 4 3).vregs, v < 2 ^ 32)
  shiftCount := rfl
  fifoFits := (by decide : 1 ≤ 4)
  busyClean := by rintro f h; cases h; exact ⟨rfl, rfl, rfl⟩
  waitHeld := by intro h; cases h
  progressSound := by
    rintro f h
    cases h
    exact ⟨(by decide : 0 < 2 ^ 4), (by decide : countBelow 4 (0 : Nat).testBit = 0), Nat.zero_le _,
      fun h => absurd rfl h, fun _ => Nat.zero_le _⟩

/-- A held generator. -/
theorem held_inv : { busyWith 0x120 [] with rngWait := true }.Inv where
  legal := by decide
  vregCount := by decide
  vregWidth := by decide
  shiftCount := by decide
  fifoFits := by decide
  busyClean := by rintro f h; cases h; exact ⟨rfl, rfl, rfl⟩
  waitHeld := by intro _; exact ⟨_, .genRand 1, rfl, rfl, rfl, by decide, rfl⟩
  progressSound := by
    rintro f h
    cases h
    exact ⟨by decide, by decide, by decide, fun h => absurd rfl h, fun _ => by decide⟩

theorem test_witness_EncodedCommandDecodesToItself :
    (Instr.decSyn 15 0 15).wellFormed = true ∧ (Instr.genInv 15).wellFormed = true := by decide
theorem test_witness_DecodedWordIsTheEncoding : decode 0x000FFF32 = .ok (.decSynd 15 15 15) := by decide

theorem test_witness_EngineTurnRunsTheDecodedCommand :
    ∃ f i, (busyWith 0x120 [5]).inflight = some f ∧ decode f.word = .ok i ∧ (busyWith 0x120 [5]).rngWait = false ∧
      (busyWith 0x120 [5]).agenda = [] := ⟨_, .genRand 1, rfl, by decide, rfl, rfl⟩
theorem test_witness_EngineTurnRunsTheDecodedCommand_agenda :
    let s := { busyWith 0x7004 [] with agenda := [.engine, .host] }
    ∃ f i, s.inflight = some f ∧ decode f.word = .ok i ∧ s.rngWait = false ∧ s.agenda = .engine :: [.host] :=
  ⟨_, .vwt 7, rfl, by decide, rfl, rfl⟩
theorem test_witness_IllegalWordCompletesWithIllegalCmd :
    let s := { busyWith 0x100 [] with agenda := [.engine] }
    ∃ f e, s.inflight = some f ∧ decode f.word = .error e ∧ s.rngWait = false ∧ s.agenda = .engine :: [] :=
  ⟨_, .unusedFieldNonzero, rfl, by decide, rfl, rfl⟩
theorem test_witness_EveryStepKeepsTheInvariant :
    (busyWith 0x120 [5]).Inv ∧ (∀ rest, (busyWith 0x120 [5]).agenda ≠ .powerDown :: rest) ∧
      ∃ t, step (busyWith 0x120 [5]) = .next t := ⟨busyWith_inv _, fun _ h => (by cases h), _, rfl⟩
theorem test_witness_EveryStepKeepsTheInvariant_powerDown :
    let s := { busyWith 0x120 [5] with agenda := [.powerDown] }
    s.Shape ∧ ∃ t, step s = .next t :=
  ⟨⟨by decide, by decide, by decide, by decide, by decide⟩, _, rfl⟩
theorem test_witness_ResetStateMeetsTheInvariant : (busyWith 0x120 [5]).params.legal = true := by decide
theorem test_witness_EveryStepKeepsTheInvariant_held :
    { busyWith 0x120 [] with rngWait := true }.Inv ∧ ∃ t, step { busyWith 0x120 [] with rngWait := true } = .next t :=
  ⟨held_inv, _, rfl⟩

theorem test_witness_NonGeneratorsCompleteInOneStep : (Instr.genHash 0 0).isGenerator = false := rfl

/-- P = 0 and P = VLEN + 1; n0 = 0 and n0 = N0_MAX + 1; a shift equal to P; a register, and a block end, at NVREG. -/
theorem test_witness_ChecksReportTheFirstFailure :
    ¬ (1 ≤ (setup [] 0 0 0).P) ∧ ¬ ((setup [] 33 0 0).P ≤ 32) ∧ ¬ (1 ≤ { setup [] 7 0 0 with cfgN0 := 0 }.n0) ∧
      ¬ ({ setup [] 7 0 0 with cfgN0 := 3 }.n0 ≤ 2) ∧ (setup [] 1 0 0).P ≤ (setup [] 1 0 0).shift 0 ∧
      (setup [] 7 0 0).params.nvreg ≤ 8 ∧ (setup [] 7 0 0).params.nvreg ≤ 7 + (setup [] 7 0 0).n0 - 1 := by decide
theorem test_witness_ChecksReportTheFirstFailure_busy : (busyWith 0x120 []).inflight ≠ none := by decide

theorem test_witness_BadArgumentsAreReported_vwt :
    (setup [] 0 33 0).Ready (.vwt 7) ∧ (setup [] 0 33 0).params.vlen < (setup [] 0 33 0).n := ⟨ready_of (by decide), by decide⟩
theorem test_witness_BadArgumentsAreReported_cmb :
    (setup [] 0 5 6).Ready (.cmbUnrank 0 1) ∧ (setup [] 0 5 6).n < (setup [] 0 5 6).k := ⟨ready_of (by decide), by decide⟩
theorem test_witness_BadArgumentsAreReported_rank :
    (setup [0x20] 0 5 1).Ready (.cmbRank 1 0) ∧ 5 ≤ 5 ∧ ((setup [0x20] 0 5 1).vreg 0).testBit 5 = true :=
  ⟨ready_of (by decide), by decide, by decide⟩
theorem test_witness_BadArgumentsAreReported_gen :
    (busyWith 0x120 []).Ready (.genInv 0) ∧ (busyWith 0x120 []).inflight ≠ none ∧
      { busyWith 0x120 [] with arg1 := 2 }.k % 2 = 0 ∧ { busyWith 0x120 [] with arg0 := 0 }.n < 1 :=
  ⟨ready_of (by decide), by decide, by decide, by decide⟩

theorem test_witness_ErrorCompletionWritesNoRegister :
    ∃ t, exec (.pinv 1 2) (busyWith 0x2102 []) = .next t ∧ t.inflight = none ∧ t.err ≠ .ok := ⟨_, rfl, by decide, by decide⟩
theorem test_witness_CommandsTouchOnlyTheirRow : ∃ t, exec (.genRand 1) (busyWith 0x120 [5]) = .next t := ⟨_, rfl⟩
theorem test_witness_SourceBitsAtOrAbovePAreIgnored :
    let s := setup [0, 0x7] 7 0 0
    let l := [0x80, 0x107, 0, 0, 0, 0, 0, 0x80000000]
    (Instr.pmul 2 1 1).usesP = true ∧ l.length = s.vregs.length ∧
      (∀ r, r < 8 → ∀ j, j < s.P → ({ s with vregs := l }.vreg r).testBit j = (s.vreg r).testBit j) ∧
      (∀ r, 8 ≤ r → ({ s with vregs := l }.vreg r) = s.vreg r) ∧ ∃ t, exec (.pmul 2 1 1) s = .next t := by
  refine ⟨rfl, rfl, by decide, fun r hr => ?_, _, rfl⟩
  simp [State.vreg, setup, small, State.resetOf, hr]
theorem test_witness_DestinationBitsAtOrAboveTheLengthAreZero :
    (busyWith 0x1101 [5]).Inv ∧ (busyWith 0x1101 [5]).Ready (.pmul 1 1 0) ∧ (busyWith 0x1101 [5]).inflight ≠ none ∧
      ∃ t, exec (.pmul 1 1 0) (busyWith 0x1101 [5]) = .next t ∧ t.inflight = none ∧ t.err = .ok :=
  ⟨busyWith_inv _, ready_of (by decide), by decide, _, rfl, by decide, by decide⟩
theorem test_witness_DestinationBitsAtOrAboveTheLengthAreZero_hash :
    let s := { busyWith 0x122 [5] with arg1 := 1, vregs := List.replicate 8 8 }
    s.Ready (.genHash 1 0) ∧ ∃ t, exec (.genHash 1 0) s = .next t ∧ t.inflight = none ∧ t.err = .ok :=
  ⟨ready_of (by decide), _, rfl, by decide, by decide⟩
theorem test_witness_CompletionRaisesTheEnabledInterrupt :
    ∃ t, exec .nop { busyWith 0 [] with ie := true } = .next t ∧ t.inflight = none ∧ t.irqAt 3 = true ∧ t.irqAt 2 = false :=
  ⟨_, rfl, rfl, by decide, by decide⟩

theorem test_witness_PmulIsTheCyclicConvolution : (setup [] 32 0 0).Ready (.pmul 7 7 0) := ready_of (by decide)
theorem test_witness_PinvWritesTheInverseOrReportsNone : (setup [] 1 0 0).Ready (.pinv 7 0) := ready_of (by decide)
theorem test_witness_PinvFailsExactlyOnACommonDivisor :
    (setup [] 1 0 0).Ready (.pinv 7 0) ∧ ∃ t, exec (.pinv 7 0) (setup [] 1 0 0) = .next t := ⟨ready_of (by decide), _, rfl⟩
theorem test_witness_PinvTTestsWithoutWriting :
    (setup [1] 1 0 0).Ready (.pinvT 0) ∧ ringMul 1 (low 1 ((setup [1] 1 0 0).vreg 0)) 1 = 1 ∧
      ∀ b, b < 2 ^ 1 → ringMul 1 (low 1 ((setup [0] 1 0 0).vreg 0)) b ≠ 1 :=
  ⟨ready_of (by decide), by decide, by decide⟩
theorem test_witness_EvenWeightHasNoInverse :
    (setup [0x3] 7 0 0).Ready (.pinv 1 0) ∧ countBelow (setup [0x3] 7 0 0).P ((setup [0x3] 7 0 0).vreg 0).testBit % 2 = 0 :=
  ⟨ready_of (by decide), by decide⟩
theorem test_witness_RingProductObeysTheRingLaws :
    1 ≤ 7 ∧ 0x7 < 2 ^ 7 ∧ 0x6D < 2 ^ 7 ∧ ringMul 7 0x7 0x6D = 1 := by decide
theorem test_witness_VxorAddsWholeRegisters : (setup [] 0 0 0).Ready (.vxor 7 7 7) := ready_of (by decide)
theorem test_witness_VwtCountsThePrefix :
    (setup [] 0 32 0).Ready (.vwt 7) ∧ (setup [] 0 32 0).n ≤ 32 ∧ 32 < (setup [] 0 33 0).n :=
  ⟨ready_of (by decide), by decide, by decide⟩

theorem test_witness_CmbBinomWritesTheBinomialCoefficient :
    (setup [] 0 32 16).Ready (.cmbBinom 7) ∧ (setup [] 0 32 16).n ≤ 32 ∧ 32 < (setup [] 0 33 0).n :=
  ⟨ready_of (by decide), by decide, by decide⟩
/-- The last index, and the first one out of range. -/
theorem test_witness_CmbUnrankWritesAKSubset :
    (setup [9, 10] 0 5 3).Ready (.cmbUnrank 7 0) ∧ (setup [9, 10] 0 5 3).n ≤ 32 ∧
      (setup [9, 10] 0 5 3).vreg 0 < Nat.choose 5 3 ∧ Nat.choose 5 3 ≤ (setup [9, 10] 0 5 3).vreg 1 :=
  ⟨ready_of (by decide), by decide, by decide, by decide⟩
theorem test_witness_CmbUnrankIsLexicographic :
    let s := setup [8] 0 5 3
    let s' := setup [9] 0 5 3
    s.Ready (.cmbUnrank 7 0) ∧ s'.Ready (.cmbUnrank 7 0) ∧ s.n ≤ s.params.vlen ∧ s.k ≤ s.n ∧ s'.params = s.params ∧
      s'.n = s.n ∧ s'.k = s.k ∧ s.vreg 0 < s'.vreg 0 ∧ s'.vreg 0 < s.n.choose s.k ∧
      (∃ t, exec (.cmbUnrank 7 0) s = .next t) ∧ ∃ t, exec (.cmbUnrank 7 0) s' = .next t :=
  ⟨ready_of (by decide), ready_of (by decide), by decide, by decide, rfl, rfl, rfl, by decide, by decide, ⟨_, rfl⟩, _, rfl⟩
theorem test_witness_CmbUnrankRReducesTheIndex :
    (setup [13] 0 5 3).Ready (.cmbUnrankR 7 0) ∧ (setup [13] 0 5 3).n ≤ 32 ∧ (setup [13] 0 5 3).k ≤ (setup [13] 0 5 3).n :=
  ⟨ready_of (by decide), by decide, by decide⟩
theorem test_witness_CmbRankSumsTheSkippedCounts :
    (setup [0x1C] 0 5 3).Ready (.cmbRank 7 0) ∧ (setup [0x1C] 0 5 3).n ≤ 32 ∧
      countBelow 32 ((setup [0x1C] 0 5 3).vreg 0).testBit = 3 ∧ (setup [0x1C] 0 5 3).vreg 0 < 2 ^ 5 :=
  ⟨ready_of (by decide), by decide, by decide, by decide⟩
theorem test_witness_CmbRankUndoesCmbUnrank :
    (setup [9] 0 5 3).Ready (.cmbUnrank 1 0) ∧ (setup [9] 0 5 3).Ready (.cmbRank 0 1) ∧
      ∃ t, exec (.cmbUnrank 1 0) (setup [9] 0 5 3) = .next t ∧ t.err = .ok :=
  ⟨ready_of (by decide), ready_of (by decide), _, rfl, by decide⟩
theorem test_witness_CmbUnrankUndoesCmbRank :
    (setup [0x1C] 0 5 3).Ready (.cmbRank 1 0) ∧ (setup [0x1C] 0 5 3).Ready (.cmbUnrank 0 1) ∧
      ∃ t, exec (.cmbRank 1 0) (setup [0x1C] 0 5 3) = .next t ∧ t.err = .ok :=
  ⟨ready_of (by decide), ready_of (by decide), _, rfl, by decide⟩

/-- A generator in flight with size 7, weight 3, at progress p, MAXDRAW and MAXTRY as given. -/
def generating (p : Progress) (maxDraw maxTry : BitVec 16) (fifo : List Word) : State :=
  { running (setup [] 0 7 3) 0x120 fifo p with maxDraw := maxDraw, maxTry := maxTry }

theorem generating_args (p : Progress) (maxDraw maxTry : BitVec 16) (fifo : List Word) :
    let s := generating p maxDraw maxTry fifo
    1 ≤ s.n ∧ s.n ≤ s.params.vlen ∧ s.k ≤ s.n ∧ s.k % 2 = 1 ∧ s.Ready (.genRand 7) ∧ s.Ready (.genInv 7) ∧
      s.inflight = some { word := 0x120, rngSrc := true, progress := p } := by
  have hn : (generating p maxDraw maxTry fifo).n = 7 := rfl
  have hk : (generating p maxDraw maxTry fifo).k = 3 := rfl
  have hv : (generating p maxDraw maxTry fifo).params.vlen = 32 := rfl
  have hl : small.params.legal = true := by decide
  dsimp only
  rw [hn, hk, hv]
  exact ⟨by decide, by decide, by decide, by decide,
    ⟨hl, rfl, fun h => (by cases h), fun h => (by cases h), (by decide : ∀ r ∈ [7], r < 8), fun _ h => (by cases h)⟩,
    ⟨hl, rfl, fun h => (by cases h), fun h => (by cases h), (by decide : ∀ r ∈ [7], r < 8), fun _ h => (by cases h)⟩, rfl⟩

theorem test_witness_GenRandFinishesAtItsWeight : 3 ≤ (⟨0x13, 3, 3, 0⟩ : Progress).cnt ∧ 0x13 < 2 ^ 7 := by decide
/-- The last draw the cap allows, and no cap; on injected words with and without one, and on the entropy source. -/
theorem test_witness_GeneratorsDrawOneWordOrAreHeld :
    (generating ⟨0x3, 2, 4, 1⟩ 5 0 [6]).fifo = 6 :: [] ∧ (generating ⟨0x3, 2, 4, 1⟩ 5 0 []).fifo = [] ∧ 2 < 3 ∧
      (4 : Nat) ≠ (5 : BitVec 16).toNat ∧ (generating ⟨0x3, 2, 4, 1⟩ 0 0 []).maxDraw = 0 ∧
      ({ word := 0x120, rngSrc := false, progress := ⟨0x3, 2, 4, 1⟩ } : InFlight).rngSrc = false := by decide
theorem test_witness_DrawCapExhaustsTheGenerators :
    (generating ⟨0x3, 2, 5, 1⟩ 5 0 []).maxDraw ≠ 0 ∧ 2 < 3 ∧ 5 = (generating ⟨0x3, 2, 5, 1⟩ 5 0 []).maxDraw.toNat := by decide
theorem not_acceptable_0xB : ¬ AcceptableVector 7 0xB := by
  rintro ⟨⟨b, hb, h⟩, -⟩
  revert b
  decide
theorem test_witness_GenInvAcceptsOrRetries :
    AcceptableVector 7 0x13 ∧ ¬ AcceptableVector 7 0xB ∧ (2 : Nat) = (generating ⟨0xB, 3, 3, 2⟩ 0 2 []).maxTry.toNat ∧
      (1 : Nat) ≠ (generating ⟨0xB, 3, 3, 1⟩ 0 2 [0]).maxTry.toNat ∧ (generating ⟨0, 0, 0, 0⟩ 0 2 [0]).fifo = 0 :: [] :=
  ⟨⟨⟨0x6B, by decide, by decide⟩, by decide⟩, not_acceptable_0xB, by decide, by decide, rfl⟩
/-- A fresh command and a rejected vector, each with an empty FIFO and on the entropy source. -/
theorem test_witness_GenInvAcceptsOrRetries_held_and_entropy :
    (generating ⟨0, 0, 0, 0⟩ 0 2 []).fifo = [] ∧ (generating ⟨0xB, 3, 3, 1⟩ 0 2 []).fifo = [] ∧
      let s := { generating ⟨0xB, 3, 3, 1⟩ 0 2 [] with inflight := some { word := 0x221, rngSrc := false, progress := ⟨0xB, 3, 3, 1⟩ } }
      s.Ready (.genInv 7) ∧ ∃ f, s.inflight = some f ∧ f.rngSrc = false ∧ s.k ≤ f.progress.cnt ∧
        ¬ AcceptableVector s.n f.progress.vec :=
  ⟨rfl, rfl, ready_of (by decide), _, rfl, rfl, by decide, not_acceptable_0xB⟩
theorem test_witness_HeldGeneratorTurnsChangeNothing :
    ∃ t, exec (.genRand 1) (generating ⟨0, 0, 0, 0⟩ 0 0 []) = .next t ∧ t.inflight ≠ none ∧ 1 ≤ t.params.fifoDepth :=
  ⟨_, rfl, by decide, by decide⟩
theorem test_witness_GenRandRunTakesItsWordsInOrder :
    let s := { setup [] 0 10 1 with rngSrc := true, fifo := [3, 9] }
    let p : Nat → Progress := fun j => if j = 0 then ⟨0, 0, 0, 0⟩ else ⟨8, 1, 1, 0⟩
    s.Ready (.genRand 1) ∧ s.agenda = [] ∧ s.inflight = none ∧ decode 0x120 = .ok (.genRand 1) ∧ s.rngSrc = true ∧
      s.rngWait = false ∧ s.fifo = [3] ++ [9] ∧
      1 ≤ s.n ∧ s.n ≤ s.params.vlen ∧ s.k ≤ s.n ∧ p 0 = ⟨0, 0, 0, 0⟩ ∧
      (∀ j, (h : j < [(3 : Word)].length) → (p j).DrawnTo (p (j + 1)) s.n [(3 : Word)][j] ∧ (p j).cnt < s.k ∧
        (s.maxDraw = 0 ∨ j < s.maxDraw.toNat)) ∧ (p [(3 : Word)].length).cnt = s.k := by
  refine ⟨ready_of (by decide), rfl, rfl, by decide, rfl, rfl, rfl, by decide, by decide, by decide, rfl, ?_, by decide⟩
  intro j h
  have hj : j = 0 := by simpa using h
  subst hj
  have h8 : (8 : Nat) = 1 <<< 3 := rfl
  have hidx : (3 : Word).toNat % 2 ^ ((setup [] 0 10 1).n - 1).size = 3 := by decide
  have hlt : (3 : Word).toNat % 2 ^ ((setup [] 0 10 1).n - 1).size < (setup [] 0 10 1).n := by decide
  refine ⟨⟨rfl, rfl, .inl ⟨hlt, Nat.zero_testBit _, rfl, fun j => ?_⟩⟩, by decide, .inl rfl⟩
  show (8 : Nat).testBit j = ((0 : Nat).testBit j || decide (j = (3 : Word).toNat % 2 ^ ((setup [] 0 10 1).n - 1).size))
  rw [hidx, h8, testBit_one_shiftLeft, Nat.zero_testBit, Bool.false_or]
  exact decide_eq_decide.mpr eq_comm
theorem test_witness_GenRandWithADrawCapCompletes :
    let s := { setup [] 0 7 3 with maxDraw := 1 }
    s.agenda = [] ∧ s.rngWait = false ∧ s.inflight = none ∧ decode 0x120 = .ok (.genRand 1) ∧ s.rngSrc = false ∧
      s.maxDraw ≠ 0 := by decide
theorem test_witness_GeneratedVectorsHaveTheirWeight :
    let s := running (setup [] 0 7 3) 0x221 [] ⟨0x13, 3, 3, 2⟩
    s.Inv ∧ s.inflight ≠ none ∧ ∃ t, exec (.genInv 2) s = .next t ∧ t.inflight = none ∧ t.err = .ok := by
  refine ⟨⟨⟨by decide, by decide, by decide, by decide, by decide⟩, ?_, fun h => (by cases h), ?_⟩, by decide, _, rfl, by decide,
    by decide⟩
  · rintro f h; cases h; exact ⟨rfl, rfl, rfl⟩
  · rintro f h; cases h; exact ⟨by decide, by decide, by decide, fun h => absurd rfl h, fun _ => by decide⟩
theorem test_witness_GenHashTakesTheFirstOnes :
    (setup [0x26] 0 6 3).Ready (.genHash 1 0) ∧ 1 ≤ (setup [0x26] 0 6 3).n ∧ (setup [0x26] 0 6 3).n ≤ 32 ∧
      3 ≤ countBelow 6 ((setup [0x26] 0 6 3).vreg 0).testBit ∧ countBelow 5 ((setup [0x26] 0 5 3).vreg 0).testBit < 3 :=
  ⟨ready_of (by decide), by decide, by decide, by decide, by decide⟩

theorem test_witness_DecSyndComputesTheSyndrome : (setup [] 32 0 0).Ready (.decSynd 7 6 0) := ready_of (by decide)
theorem test_witness_DecCwWritesACodewordOrFails : (setup [] 32 0 0).Ready (.decCw 6 0) := ready_of (by decide)
theorem test_witness_DecSynWritesAPatternOfTheSyndromeOrFails : (setup [] 32 0 0).Ready (.decSyn 6 0 7) :=
  ready_of (by decide)

/-- P = 1, one block, shift 0: the 1 by 1 matrix h. -/
def oneByOne (h z : Nat) : State := { setup [h, 0, z] 1 0 0 with cfgN0 := 1, decShift := [0, 0] }

theorem oneByOne_still : (oneByOne 1 1).RoundTo 0 1 0 1 0 := by
  have hq : ∀ q, q < 1 → q = 0 := fun q h => by omega
  refine ⟨0, fun q h => ?_, ⟨0, by decide, by decide⟩, fun q => ?_, fun k => ?_⟩
  · cases hq q h; decide
  · by_cases h : q < 1
    · cases hq q h; decide
    · simp [h, oneByOne, setup, small, State.P, State.n0]
  · by_cases h : k < 1
    · cases hq k h; decide
    · simp [h, oneByOne, setup, small, State.P, State.n0]

/-- With h = 1 and the syndrome 1, one round reaches z = 0. -/
theorem test_witness_DecodersRunTheBitFlippingRounds_decodes :
    let x : Nat → Nat := fun r => if r = 0 then 0 else 1
    let z : Nat → Nat := fun r => if r = 0 then 1 else 0
    (oneByOne 1 1).Ready (.decSyn 1 0 2) ∧ x 0 = 0 ∧ z 0 = low (oneByOne 1 1).P ((oneByOne 1 1).vreg 2) ∧
      z 1 = 0 ∧ (∀ r', r' < 1 → z r' ≠ 0) ∧ ∀ r, (oneByOne 1 1).RoundTo 0 (x r) (z r) (x (r + 1)) (z (r + 1)) := by
  refine ⟨ready_of (by decide), rfl, rfl, rfl, by decide, fun r => ?_⟩
  have bit : ∀ q, (1 : Nat).testBit q = decide (q < 1) := fun q => by
    have h : (1 : Nat) = 1 <<< 0 := rfl
    rw [h, testBit_one_shiftLeft]
    exact decide_eq_decide.mpr (by omega)
  have hq : ∀ q, q < 1 → q = 0 := fun q h => by omega
  cases r with
  | zero =>
    refine ⟨1, fun q h => ?_, ⟨0, by decide, by decide⟩, fun q => ?_, fun k => ?_⟩
    · cases hq q h; decide
    · by_cases h : q < 1
      · cases hq q h; decide
      · simp [bit, h, oneByOne, setup, small, State.P, State.n0]
    · by_cases h : k < 1
      · cases hq k h; decide
      · simp [bit, h, oneByOne, setup, small, State.P, State.n0]
  | succ r => exact oneByOne_still

/-- DEC_CW on the word 0. -/
theorem test_witness_DecodersRunTheBitFlippingRounds_codeword :
    let s := oneByOne 1 0
    s.Ready (.decCw 1 0) ∧
      (∀ q, (0 : Nat).testBit q = (decide (q < s.n0 * s.P) && (s.vreg (1 + q / s.P)).testBit (q % s.P))) ∧
      (∀ k, (0 : Nat).testBit k = (decide (k < s.P) && parityBelow (s.n0 * s.P) fun q =>
        parityEntry s 0 k q && (s.vreg (1 + q / s.P)).testBit (q % s.P))) ∧ s.RoundTo 0 0 0 0 0 := by
  have hq : ∀ q, q < 1 → q = 0 := fun q h => by omega
  refine ⟨ready_of (by decide), fun q => ?_, fun k => ?_, 0, fun q h => ?_, ⟨0, by decide, by decide⟩, fun q => ?_,
    fun k => ?_⟩
  · by_cases h : q < 1
    · cases hq q h; decide
    · simp [h, oneByOne, setup, small, State.P, State.n0]
  · by_cases h : k < 1
    · cases hq k h; decide
    · simp [h, oneByOne, setup, small, State.P, State.n0]
  · cases hq q h; decide
  · by_cases h : q < 1
    · cases hq q h; decide
    · simp [h, oneByOne, setup, small, State.P, State.n0]
  · by_cases h : k < 1
    · cases hq k h; decide
    · simp [h, oneByOne, setup, small, State.P, State.n0]

/-- With h = 0 nothing flips, and the syndrome 1 stays. -/
theorem test_witness_DecodersRunTheBitFlippingRounds_fails :
    (oneByOne 0 1).Ready (.decSyn 1 0 2) ∧ 1 = low (oneByOne 0 1).P ((oneByOne 0 1).vreg 2) ∧
      (oneByOne 0 1).RoundTo 0 0 1 0 1 := by
  have hq : ∀ q, q < 1 → q = 0 := fun q h => by omega
  refine ⟨ready_of (by decide), rfl, 0, fun q h => ?_, ⟨0, by decide, by decide⟩, fun q => ?_, fun k => ?_⟩
  · cases hq q h; decide
  · by_cases h : q < 1
    · cases hq q h; decide
    · simp [h, oneByOne, setup, small, State.P, State.n0]
  · by_cases h : k < 1
    · cases hq k h; decide
    · simp [h, oneByOne, setup, small, State.P, State.n0]

theorem test_witness_NopCompletesOkWithZero : opcOf 0x100 = 0x00 ∧ (0x100 : Word) ≠ 0 := by decide
theorem test_witness_UnalignedOrNarrowAccessIsABusError :
    Width.w16 ≠ .w32 ∧ (0x1FFFF#17).toNat % 4 ≠ 0 ∧ (0x1FFFC#17).toNat % 4 = 0 := by decide
theorem test_witness_CmdWriteIsAcceptedOrDropped : small.inflight = none ∧ (busyWith 0 []).inflight ≠ none := by decide
/-- The first and the last LOCK register and window word of the small instance. -/
theorem test_witness_LockedAccessesAreRefusedWhileBusy :
    (busyWith 0 []).params.legal = true ∧ (busyWith 0 []).inflight ≠ none ∧
      [0x01C#17, 0x044#17, 0x1000#17, 0x101C#17].all (fun off => off.toNat % 4 == 0) = true ∧
      (0x044 : Nat) < 0x040 + 4 * (busyWith 0 []).params.n0Max ∧
      (0x101C : Nat) < 0x1000 + (busyWith 0 []).params.nvreg * ((busyWith 0 []).params.vlen / 8) := by decide
theorem test_witness_WindowWordIsThirtyTwoRegisterBits :
    State.reset.params.legal = true ∧ State.reset.vregs.length = State.reset.params.nvreg ∧ State.reset.inflight = none ∧
      15 < State.reset.params.nvreg ∧ 127 < State.reset.params.vlen / 32 := by decide
theorem test_witness_ConfigurationWritesStoreTheirFields :
    State.reset.inflight = none ∧ 3 < State.reset.params.n0Max ∧ State.reset.params.n0Max ≤ 8 := by decide
/-- The four kinds of reserved offset, each at both ends of its range. -/
theorem test_witness_ReservedBitsReadZeroAndIgnoreWrites :
    State.reset.params.legal = true ∧
      [0x00C#17, 0x03C#17, 0x050#17, 0xFFC#17, 0x3000#17, 0x1FFFC#17].all (fun off => off.toNat % 4 == 0) = true ∧
      0x040 + 4 * State.reset.params.n0Max = 0x050 ∧
      0x1000 + State.reset.params.nvreg * (State.reset.params.vlen / 8) = 0x3000 := by decide
theorem test_witness_RegistersReadTheirFields :
    let s := { small with fifo := [1, 2, 3, 4] }
    s.params.legal = true ∧ s.fifo.length ≤ s.params.fifoDepth ∧ 1 < s.params.n0Max ∧
      (s.access (.write 0x024 .w32 5)).1 = s ∧
      ({ s with inflight := (busyWith 0 []).inflight }.access (.write 0x038 .w32 5)).1 =
        { s with inflight := (busyWith 0 []).inflight } := by decide
theorem test_witness_RngDataAppendsOrOverflows :
    { small with fifo := [1, 2, 3] }.fifo.length < small.params.fifoDepth ∧
      small.params.fifoDepth ≤ { small with fifo := [1, 2, 3, 4] }.fifo.length := by decide
/-- A CTRL write without SRST, and the addresses on both sides of the aperture. -/
theorem test_witness_BusyAccessesKeepTheOperands :
    (busyWith 0 []).inflight ≠ none ∧ (busyWith 0 []).params.base + 0x010 = 0x40010 ∧ (3 : Word).getLsbD 2 = false ∧
      0x3FFFC < (busyWith 0 []).params.base ∧ (busyWith 0 []).params.base + 0x20000 ≤ 0x60000 := by decide
theorem test_witness_CtrlWriteResetsOrStores : (4 : Word).getLsbD 2 = true ∧ (3 : Word).getLsbD 2 = false := by decide
theorem test_witness_PlatformResetGivesTheResetValues :
    let s := { busyWith 0x120 [5] with agenda := [.powerDown, .reset, .host] }
    s.params.legal = true ∧ s.agenda = List.replicate 1 .powerDown ++ .reset :: [.host] ∧ 0x040 + 4 * s.params.n0Max = 0x048 ∧
      (State.reset.access (.read 0x004 .w32)).2 = some (.data 0x04101000) ∧
      (State.reset.access (.read 0x008 .w32)).2 = some (.data 0x0010050A) := by decide
theorem test_witness_VldLoadsTheRegister :
    State.reset.params.legal = true ∧ State.reset.vregs.length = State.reset.params.nvreg ∧ State.reset.inflight = none ∧
      15 < State.reset.params.nvreg := by decide
theorem test_witness_WaitPollsUntilIdle :
    let s := { busyWith 0 [] with agenda := [.host], prog := [.wait] }
    s.agenda = .host :: [] ∧ s.prog[s.hostPc]? = some .wait := by decide

end Sys2Proof.Tests
end

section
/-! PROOFS. What the claims about the state rest on, said once: one engine step, one step of the machine, the writes
that have cases, served accesses, and the registers as bit fields (10_state.md R40 to R56, 40_execution.md R130 to
R133). -/

namespace Sys2Proof.Machine

/-! ## One engine step -/

theorem execGenRand_idle {s : State} (h : s.inflight = none) (vd : Nat) : execGenRand vd s = .next s := by
  rw [execGenRand, h]

theorem execGenRand_inflight {s : State} {f : InFlight} (h : s.inflight = some f) (vd : Nat) :
    execGenRand vd s =
      .next (s.checked (.genRand vd) s.sizeOk fun _ => s.genStep f vd (randStep s f.progress)) := by
  rw [execGenRand, h]

theorem execGenInv_idle {s : State} (h : s.inflight = none) (vd : Nat) : execGenInv vd s = .next s := by
  rw [execGenInv, h]

theorem execGenInv_inflight {s : State} {f : InFlight} (h : s.inflight = some f) (vd : Nat) :
    execGenInv vd s =
      .next (s.checked (.genInv vd) (s.sizeOk && decide (s.k % 2 = 1)) fun _ =>
        s.genStep f vd (invStep s f.progress)) := by
  rw [execGenInv, h]

/-- One engine step of GEN_RAND or GEN_INV: with no command in flight nothing happens (log 7); otherwise a check
fails, or the checks pass and the step is the one that the progress calls for (43_generator.md R222, R224). -/
theorem exec_generator_cases {i : Instr} {s t : State} (hi : i.isGenerator = true) (h : exec i s = .next t) :
    (s.inflight = none ∧ t = s) ∨
    ∃ f, s.inflight = some f ∧
      ((∃ c, c ≠ .ok ∧ t = s.raise c 0) ∨
        ∃ vd g, i.destinations s.n0 = [vd] ∧ t = s.genStep f vd g ∧
          (g = randStep s f.progress ∨ (s.k % 2 = 1 ∧ g = invStep s f.progress))) := by
  cases i with
  | genRand vd =>
    change execGenRand vd s = .next t at h
    cases hf : s.inflight with
    | none => rw [execGenRand_idle hf] at h; cases h; exact .inl ⟨rfl, rfl⟩
    | some f =>
      rw [execGenRand_inflight hf] at h; cases h
      rcases s.checked_cases (.genRand vd) s.sizeOk fun _ => s.genStep f vd (randStep s f.progress) with
        ⟨-, -, e⟩ | ⟨c, hc, e⟩ <;> rw [e]
      · exact .inr ⟨f, rfl, .inr ⟨vd, _, rfl, rfl, .inl rfl⟩⟩
      · exact .inr ⟨f, rfl, .inl ⟨c, hc, rfl⟩⟩
  | genInv vd =>
    change execGenInv vd s = .next t at h
    cases hf : s.inflight with
    | none => rw [execGenInv_idle hf] at h; cases h; exact .inl ⟨rfl, rfl⟩
    | some f =>
      rw [execGenInv_inflight hf] at h; cases h
      rcases s.checked_cases (.genInv vd) (s.sizeOk && decide (s.k % 2 = 1)) fun _ =>
        s.genStep f vd (invStep s f.progress) with ⟨-, ha, e⟩ | ⟨c, hc, e⟩ <;> rw [e]
      · have odd : s.k % 2 = 1 := of_decide_eq_true (Bool.and_eq_true_iff.mp ha).2
        exact .inr ⟨f, rfl, .inr ⟨vd, _, rfl, rfl, .inr ⟨odd, rfl⟩⟩⟩
      · exact .inr ⟨f, rfl, .inl ⟨c, hc, rfl⟩⟩
  | _ => cases hi

/-- What one engine step of any command can be: a completion, which writes the command's destinations or nothing; or,
for a generator only, a draw step or no change (40_execution.md R132). -/
theorem exec_cases {i : Instr} {s t : State} (h : exec i s = .next t) :
    (∃ code res d, t = s.complete code res d ∧ (d = [] ∨ d.map Prod.fst = i.destinations s.n0)) ∨
    (i.isGenerator = true ∧ t = s) ∨
    (i.isGenerator = true ∧ ∃ f p, s.inflight = some f ∧ t = s.drawStep f p s.n ∧
      (randStep s f.progress = .draw p ∨ (s.k % 2 = 1 ∧ invStep s f.progress = .draw p))) := by
  cases hi : i.isGenerator with
  | false =>
    obtain ⟨code, res, d, e, -, hd⟩ := exec_completes i s hi
    rw [e] at h; cases h
    exact .inl ⟨code, res, d, rfl, hd⟩
  | true =>
    rcases exec_generator_cases hi h with ⟨-, e⟩ | ⟨f, hf, ⟨c, -, e⟩ | ⟨vd, g, hdst, e, hg⟩⟩
    · exact .inr (.inl ⟨rfl, e⟩)
    · exact .inl ⟨c, 0, [], e, .inl rfl⟩
    · rcases s.genStep_cases f vd g with ⟨v, res, -, e'⟩ | ⟨res, -, e'⟩ | ⟨p, rfl, e'⟩ <;> rw [e'] at e
      · exact .inl ⟨.ok, res, [(vd, v)], e, .inr (by simp [hdst])⟩
      · exact .inl ⟨.genExhausted, res, [], e, .inl rfl⟩
      · exact .inr (.inr ⟨rfl, f, p, hf, e, hg.imp Eq.symm (And.imp_right Eq.symm)⟩)

/-- A completion changes the vector registers, RES, ERR, DONE and the command in flight only (R133). -/
theorem State.complete_eq (s : State) (code : ErrCode) (res : Word) (d : List (Nat × Nat)) :
    s.complete code res d = { s with
      vregs := (s.complete code res d).vregs, res := res, err := code, done := true, inflight := none } :=
  s.completesAs_complete code res d

/-- A draw step changes the command in flight, the random source and RNG_WAIT only (43_generator.md R220, R221). -/
theorem State.drawStep_eq (s : State) (f : InFlight) (p : Progress) (size : Nat) :
    s.drawStep f p size = { s with
      inflight := (s.drawStep f p size).inflight, fifo := (s.drawStep f p size).fifo
      rngWait := (s.drawStep f p size).rngWait, entropyNext := (s.drawStep f p size).entropyNext } := by
  rcases s.drawStep_cases f p size with ⟨w, rest, -, -, e⟩ | ⟨-, -, e⟩ | ⟨-, e⟩ <;> rw [e]

/-- Completion leaves every register alone that is not a destination. -/
theorem State.complete_vreg_of_not_mem {s : State} {d : List (Nat × Nat)} {dst : List Nat} {r : Nat}
    (hd : d = [] ∨ d.map Prod.fst = dst) (hr : r ∉ dst) (code : ErrCode) (res : Word) :
    (s.complete code res d).vreg r = s.vreg r := by
  rw [State.complete_vreg]
  rcases hd with rfl | rfl
  · rfl
  · exact State.setVregs_vreg_of_not_mem hr

/-! ## One step of the machine -/

/-- A step whose turn is a power-down. -/
theorem step_powerDown {s : State} {rest : List Turn} (h : s.agenda = .powerDown :: rest) :
    step s = .next { s with agenda := rest }.powerDown := by rw [step, h]

/-- A step that is not a power-down is another agent's turn, on the state with the turn taken off the agenda. -/
theorem step_cases_of_powered {s t : State} (h : step s = .next t) (hp : ∀ rest, s.agenda ≠ .powerDown :: rest) :
    ∃ s0, (∃ rest, s0 = { s with agenda := rest }) ∧
      (engineTurn s0 = .next t ∨ t = s0.hostTurn ∨ (∃ x, t = s0.otherAccess x) ∨ t = s0.engineReset) := by
  unfold step at h
  split at h
  · split at h
    · exact ⟨s, ⟨s.agenda, rfl⟩, .inl h⟩
    · cases h; exact ⟨s, ⟨s.agenda, rfl⟩, .inr (.inl rfl)⟩
  · exact ⟨_, ⟨_, rfl⟩, .inl h⟩
  · cases h; exact ⟨_, ⟨_, rfl⟩, .inr (.inl rfl)⟩
  · cases h; exact ⟨_, ⟨_, rfl⟩, .inr (.inr (.inl ⟨_, rfl⟩))⟩
  · cases h; exact ⟨_, ⟨_, rfl⟩, .inr (.inr (.inr rfl))⟩
  · rename_i ha; exact absurd ha (hp _)

/-- A property that survives the agents' own bookkeeping, the engine's turn, BUSY_ACC, every served write and the reset
survives every step that is not a power-down. -/
theorem step_keeps_of_powered {P : State → Prop}
    (agents : ∀ {s}, P s → ∀ agenda pc replies others,
      P { s with agenda := agenda, hostPc := pc, replies := replies, otherReplies := others })
    (engine : ∀ {s t}, P s → engineTurn s = .next t → P t)
    (busyAcc : ∀ {s}, P s → P { s with busyAcc := true })
    (write : ∀ {s}, P s → ∀ t v, P (s.writeTarget t v))
    (reset : ∀ {s}, P s → P s.engineReset)
    {s t : State} (hs : P s) (hp : ∀ rest, s.agenda ≠ .powerDown :: rest) (h : step s = .next t) : P t := by
  have read : ∀ {s : State}, P s → ∀ tgt, P (s.readTarget tgt).1 := fun {s} hs tgt => by
    rcases s.readTarget_fst tgt with e | ⟨-, e⟩ <;> rw [e]
    · exact hs
    · exact busyAcc hs
  have access : ∀ {s : State}, P s → ∀ a, P (s.access a).1 := fun {s} hs a => by
    rcases s.access_cases a with ⟨e, -⟩ | ⟨tgt, e, -⟩ | ⟨tgt, v, e, -⟩ <;> rw [e]
    · exact hs
    · exact read hs tgt
    · exact write hs tgt v
  obtain ⟨s0, ⟨rest, rfl⟩, turn⟩ := step_cases_of_powered h hp
  have h0 := agents hs rest s.hostPc s.replies s.otherReplies
  rcases turn with e | rfl | ⟨x, rfl⟩ | rfl
  · exact engine h0 e
  · obtain ⟨u, pc, l, e, hu⟩ := State.hostTurn_cases { s with agenda := rest }
    rw [e]
    refine agents (s := u) ?_ u.agenda pc l u.otherReplies
    rcases hu with rfl | ⟨tgt, rfl⟩ | ⟨a, rfl⟩
    · exact h0
    · exact read h0 tgt
    · exact access h0 a
  · obtain ⟨u, l, e, hu⟩ := State.otherAccess_eq { s with agenda := rest } x
    rw [e]
    refine agents (s := u) ?_ u.agenda u.hostPc u.replies l
    rcases hu with rfl | ⟨a, rfl⟩
    · exact h0
    · exact access h0 a
  · exact reset h0

/-! ## Writes that have cases -/

theorem State.busy_eq_false_iff {s : State} : s.busy = false ↔ s.inflight = none :=
  Option.isSome_eq_false_iff.trans Option.isNone_iff_eq_none

theorem State.busy_eq_true_iff {s : State} : s.busy = true ↔ s.inflight ≠ none := Option.isSome_iff_ne_none

theorem State.writeCtrl_srst {s : State} {w : Word} (h : w.getLsbD 2 = true) : s.writeCtrl w = s.engineReset := if_pos h

theorem State.writeCtrl_store {s : State} {w : Word} (h : w.getLsbD 2 = false) :
    s.writeCtrl w = { s with ie := w.getLsbD 0, rngSrc := w.getLsbD 1 } := if_neg (by rw [h]; decide)

theorem State.writeCmd_idle {s : State} (h : s.busy = false) (w : Word) : s.writeCmd w = s.accept w :=
  if_neg (by rw [h]; decide)

theorem State.writeCmd_busy {s : State} (h : s.busy = true) (w : Word) : s.writeCmd w = { s with overrun := true } :=
  if_pos h

theorem State.writeRngData_room {s : State} (h : s.fifo.length < s.params.fifoDepth) (w : Word) :
    s.writeRngData w = { s with fifo := s.fifo ++ [w], rngWait := false } := if_pos h

theorem State.writeRngData_full {s : State} (h : s.params.fifoDepth ≤ s.fifo.length) (w : Word) :
    s.writeRngData w = { s with rngOvf := true } := if_neg (Nat.not_lt.mpr h)

@[simp] theorem State.writeStatus_busy (s : State) (w : Word) : (s.writeStatus w).busy = s.busy := rfl
@[simp] theorem State.writeStatus_done (s : State) (w : Word) :
    (s.writeStatus w).done = (s.done && !w.getLsbD 1) := rfl
@[simp] theorem State.writeStatus_overrun (s : State) (w : Word) :
    (s.writeStatus w).overrun = (s.overrun && !w.getLsbD 2) := rfl
@[simp] theorem State.writeStatus_busyAcc (s : State) (w : Word) :
    (s.writeStatus w).busyAcc = (s.busyAcc && !w.getLsbD 3) := rfl
@[simp] theorem State.writeStatus_rngOvf (s : State) (w : Word) :
    (s.writeStatus w).rngOvf = (s.rngOvf && !w.getLsbD 4) := rfl
@[simp] theorem State.writeStatus_rngWait (s : State) (w : Word) : (s.writeStatus w).rngWait = s.rngWait := rfl
@[simp] theorem State.writeStatus_err (s : State) (w : Word) : (s.writeStatus w).err = s.err := rfl

/-! ## Legal parameters -/

/-- The table of 00_scope.md R8. -/
theorem Params.legal_iff {p : Params} : p.legal = true ↔
    p.vlen % 32 = 0 ∧ 32 ≤ p.vlen ∧ p.vlen ≤ 32768 ∧ 1 ≤ p.nvreg ∧ p.nvreg ≤ 16 ∧ 1 ≤ p.n0Max ∧ p.n0Max ≤ 8 ∧
      1 ≤ p.fifoDepth ∧ p.fifoDepth ≤ 255 ∧ p.base % apertureSize = 0 := by
  simp only [Params.legal, Bool.and_eq_true, decide_eq_true_eq, and_assoc]

/-! ## Served accesses -/

/-- An offset at which the bus serves a 32-bit access (R71): a read answers the value, but in the window while busy. -/
theorem State.access_read {off : BitVec 17} (h : off.toNat % 4 = 0) (s : State) :
    s.access (.read off .w32) =
      ((s.readTarget (locate s.params off.toNat)).1, some (.data (s.readTarget (locate s.params off.toNat)).2)) := by
  simp [State.access, servable, h]

theorem State.access_write {off : BitVec 17} (h : off.toNat % 4 = 0) (s : State) (v : Word) :
    s.access (.write off .w32 v) = (s.writeTarget (locate s.params off.toNat) v, none) := by
  simp [State.access, servable, h]

/-- A read of anything but the window answers the value and changes nothing, busy or not (R75). -/
theorem State.access_read_value {s : State} {off : BitVec 17} {t : Target} (h : off.toNat % 4 = 0)
    (hl : locate s.params off.toNat = t) (hr : s.readTarget t = (s, s.valueAt t)) :
    s.access (.read off .w32) = (s, some (.data (s.valueAt t))) := by
  rw [State.access_read h, hl, hr]

/-- An idle engine takes a write to a LOCK register or the window as it is (20_memory.md R76). -/
theorem State.access_write_locked {s u : State} {off : BitVec 17} {v : Word} (idle : s.busy = false)
    (h : off.toNat % 4 = 0) (hl : s.writeTarget (locate s.params off.toNat) v = s.lockedWrite u) :
    s.access (.write off .w32 v) = (u, none) := by
  rw [State.access_write h, hl, State.lockedWrite, idle]; rfl

/-- An offset that the map marks reserved, between the registers or above the window (R40). -/
theorem locate_reserved {p : Params} (hp : p.legal = true) {off : Nat}
    (h : off = 0x00C ∨ off = 0x03C ∨ (0x040 + 4 * p.n0Max ≤ off ∧ off ≤ 0xFFF) ∨ 0x1000 + p.nvreg * p.vregBytes ≤ off) :
    locate p off = .reserved := by
  obtain ⟨-, -, -, -, -, -, hn0, -⟩ := Params.legal_iff.mp hp
  rcases h with rfl | rfl | ⟨lo, hi⟩ | lo
  · rfl
  · rfl
  · rw [locate_above p (by omega), if_neg (by omega), if_neg (by omega)]
  · rw [locate_above p (by omega), if_neg (by omega), if_neg (by omega)]

/-- The decoder's shifts take up 0x040 to 0x040 + 4·N0_MAX (R55). -/
theorem locate_shifts {p : Params} {off : Nat} (lo : 0x040 ≤ off) (hi : off < 0x040 + 4 * p.n0Max) :
    locate p off = .decShift ((off - 0x040) / 4) := by
  rw [locate_above p lo, if_pos hi]

theorem decShift_offset_toNat {b : Nat} (hb : b < 8) : (BitVec.ofNat 17 (0x040 + 4 * b)).toNat = 0x040 + 4 * b := by
  rw [BitVec.toNat_ofNat]; exact Nat.mod_eq_of_lt (by omega)

/-! ## Registers as bit fields -/

/-- A word of fields keeps within a mask of fields when each field keeps within its part. -/
theorem append_and_not_eq_zero {j k : Nat} {x m : BitVec j} {y n : BitVec k} (hx : x &&& ~~~m = 0)
    (hy : y &&& ~~~n = 0) : (x ++ y) &&& ~~~(m ++ n) = 0 := by
  rw [BitVec.not_append, BitVec.and_append, hx, hy]; exact BitVec.zero_append_zero

theorem and_not_allOnes {k : Nat} (x : BitVec k) : x &&& ~~~BitVec.allOnes k = 0 := by
  rw [BitVec.not_allOnes]; exact BitVec.and_zero

theorem zero_append_and_not_eq_zero {j k : Nat} (x : BitVec k) : (0#j ++ x) &&& ~~~(0#j ++ BitVec.allOnes k) = 0 :=
  append_and_not_eq_zero BitVec.zero_and (and_not_allOnes x)

theorem zero_append_eq_setWidth {j k : Nat} (x : BitVec k) : 0#j ++ x = x.setWidth (j + k) := by
  rw [BitVec.setWidth_eq_append (Nat.le_add_left k j)]; simp

theorem extractLsb'_concat_succ {k : Nat} (x : BitVec k) (b : Bool) (start len : Nat) :
    (x.concat b).extractLsb' (start + 1) len = x.extractLsb' start len :=
  BitVec.extractLsb'_append_eq_of_le (Nat.le_add_left 1 start)

/-- STATUS with its flags added one by one, from bit 5 down (10_state.md R46). -/
theorem State.statusWord_eq_concat (s : State) : s.statusWord =
    ((((((0#20 ++ s.err.code ++ 0#2).concat s.rngWait).concat s.rngOvf).concat s.busyAcc).concat s.overrun).concat
      s.done).concat s.busy := rfl

theorem State.statusWord_flags (s : State) :
    s.statusWord.getLsbD 0 = s.busy ∧ s.statusWord.getLsbD 1 = s.done ∧ s.statusWord.getLsbD 2 = s.overrun ∧
      s.statusWord.getLsbD 3 = s.busyAcc ∧ s.statusWord.getLsbD 4 = s.rngOvf ∧ s.statusWord.getLsbD 5 = s.rngWait := by
  simp only [State.statusWord_eq_concat, BitVec.getLsbD_concat_succ, BitVec.getLsbD_concat_zero, and_self]

theorem State.statusWord_above_flags (s : State) (i : Nat) :
    s.statusWord.getLsbD (i + 6) = (0#20 ++ s.err.code ++ 0#2).getLsbD i := by
  simp only [State.statusWord_eq_concat, BitVec.getLsbD_concat_succ]

theorem State.statusWord_fields (s : State) :
    s.statusWord.extractLsb' 6 2 = 0 ∧ s.statusWord.extractLsb' 8 4 = s.err.code ∧
      s.statusWord.extractLsb' 12 20 = 0 := by
  simp only [State.statusWord_eq_concat, extractLsb'_concat_succ]
  refine ⟨BitVec.extractLsb'_append_eq_right, ?_, ?_⟩
  · rw [BitVec.extractLsb'_append_eq_of_le (by decide)]; exact BitVec.extractLsb'_append_eq_right
  · rw [BitVec.extractLsb'_append_eq_of_le (by decide), BitVec.extractLsb'_append_eq_of_le (by decide)]; rfl

theorem concat_and_not_eq_zero {k : Nat} {x m : BitVec k} (h : x &&& ~~~m = 0) (b : Bool) :
    x.concat b &&& ~~~m.concat true = 0 :=
  append_and_not_eq_zero h (and_not_allOnes (BitVec.ofBool b))

/-- STATUS has its ones in ERR and the flags only. -/
theorem State.statusWord_within (s : State) : s.statusWord &&& ~~~0x00000F3F#32 = 0 := by
  have hm : 0x00000F3F#32 = ((((((0#20 ++ BitVec.allOnes 4 ++ 0#2).concat true).concat true).concat true).concat
      true).concat true).concat true := rfl
  have high : (0#20 ++ s.err.code ++ 0#2) &&& ~~~(0#20 ++ BitVec.allOnes 4 ++ 0#2) = 0 :=
    append_and_not_eq_zero (zero_append_and_not_eq_zero s.err.code) BitVec.zero_and
  rw [hm, State.statusWord_eq_concat]
  iterate 6 apply concat_and_not_eq_zero
  exact high

theorem State.cap0Word_fields (s : State) :
    s.cap0Word.extractLsb' 0 16 = BitVec.ofNat 16 s.params.vlen ∧
      s.cap0Word.extractLsb' 16 8 = BitVec.ofNat 8 s.params.nvreg ∧
      s.cap0Word.extractLsb' 24 8 = BitVec.ofNat 8 s.params.n0Max := by
  refine ⟨BitVec.extractLsb'_append_eq_right, ?_, ?_⟩
  · rw [State.cap0Word, BitVec.extractLsb'_append_eq_of_le (by decide)]; exact BitVec.extractLsb'_append_eq_right
  · rw [State.cap0Word, BitVec.extractLsb'_append_eq_of_le (by decide)]; exact BitVec.extractLsb'_append_eq_left

theorem State.cap1Word_fields (s : State) :
    s.cap1Word.extractLsb' 0 8 = 10 ∧ s.cap1Word.extractLsb' 8 8 = 5 ∧
      s.cap1Word.extractLsb' 16 8 = BitVec.ofNat 8 s.params.fifoDepth ∧ s.cap1Word.extractLsb' 24 8 = 0 := by
  refine ⟨BitVec.extractLsb'_append_eq_right, ?_, ?_, ?_⟩
  · rw [State.cap1Word, BitVec.extractLsb'_append_eq_of_le (by decide)]; exact BitVec.extractLsb'_append_eq_right
  · rw [State.cap1Word, BitVec.extractLsb'_append_eq_of_le (by decide), BitVec.extractLsb'_append_eq_of_le (by decide)]
    exact BitVec.extractLsb'_append_eq_right
  · rw [State.cap1Word, BitVec.extractLsb'_append_eq_of_le (by decide), BitVec.extractLsb'_append_eq_of_le (by decide)]
    exact BitVec.extractLsb'_append_eq_left

theorem State.cap1Word_within (s : State) : s.cap1Word &&& ~~~0x00FFFFFF#32 = 0 :=
  append_and_not_eq_zero (append_and_not_eq_zero (zero_append_and_not_eq_zero _) (and_not_allOnes _))
    (and_not_allOnes _)

/-- A STATUS write clears the W1C bits that it writes as 1, and what STATUS reads shows no other change (R46). -/
theorem State.statusWord_writeStatus (s : State) (w : Word) :
    (s.writeStatus w).statusWord = s.statusWord &&& ~~~(w &&& 0x0000001E) := by
  obtain ⟨t0, t1, t2, t3, t4, t5⟩ := (s.writeStatus w).statusWord_flags
  obtain ⟨s0, s1, s2, s3, s4, s5⟩ := s.statusWord_flags
  have high : ∀ j < 32, 6 ≤ j → (0x0000001E : Word).getLsbD j = false := by decide
  refine BitVec.eq_of_getLsbD_eq fun i hi => ?_
  rw [BitVec.getLsbD_and, BitVec.getLsbD_not, BitVec.getLsbD_and, decide_eq_true hi, Bool.true_and]
  rcases i with _ | _ | _ | _ | _ | _ | i
  · rw [t0, s0]; simp
  · rw [t1, s1]; simp
  · rw [t2, s2]; simp
  · rw [t3, s3]; simp
  · rw [t4, s4]; simp
  · rw [t5, s5]; simp
  · rw [high _ hi (by omega), State.statusWord_above_flags, State.statusWord_above_flags, Bool.and_false,
      Bool.not_false, Bool.and_true, State.writeStatus_err]

theorem setWidth_and_mask {k : Nat} (v m : Word) (h : m.setWidth k = BitVec.allOnes k) :
    (v &&& m).setWidth k = v.setWidth k := by
  rw [BitVec.setWidth_and, h, BitVec.and_allOnes]

theorem State.writeCtrl_and_mask (s : State) (v : Word) : s.writeCtrl (v &&& 0x00000007) = s.writeCtrl v := by
  simp [State.writeCtrl]

theorem State.writeStatus_and_mask (s : State) (v : Word) : s.writeStatus (v &&& 0x00000F3F) = s.writeStatus v := by
  simp [State.writeStatus]

theorem State.writeTarget_cfgP_and_mask (s : State) (v : Word) :
    s.writeTarget .cfgP (v &&& 0x0000FFFF) = s.writeTarget .cfgP v := by
  rw [State.writeTarget, State.writeTarget, setWidth_and_mask v 0x0000FFFF rfl]

theorem State.writeTarget_cfgN0_and_mask (s : State) (v : Word) :
    s.writeTarget .cfgN0 (v &&& 0x000000FF) = s.writeTarget .cfgN0 v := by
  rw [State.writeTarget, State.writeTarget, setWidth_and_mask v 0x000000FF rfl]

theorem State.writeTarget_decShift_and_mask (s : State) (b : Nat) (v : Word) :
    s.writeTarget (.decShift b) (v &&& 0x0000FFFF) = s.writeTarget (.decShift b) v := by
  rw [State.writeTarget, State.writeTarget, setWidth_and_mask v 0x0000FFFF rfl]

theorem ofNat_toNat_of_le {k n b : Nat} (h : n ≤ b) (hb : b < 2 ^ k) : (BitVec.ofNat k n).toNat = n := by
  rw [BitVec.toNat_ofNat]; exact Nat.mod_eq_of_lt (Nat.lt_of_le_of_lt h hb)

end Sys2Proof.Machine
end

section
/-! PROOFS. Every step keeps the shape of the state and, but for a power-down, the invariant: one preservation lemma per
operation of the model, then the step (10_state.md R31 to R55, 43_generator.md R221 to R228). -/

namespace Sys2Proof.Machine

/-! ## The shape -/

/-- The shape of the state does not depend on the agents around the engine. -/
theorem State.Shape.setAgents {s : State} (h : s.Shape) (agenda : List Turn) (pc : Nat) (replies others : List Reply) :
    { s with agenda := agenda, hostPc := pc, replies := replies, otherReplies := others }.Shape := { h with }

theorem State.Shape.setVregs {s : State} (h : s.Shape) (d : List (Nat × Nat)) : (s.setVregs d).Shape where
  legal := by rw [State.setVregs_params]; exact h.legal
  vregCount := by rw [State.setVregs_length, State.setVregs_params]; exact h.vregCount
  vregWidth := by rw [State.setVregs_params]; exact State.setVregs_width h.vregWidth d
  shiftCount := by rw [State.setVregs_decShift, State.setVregs_params]; exact h.shiftCount
  fifoFits := by rw [State.setVregs_fifo, State.setVregs_params]; exact h.fifoFits

theorem State.Shape.complete {s : State} (h : s.Shape) (code : ErrCode) (res : Word) (d : List (Nat × Nat)) :
    (s.complete code res d).Shape := { h.setVregs d with }

theorem State.Shape.drawStep {s : State} (h : s.Shape) (f : InFlight) (p : Progress) (size : Nat) :
    (s.drawStep f p size).Shape := by
  rcases s.drawStep_cases f p size with ⟨w, rest, -, hf, e⟩ | ⟨-, -, e⟩ | ⟨-, e⟩ <;> rw [e]
  · have fits := h.fifoFits
    rw [hf, List.length_cons] at fits
    exact { h with fifoFits := Nat.le_of_succ_le fits }
  · exact { h with }
  · exact { h with }

theorem State.Shape.exec {i : Instr} {s t : State} (h : s.Shape) (e : exec i s = .next t) : t.Shape := by
  rcases exec_cases e with ⟨code, res, d, rfl, -⟩ | ⟨-, rfl⟩ | ⟨-, f, p, -, rfl, -⟩
  · exact h.complete code res d
  · exact h
  · exact h.drawStep f p _

theorem State.Shape.engineTurn {s t : State} (h : s.Shape) (e : engineTurn s = .next t) : t.Shape := by
  rcases engineTurn_cases e with ⟨rfl, -⟩ | ⟨f, -, -, ⟨i, -, e'⟩ | ⟨-, -, rfl⟩⟩
  · exact h
  · exact h.exec e'
  · exact h.complete .illegalCmd 0 []

theorem State.Shape.engineReset {s : State} (h : s.Shape) : s.engineReset.Shape where
  legal := h.legal
  vregCount := List.length_replicate
  vregWidth v hv := by rw [List.eq_of_mem_replicate hv]; exact Nat.two_pow_pos _
  shiftCount := List.length_replicate
  fifoFits := Nat.zero_le _

theorem State.Shape.writeCtrl {s : State} (h : s.Shape) (v : Word) : (s.writeCtrl v).Shape := by
  cases srst : v.getLsbD 2
  · rw [State.writeCtrl_store srst]; exact { h with }
  · rw [State.writeCtrl_srst srst]; exact h.engineReset

theorem State.Shape.writeCmd {s : State} (h : s.Shape) (v : Word) : (s.writeCmd v).Shape := by
  cases busy : s.busy
  · rw [State.writeCmd_idle busy]; exact { h with }
  · rw [State.writeCmd_busy busy]; exact { h with }

theorem State.Shape.writeRngData {s : State} (h : s.Shape) (v : Word) : (s.writeRngData v).Shape := by
  rcases Nat.lt_or_ge s.fifo.length s.params.fifoDepth with room | full
  · rw [State.writeRngData_room room]
    exact { h with fifoFits := by rw [List.length_append]; exact room }
  · rw [State.writeRngData_full full]; exact { h with }

theorem State.Shape.writeTarget {s : State} (h : s.Shape) (t : Target) (v : Word) : (s.writeTarget t v).Shape := by
  rcases s.writeTarget_cases t v with e | e | e | e | e | ⟨-, e⟩ | ⟨-, e | e | e | e | e | ⟨b, e⟩ | ⟨r, w, e⟩⟩ <;>
    rw [e]
  · exact h
  · exact h.writeCtrl v
  · exact { h with }
  · exact h.writeCmd v
  · exact h.writeRngData v
  · exact { h with }
  · exact { h with }
  · exact { h with }
  · exact { h with }
  · exact { h with }
  · exact { h with }
  · exact { h with shiftCount := by rw [List.length_set]; exact h.shiftCount }
  · exact h.setVregs [(r, replaceWord (s.vreg r) w v)]

theorem State.Shape.setBusyAcc {s : State} (h : s.Shape) : { s with busyAcc := true }.Shape := { h with }

/-! ## Generator progress -/

/-- Soundness of progress speaks of ARG0, ARG1 and GEN_CFG only. -/
theorem Progress.Sound.congr {p : Progress} {s t : State} (h : p.Sound s) (h0 : t.arg0 = s.arg0) (h1 : t.arg1 = s.arg1)
    (hd : t.maxDraw = s.maxDraw) (ht : t.maxTry = s.maxTry) : p.Sound t := by
  obtain ⟨hv, hc, hk, hdr, hat⟩ := h
  constructor <;> simpa only [State.n, State.k, h0, h1, hd, ht]

/-- Sound progress below its weight and its draw cap: one more draw keeps it sound. -/
structure Progress.CanDraw (p : Progress) (s : State) : Prop extends Progress.Sound p s where
  belowWeight : p.cnt < s.k
  belowCap : s.maxDraw ≠ 0 → p.draws < s.maxDraw.toNat

theorem countBelow_zero_testBit (n : Nat) : countBelow n (Nat.testBit 0) = 0 := by
  simp [countBelow]

/-- Setting one bit more below n makes the count one more. -/
theorem countBelow_or_shiftLeft {n v idx : Nat} (hi : idx < n) (hv : v.testBit idx = false) :
    countBelow n (v ||| 1 <<< idx).testBit = countBelow n v.testBit + 1 := by
  have bit : ∀ j, (v ||| 1 <<< idx).testBit j = (v.testBit j || decide (idx = j)) := fun j => by
    rw [Nat.testBit_or, testBit_one_shiftLeft]
  have below : ∀ m, countBelow m (v ||| 1 <<< idx).testBit = countBelow m v.testBit + if idx < m then 1 else 0 := by
    intro m
    induction m with
    | zero => rfl
    | succ m ih =>
      rw [countBelow_succ, countBelow_succ, ih, bit]
      rcases Nat.lt_trichotomy idx m with h | rfl | h
      · simp [h, Nat.lt_succ_of_lt h, Nat.ne_of_lt h]; omega
      · simp [hv]
      · simp [Nat.lt_asymm h, Nat.ne_of_gt h, Nat.not_lt.mpr (Nat.succ_le_of_lt h)]
  rw [below, if_pos hi]

theorem Progress.CanDraw.take_sound {p : Progress} {s : State} (h : p.CanDraw s) (w : Word) :
    (p.take s.n w).Sound s where
  vecBelow := Progress.take_vec_lt h.vecBelow w
  cntCounts := by
    rcases p.take_cases s.n w with ⟨idx, -, hi, hv, e⟩ | e <;> rw [e]
    · exact (countBelow_or_shiftLeft hi hv).trans (congrArg (· + 1) h.cntCounts)
    · exact h.cntCounts
  cntAtMost := by
    rcases p.take_cases s.n w with ⟨idx, -, -, -, e⟩ | e <;> rw [e]
    · exact h.belowWeight
    · exact h.cntAtMost
  drawsAtMost hd := by rw [Progress.take_draws]; exact h.belowCap hd
  attemptAtMost ha := by rw [Progress.take_attempt]; exact h.attemptAtMost ha

/-- A count at most its cap that has not reached it is below it. -/
theorem lt_of_capReached_eq_false {cap : BitVec 16} {n : Nat} (hr : capReached cap n = false)
    (hle : cap ≠ 0 → n ≤ cap.toNat) (hc : cap ≠ 0) : n < cap.toNat := by
  have hc' : cap.toNat ≠ 0 := fun h => hc (BitVec.eq_of_toNat_eq h)
  have hne : n ≠ cap.toNat := by simpa [capReached, hc'] using hr
  exact Nat.lt_of_le_of_ne (hle hc) hne

/-- Progress of an attempt whose first draw is still to come. -/
theorem Progress.Sound.begin {s : State} (attempt : Nat) (ha : s.maxTry ≠ 0 → attempt ≤ s.maxTry.toNat) :
    Progress.Sound { Progress.fresh with attempt := attempt } s where
  vecBelow := Nat.two_pow_pos _
  cntCounts := countBelow_zero_testBit _
  cntAtMost := Nat.zero_le _
  drawsAtMost _ := Nat.zero_le _
  attemptAtMost := ha

/-- GEN_RAND draws only below its weight and its draw cap (43_generator.md R222, R223). -/
theorem Progress.Sound.canDraw_of_randStep {p q : Progress} {s : State} (h : p.Sound s) (e : randStep s p = .draw q) :
    q.CanDraw s := by
  unfold randStep at e
  split at e
  · cases e
  · rename_i weight
    split at e
    · cases e
    · rename_i cap
      cases e
      exact { h with
        belowWeight := Nat.lt_of_not_le weight
        belowCap := lt_of_capReached_eq_false (Bool.eq_false_of_not_eq_true cap) h.drawsAtMost }

/-- GEN_INV draws only below its weight and its caps, in the attempt at hand or a fresh one (R224). -/
theorem Progress.Sound.canDraw_of_invStep {p q : Progress} {s : State} (h : p.Sound s) (hk : s.k % 2 = 1)
    (e : invStep s p = .draw q) : q.CanDraw s := by
  unfold invStep at e
  split at e
  · cases e
  · split at e
    · split at e
      · cases e
      · rename_i cap
        cases e
        exact { Progress.Sound.begin (p.attempt + 1)
            (lt_of_capReached_eq_false (Bool.eq_false_of_not_eq_true cap) h.attemptAtMost) with
          belowWeight := show 0 < s.k by omega
          belowCap := fun hd => Nat.pos_of_ne_zero fun h0 => hd (BitVec.eq_of_toNat_eq h0) }
    · rename_i weight
      split at e
      · cases e
      · rename_i cap
        cases e
        exact { h with
          belowWeight := Nat.lt_of_not_le fun hle => weight (.inr hle)
          belowCap := lt_of_capReached_eq_false (Bool.eq_false_of_not_eq_true cap) h.drawsAtMost }

/-! ## The invariant -/

/-- On an idle engine that is not held the invariant is the shape. -/
theorem State.Inv.of_idle {t : State} (h : t.Shape) (hi : t.inflight = none) (hw : t.rngWait = false) : t.Inv :=
  { h with
    busyClean := fun f hf => by rw [hi] at hf; cases hf
    waitHeld := fun hw' => by rw [hw] at hw'; cases hw'
    progressSound := fun f hf => by rw [hi] at hf; cases hf }

theorem State.Inv.rngWait_of_idle {s : State} (h : s.Inv) (hi : s.inflight = none) : s.rngWait = false :=
  Bool.eq_false_of_not_eq_true fun hw => by
    obtain ⟨f, -, hf, -⟩ := h.waitHeld hw
    rw [hi] at hf; cases hf

/-- What keeps the command in flight, its flags and its operands, raises neither DONE nor the hold, and leaves the FIFO
alone while the hold lasts, keeps the invariant. What an update leaves as it was goes without saying. -/
theorem State.Inv.of_frame {s t : State} (h : s.Inv) (shape : t.Shape)
    (done : t.done = true → s.done = true := by exact id)
    (hold : t.rngWait = true → s.rngWait = true ∧ t.fifo = s.fifo := by exact fun hw => ⟨hw, rfl⟩)
    (inflight : t.inflight = s.inflight := by rfl) (err : t.err = s.err := by rfl)
    (cmdLast : t.cmdLast = s.cmdLast := by rfl) (arg0 : t.arg0 = s.arg0 := by rfl) (arg1 : t.arg1 = s.arg1 := by rfl)
    (maxDraw : t.maxDraw = s.maxDraw := by rfl) (maxTry : t.maxTry = s.maxTry := by rfl) : t.Inv :=
  { shape with
    busyClean := fun f hf => by
      obtain ⟨hd, he, hc⟩ := h.busyClean f (inflight ▸ hf)
      have hd' : t.done = false := Bool.eq_false_of_not_eq_true fun ht => Bool.noConfusion ((done ht).symm.trans hd)
      exact ⟨hd', err.trans he, cmdLast.trans hc⟩
    waitHeld := fun hw => by
      obtain ⟨hw, hf⟩ := hold hw
      rw [inflight, hf]; exact h.waitHeld hw
    progressSound := fun f hf => (h.progressSound f (inflight ▸ hf)).congr arg0 arg1 maxDraw maxTry }

theorem State.Inv.setAgents {s : State} (h : s.Inv) (agenda : List Turn) (pc : Nat) (replies others : List Reply) :
    { s with agenda := agenda, hostPc := pc, replies := replies, otherReplies := others }.Inv :=
  h.of_frame (h.toShape.setAgents agenda pc replies others)

theorem State.Inv.setBusyAcc {s : State} (h : s.Inv) : { s with busyAcc := true }.Inv :=
  h.of_frame h.toShape.setBusyAcc

theorem State.Inv.engineReset {s : State} (h : s.Inv) : s.engineReset.Inv := .of_idle h.toShape.engineReset rfl rfl

/-- A completion of an engine that is not held leaves it idle (R133). -/
theorem State.Inv.complete {s : State} (h : s.Inv) (hw : s.rngWait = false) (code : ErrCode) (res : Word)
    (d : List (Nat × Nat)) : (s.complete code res d).Inv :=
  .of_idle (h.toShape.complete code res d) rfl (by rw [State.complete_rngWait]; exact hw)

/-- An accepted command starts with DONE and ERR clear and with fresh progress (R130, R35). -/
theorem State.Inv.accept {s : State} (h : s.Inv) (hi : s.inflight = none) (w : Word) : (s.accept w).Inv :=
  { h.toShape with
    busyClean := by rintro f ⟨⟩; exact ⟨rfl, rfl, rfl⟩
    waitHeld := fun hw => by
      have idle : s.rngWait = false := h.rngWait_of_idle hi
      rw [State.accept_rngWait, idle] at hw; cases hw
    progressSound := by rintro f ⟨⟩; exact Progress.Sound.begin 0 fun _ => Nat.zero_le _ }

theorem State.Inv.writeCtrl {s : State} (h : s.Inv) (v : Word) : (s.writeCtrl v).Inv := by
  have shape := h.toShape.writeCtrl v
  cases srst : v.getLsbD 2
  · rw [State.writeCtrl_store srst] at shape ⊢
    exact h.of_frame shape
  · rw [State.writeCtrl_srst srst]; exact h.engineReset

/-- A STATUS write clears flags and raises none, DONE among them (R46). -/
theorem State.Inv.writeStatus {s : State} (h : s.Inv) (v : Word) : (s.writeStatus v).Inv :=
  h.of_frame { h.toShape with } (done := fun hd => (Bool.and_eq_true_iff.mp hd).1)

theorem State.Inv.writeCmd {s : State} (h : s.Inv) (v : Word) : (s.writeCmd v).Inv := by
  cases busy : s.busy
  · rw [State.writeCmd_idle busy]; exact h.accept (State.busy_eq_false_iff.mp busy) v
  · rw [State.writeCmd_busy busy]
    exact h.of_frame { h.toShape with }

/-- A word that arrives ends the hold (43_generator.md R221, log 5). -/
theorem State.Inv.writeRngData {s : State} (h : s.Inv) (v : Word) : (s.writeRngData v).Inv := by
  have shape := h.toShape.writeRngData v
  rcases Nat.lt_or_ge s.fifo.length s.params.fifoDepth with room | full
  · rw [State.writeRngData_room room] at shape ⊢
    exact h.of_frame shape (hold := nofun)
  · rw [State.writeRngData_full full] at shape ⊢
    exact h.of_frame shape

/-- While busy only CTRL, STATUS, CMD, RNG_DATA and the flag BUSY_ACC change, and an idle engine that is not held has
nothing but its shape to keep (R76). -/
theorem State.Inv.writeTarget {s : State} (h : s.Inv) (t : Target) (v : Word) : (s.writeTarget t v).Inv := by
  have shape := h.toShape.writeTarget t v
  rcases s.writeTarget_cases t v with e | e | e | e | e | ⟨-, e⟩ | ⟨idle, e⟩
  · rw [e]; exact h
  · rw [e]; exact h.writeCtrl v
  · rw [e]; exact h.writeStatus v
  · rw [e]; exact h.writeCmd v
  · rw [e]; exact h.writeRngData v
  · rw [e]; exact h.setBusyAcc
  · have hi := State.busy_eq_false_iff.mp idle
    have hw := h.rngWait_of_idle hi
    refine .of_idle shape ?_ ?_ <;>
      rcases e with e | e | e | e | e | ⟨b, e⟩ | ⟨r, w, e⟩ <;> rw [e] <;> assumption

/-- A draw keeps the invariant, from progress that may draw: it advances the progress, or begins the hold of R221. -/
theorem State.Inv.drawStep {s : State} {f : InFlight} {p : Progress} {i : Instr} (h : s.Inv) (hf : s.inflight = some f)
    (hw : s.rngWait = false) (hd : decode f.word = .ok i) (hi : i.isGenerator = true) (hp : p.CanDraw s) :
    (s.drawStep f p s.n).Inv := by
  have shape := h.toShape.drawStep f p s.n
  have clean := h.busyClean f hf
  rcases s.drawStep_cases f p s.n with ⟨w, rest, -, -, e⟩ | ⟨src, empty, e⟩ | ⟨-, e⟩ <;> rw [e] at shape ⊢
  · exact { shape with
      busyClean := by rintro _ ⟨⟩; exact clean
      waitHeld := nofun
      progressSound := by rintro _ ⟨⟩; exact (hp.take_sound w).congr rfl rfl rfl rfl }
  · exact { shape with
      busyClean := by rintro _ ⟨⟩; exact clean
      waitHeld := fun _ => ⟨_, i, rfl, src, empty, hd, hi⟩
      progressSound := by rintro _ ⟨⟩; exact hp.toSound.congr rfl rfl rfl rfl }
  · exact { shape with
      busyClean := by rintro _ ⟨⟩; exact clean
      waitHeld := fun hw' => by rw [hw] at hw'; cases hw'
      progressSound := by rintro _ ⟨⟩; exact (hp.take_sound _).congr rfl rfl rfl rfl }

theorem State.Inv.exec {i : Instr} {s t : State} {f : InFlight} (h : s.Inv) (hf : s.inflight = some f)
    (hw : s.rngWait = false) (hd : decode f.word = .ok i) (e : exec i s = .next t) : t.Inv := by
  rcases exec_cases e with ⟨code, res, d, rfl, -⟩ | ⟨-, rfl⟩ | ⟨hi, f', p, hf', rfl, hp⟩
  · exact h.complete hw code res d
  · exact h
  · obtain rfl : f = f' := Option.some.inj (hf.symm.trans hf')
    have sound := h.progressSound f hf
    exact h.drawStep hf hw hd hi (hp.elim sound.canDraw_of_randStep fun ⟨hk, hp⟩ => sound.canDraw_of_invStep hk hp)

theorem State.Inv.engineTurn {s t : State} (h : s.Inv) (e : engineTurn s = .next t) : t.Inv := by
  rcases engineTurn_cases e with ⟨rfl, -⟩ | ⟨f, hf, hw, ⟨i, hd, e'⟩ | ⟨-, -, rfl⟩⟩
  · exact h
  · exact h.exec hf hw hd e'
  · exact h.complete hw .illegalCmd 0 []

/-! ## The step -/

theorem State.Shape.step {s t : State} (h : s.Shape) (e : step s = .next t) : t.Shape := by
  by_cases hp : ∃ rest, s.agenda = .powerDown :: rest
  · obtain ⟨rest, ha⟩ := hp
    rw [step_powerDown ha] at e; cases e
    exact State.shape_powerDown h.legal
  · exact step_keeps_of_powered State.Shape.setAgents State.Shape.engineTurn State.Shape.setBusyAcc
      State.Shape.writeTarget State.Shape.engineReset h (fun rest ha => hp ⟨rest, ha⟩) e

theorem State.Inv.step {s t : State} (h : s.Inv) (hp : ∀ rest, s.agenda ≠ .powerDown :: rest)
    (e : step s = .next t) : t.Inv :=
  step_keeps_of_powered State.Inv.setAgents State.Inv.engineTurn State.Inv.setBusyAcc State.Inv.writeTarget
    State.Inv.engineReset h hp e

/-- Settles O9: each agent's turn keeps the shape, and each but a power-down the invariant. -/
theorem everyStepKeepsTheInvariant : Obligations.EveryStepKeepsTheInvariant :=
  ⟨fun _ _ h e => h.step e, fun _ _ h hp e => h.step hp e⟩

end Sys2Proof.Machine
end

section
/-! PROOFS. The frame of every command (10_state.md R32). -/

namespace Sys2Proof.Machine

/-- Settles O14, by the kinds of step a command can take: completion, draw, or none. -/
theorem commandsTouchOnlyTheirRow : Obligations.CommandsTouchOnlyTheirRow := by
  intro i s t h
  rcases exec_cases h with ⟨code, res, d, rfl, hd⟩ | ⟨hi, rfl⟩ | ⟨hi, f, p, -, rfl, -⟩
  · refine ⟨fun r hr => State.complete_vreg_of_not_mem hd hr code res, State.setVregs_length s d, ?_, fun _ => ?_⟩
    · rw [State.complete_fifo, State.complete_rngWait, State.complete_entropyNext]
      exact s.complete_eq code res d
    · exact ⟨State.complete_fifo .., State.complete_rngWait .., State.complete_entropyNext ..⟩
  · exact ⟨fun _ _ => rfl, rfl, rfl, fun _ => ⟨rfl, rfl, rfl⟩⟩
  · have e := s.drawStep_eq f p s.n
    refine ⟨fun r _ => ?_, ?_, ?_, fun hn => by rw [hi] at hn; cases hn⟩
    · rw [e]; rfl
    · rw [e]
    · rw [e]

end Sys2Proof.Machine
end

section
/-! PROOFS. The registers of the aperture (10_state.md R40 to R56). -/

namespace Sys2Proof.Machine

/-! ## CMD, the configuration, RNG_DATA and CTRL -/

/-- Settles O48: acceptance while idle, OVERRUN while busy. -/
theorem cmdWriteIsAcceptedOrDropped : Obligations.CmdWriteIsAcceptedOrDropped := by
  intro s w
  refine ⟨fun hi => ⟨.fresh, ?_⟩, fun hb => ?_, rfl, rfl, rfl⟩
  · exact congrArg (·, none) (State.writeCmd_idle (State.busy_eq_false_iff.mpr hi) w)
  · exact congrArg (·, none) (State.writeCmd_busy (State.busy_eq_true_iff.mpr hb) w)

/-- Settles O51: each register takes the low bits of the word written. -/
theorem configurationWritesStoreTheirFields : Obligations.ConfigurationWritesStoreTheirFields := by
  intro s v b hi hb h8
  have idle := State.busy_eq_false_iff.mpr hi
  have hoff := decShift_offset_toNat (Nat.lt_of_lt_of_le hb h8)
  refine ⟨State.access_write_locked idle rfl rfl, State.access_write_locked idle rfl rfl,
    State.access_write_locked idle rfl rfl, State.access_write_locked idle rfl rfl,
    State.access_write_locked idle rfl rfl, State.access_write_locked idle (by omega) ?_⟩
  rw [hoff, locate_decShift hb]; rfl

/-- Settles O55: a word is appended where there is room, and otherwise sets RNG_OVF. -/
theorem rngDataAppendsOrOverflows : Obligations.RngDataAppendsOrOverflows := by
  intro s w
  refine ⟨fun room => ⟨_, congrArg (·, none) (State.writeRngData_room room w), rfl, nofun⟩, fun full => ?_, rfl⟩
  exact congrArg (·, none) (State.writeRngData_full full w)

/-- Settles O57: SRST is the reset, and without it only IE and RNG_SRC are stored. -/
theorem ctrlWriteResetsOrStores : Obligations.CtrlWriteResetsOrStores := by
  intro s w
  refine ⟨fun srst => congrArg (·, none) (State.writeCtrl_srst srst),
    fun store => congrArg (·, none) (State.writeCtrl_store store), s.valueAt .ctrl, rfl, fun b => ?_⟩
  show (((0#30).concat s.rngSrc).concat s.ie).getLsbD b = _
  rcases b with _ | _ | b
  · exact BitVec.getLsbD_concat_zero
  · rw [BitVec.getLsbD_concat_succ]; exact BitVec.getLsbD_concat_zero
  · rw [BitVec.getLsbD_concat_succ, BitVec.getLsbD_concat_succ]; exact BitVec.getLsbD_zero

/-! ## STATUS -/

/-- Settles O52: a STATUS write touches the four W1C flags, and the read after it shows the ones written cleared. -/
theorem statusWriteClearsOnlyItsOnes : Obligations.StatusWriteClearsOnlyItsOnes := fun s w =>
  ⟨s.writeStatus w, rfl, rfl, s.statusWord, (s.writeStatus w).statusWord, rfl, rfl, s.statusWord_writeStatus w⟩

/-! ## Reserved bits -/

/-- Settles O53, register by register. -/
theorem reservedBitsReadZeroAndIgnoreWrites : Obligations.ReservedBitsReadZeroAndIgnoreWrites := by
  intro s off v hp h4
  refine ⟨fun hr => ?_, fun m hm => ?_⟩
  · have hl := locate_reserved hp hr
    exact ⟨State.access_read_value h4 hl rfl, by rw [State.access_write h4, hl]; rfl⟩
  · simp only [List.mem_cons, Prod.mk.injEq, List.not_mem_nil, or_false] at hm
    rcases hm with (⟨rfl, rfl⟩ | ⟨rfl, rfl⟩ | ⟨rfl, rfl⟩ | ⟨rfl, rfl⟩ | ⟨rfl, rfl⟩ | ⟨rfl, rfl⟩) | ⟨lo, hi, rfl⟩
    · exact ⟨⟨_, rfl, s.cap1Word_within⟩, rfl⟩
    · refine ⟨⟨_, rfl, ?_⟩, congrArg (·, none) (s.writeCtrl_and_mask v).symm⟩
      exact concat_and_not_eq_zero (concat_and_not_eq_zero (m := 1#30) BitVec.zero_and _) _
    · exact ⟨⟨_, rfl, s.statusWord_within⟩, congrArg (·, none) (s.writeStatus_and_mask v).symm⟩
    · refine ⟨⟨_, rfl, zero_append_and_not_eq_zero (j := 16) s.cfgP⟩, ?_⟩
      exact congrArg (·, none) (s.writeTarget_cfgP_and_mask v).symm
    · refine ⟨⟨_, rfl, zero_append_and_not_eq_zero (j := 24) s.cfgN0⟩, ?_⟩
      exact congrArg (·, none) (s.writeTarget_cfgN0_and_mask v).symm
    · exact ⟨⟨_, rfl, zero_append_and_not_eq_zero (j := 24) (BitVec.ofNat 8 s.fifo.length)⟩, rfl⟩
    · have hl := locate_shifts lo hi
      refine ⟨⟨_, State.access_read_value h4 hl rfl, zero_append_and_not_eq_zero (j := 16) _⟩, ?_⟩
      rw [State.access_write h4, State.access_write h4, hl, State.writeTarget_decShift_and_mask]

/-! ## What the registers read -/

/-- Settles O54, register by register. -/
theorem registersReadTheirFields : Obligations.RegistersReadTheirFields := by
  intro s hp hf
  obtain ⟨-, -, hvlen, -, hnvreg, -, hn0, -, hdepth, -⟩ := Params.legal_iff.mp hp
  obtain ⟨cv, cr, cn⟩ := s.cap0Word_fields
  obtain ⟨cl, cd, cf, cz⟩ := s.cap1Word_fields
  obtain ⟨b0, b1, b2, b3, b4, b5⟩ := s.statusWord_flags
  obtain ⟨z6, he, z12⟩ := s.statusWord_fields
  refine ⟨rfl, ⟨s.cap0Word, rfl, ?_, ?_, ?_⟩, ⟨s.cap1Word, rfl, cl, cd, ?_, cz⟩,
    ⟨s.statusWord, rfl, b0, b1, b2, b3, b4, b5, z6, he, z12⟩, rfl, ⟨s.valueAt .rngLevel, rfl, ?_⟩,
    fun v => ⟨rfl, rfl, rfl, rfl, rfl⟩, rfl, rfl, ?_, ?_, rfl, fun b hb => ?_⟩
  · rw [cv]; exact ofNat_toNat_of_le hvlen (by decide)
  · rw [cr]; exact ofNat_toNat_of_le hnvreg (by decide)
  · rw [cn]; exact ofNat_toNat_of_le hn0 (by decide)
  · rw [cf]; exact ofNat_toNat_of_le hdepth (by decide)
  · show (0#24 ++ BitVec.ofNat 8 s.fifo.length).toNat = _
    rw [zero_append_eq_setWidth, BitVec.toNat_setWidth_of_le (by decide)]
    exact ofNat_toNat_of_le (Nat.le_trans hf hdepth) (by decide)
  · rw [← zero_append_eq_setWidth (j := 16)]; rfl
  · rw [← zero_append_eq_setWidth (j := 24)]; rfl
  · have hoff := decShift_offset_toNat (Nat.lt_of_lt_of_le hb hn0)
    rw [← zero_append_eq_setWidth (j := 16)]
    have h4 : (BitVec.ofNat 17 (0x040 + 4 * b)).toNat % 4 = 0 := by omega
    exact State.access_read_value h4 (by rw [hoff, locate_decShift hb]) rfl

end Sys2Proof.Machine
end

section
/-! PROOFS. The aperture as bus masters see it: bus errors, the LOCK registers and the window while busy, and the words
of the window (20_memory.md R71 to R76). -/

namespace Sys2Proof.Machine

/-! ## Accesses that are not served -/

theorem servable_eq_false_iff {off : BitVec 17} {width : Width} :
    servable off width = false ↔ width ≠ .w32 ∨ off.toNat % 4 ≠ 0 := by
  rw [servable, Bool.and_eq_false_iff, decide_eq_false_iff_not, decide_eq_false_iff_not]

theorem State.access_read_of_not_servable {off : BitVec 17} {width : Width} (h : servable off width = false)
    (s : State) : s.access (.read off width) = (s, some .busError) :=
  if_neg (by rw [h]; decide)

theorem State.access_write_of_not_servable {off : BitVec 17} {width : Width} (h : servable off width = false)
    (s : State) (v : Word) : s.access (.write off width v) = (s, some .busError) :=
  if_neg (by rw [h]; decide)

/-- Settles O47: an access is not served exactly when it is narrow, wide or unaligned, and a served one answers data or
nothing. -/
theorem unalignedOrNarrowAccessIsABusError : Obligations.UnalignedOrNarrowAccessIsABusError := by
  intro s off width v
  refine ⟨fun h => ?_, fun hw h4 => ?_⟩
  · have refused := servable_eq_false_iff.mpr h
    exact ⟨s.access_read_of_not_servable refused, s.access_write_of_not_servable refused v⟩
  · subst hw
    rw [State.access_read h4, State.access_write h4]
    exact ⟨nofun, nofun⟩

/-! ## The LOCK registers -/

/-- The targets that R40 marks LOCK, the window aside (10_state.md R39, R40). -/
inductive Target.IsLock : Target → Prop where
  | arg0 : IsLock .arg0
  | arg1 : IsLock .arg1
  | cfgP : IsLock .cfgP
  | cfgN0 : IsLock .cfgN0
  | genCfg : IsLock .genCfg
  | decShift (b : Nat) : IsLock (.decShift b)

/-- The offsets of the LOCK registers (R40, R55). -/
theorem locate_isLock {p : Params} {off : Nat}
    (h : off = 0x01C ∨ off = 0x020 ∨ off = 0x028 ∨ off = 0x02C ∨ off = 0x030 ∨
      (0x040 ≤ off ∧ off < 0x040 + 4 * p.n0Max)) : (locate p off).IsLock := by
  rcases h with rfl | rfl | rfl | rfl | rfl | ⟨lo, hi⟩
  · exact .arg0
  · exact .arg1
  · exact .cfgP
  · exact .cfgN0
  · exact .genCfg
  · rw [locate_shifts lo hi]; exact .decShift _

/-- A write to a LOCK register is one that a busy engine refuses. -/
theorem Target.IsLock.writeTarget {t : Target} (h : t.IsLock) (s : State) (v : Word) :
    ∃ u, s.writeTarget t v = s.lockedWrite u := by
  cases h <;> exact ⟨_, rfl⟩

/-- A read of a LOCK register is the same busy or idle (20_memory.md R76). -/
theorem Target.IsLock.readTarget {t : Target} (h : t.IsLock) (s : State) : s.readTarget t = (s, s.valueAt t) := by
  cases h <;> rfl

theorem State.access_read_lock {s : State} {off : BitVec 17} (h : off.toNat % 4 = 0)
    (lock : (locate s.params off.toNat).IsLock) :
    s.access (.read off .w32) = (s, some (.data (s.valueAt (locate s.params off.toNat)))) :=
  State.access_read_value h rfl (lock.readTarget s)

/-- No LOCK register shows the command in flight. -/
theorem Target.IsLock.valueAt_idle {t : Target} (h : t.IsLock) (s : State) :
    { s with inflight := none }.valueAt t = s.valueAt t := by
  cases h <;> rfl

/-! ## The window while busy -/

/-- The window takes up 0x1000 to 0x1000 + NVREG·(VLEN/8) (20_memory.md R73). -/
theorem locate_in_window {p : Params} (hp : p.legal = true) {off : Nat} (lo : 0x1000 ≤ off)
    (hi : off < 0x1000 + p.nvreg * p.vregBytes) : ∃ r w, locate p off = .window r w := by
  obtain ⟨-, -, -, -, -, -, hn0, -⟩ := Params.legal_iff.mp hp
  exact ⟨_, _, (locate_above p (by omega)).trans ((if_neg (by omega)).trans (if_pos ⟨lo, hi⟩))⟩

theorem State.readTarget_window_busy {s : State} (busy : s.busy = true) (r w : Nat) :
    s.readTarget (.window r w) = ({ s with busyAcc := true }, 0) := if_pos busy

theorem State.readTarget_window_idle {s : State} (idle : s.busy = false) (r w : Nat) :
    s.readTarget (.window r w) = (s, s.valueAt (.window r w)) := if_neg (by rw [idle]; decide)

/-- A busy engine drops a write to a LOCK register or the window and sets BUSY_ACC (20_memory.md R76). -/
theorem State.access_write_locked_busy {s u : State} {off : BitVec 17} {v : Word} (busy : s.busy = true)
    (h : off.toNat % 4 = 0) (hl : s.writeTarget (locate s.params off.toNat) v = s.lockedWrite u) :
    s.access (.write off .w32 v) = ({ s with busyAcc := true }, none) := by
  rw [State.access_write h, hl, State.lockedWrite, busy]; rfl

/-- Settles O49, by what the offset names: a LOCK register or a word of the window. -/
theorem lockedAccessesAreRefusedWhileBusy : Obligations.LockedAccessesAreRefusedWhileBusy := by
  intro s off v hp hf h4
  have busy : s.busy = true := State.busy_eq_true_iff.mpr hf
  refine ⟨?_, fun window => ?_, fun lock => ?_⟩
  · rintro (lock | window)
    · obtain ⟨u, hu⟩ := (locate_isLock lock).writeTarget s v
      exact State.access_write_locked_busy busy h4 hu
    · obtain ⟨r, w, hl⟩ := locate_in_window hp window.1 window.2
      exact State.access_write_locked_busy busy h4 (by rw [hl]; rfl)
  · obtain ⟨r, w, hl⟩ := locate_in_window hp window.1 window.2
    rw [State.access_read h4, hl, State.readTarget_window_busy busy]
  · have isLock := locate_isLock lock
    have idle := State.access_read_lock (s := { s with inflight := none }) h4 isLock
    rw [State.access_read_lock h4 isLock, idle]
    exact ⟨rfl, congrArg (fun d => some (Reply.data d)) (isLock.valueAt_idle s).symm⟩

/-! ## The words of the window -/

/-- With legal parameters the window's offsets fit the aperture (20_memory.md R70, R73). -/
theorem window_offset_toNat {p : Params} (hp : p.legal = true) {r w : Nat} (hr : r < p.nvreg) (hw : w < p.vlen / 32) :
    (BitVec.ofNat 17 (0x1000 + r * p.vregBytes + 4 * w)).toNat = 0x1000 + r * p.vregBytes + 4 * w := by
  obtain ⟨-, -, hvlen, -, hnvreg, -⟩ := Params.legal_iff.mp hp
  have bytes : p.vregBytes ≤ 4096 := by unfold Params.vregBytes; omega
  have row : r * p.vregBytes ≤ 15 * 4096 := Nat.mul_le_mul (by omega) bytes
  rw [BitVec.toNat_ofNat]; exact Nat.mod_eq_of_lt (by omega)

/-- The window's words are aligned, since VLEN is a multiple of 32. -/
theorem window_offset_aligned {p : Params} (hv : p.vlen % 32 = 0) (r w : Nat) :
    (0x1000 + r * p.vregBytes + 4 * w) % 4 = 0 := by
  have hb : p.vregBytes = 4 * (p.vlen / 32) := by unfold Params.vregBytes; omega
  rw [hb, Nat.mul_left_comm]; omega

/-- Bit b of a window word is bit 32·w + b of its register (20_memory.md R73). -/
theorem State.windowWord_getLsbD (s : State) (r w : Nat) {b : Nat} (hb : b < 32) :
    (s.windowWord r w).getLsbD b = (s.vreg r).testBit (32 * w + b) := by
  rw [State.windowWord, BitVec.getLsbD_ofNat, decide_eq_true hb, Bool.true_and, Nat.testBit_shiftRight]

/-- Replacing word w sets the bits from 32·w to 32·w + 31 and no others. -/
theorem testBit_replaceWord (v w : Nat) (x : Word) (j : Nat) :
    (replaceWord v w x).testBit j =
      if 32 * w ≤ j ∧ j < 32 * w + 32 then x.getLsbD (j - 32 * w) else v.testBit j := by
  rw [replaceWord, Nat.testBit_or, Nat.testBit_or, testBit_low, Nat.testBit_shiftLeft, Nat.testBit_shiftLeft,
    Nat.testBit_shiftRight, BitVec.testBit_toNat]
  rcases Nat.lt_or_ge j (32 * w) with below | le
  · simp [below, Nat.not_le.mpr below, show ¬ 32 * w + 32 ≤ j by omega]
  · rcases Nat.lt_or_ge j (32 * w + 32) with inside | above
    · simp [le, inside, Nat.not_lt.mpr le, Nat.not_le.mpr inside]
    · simp [le, above, Nat.not_lt.mpr le, Nat.not_lt.mpr above, x.getLsbD_of_ge (j - 32 * w) (by omega)]

/-- A register has no bit at VLEN or above, so a write of one of its words loses none of the bits written. -/
theorem State.low_replaceWord {s : State} (hv : s.params.vlen % 32 = 0) (r : Nat) {w : Nat}
    (hw : w < s.params.vlen / 32) (x : Word) :
    low s.params.vlen (replaceWord (s.vreg r) w x) = replaceWord (s.vreg r) w x := by
  refine Nat.eq_of_testBit_eq fun j => ?_
  rw [testBit_low, testBit_replaceWord]
  split
  · rw [decide_eq_true (by omega), Bool.true_and]
  · rw [← testBit_low, State.low_vreg]

/-- Settles O50: the offset names word w of register r, and the bits are those of its read and of its replacement. -/
theorem windowWordIsThirtyTwoRegisterBits : Obligations.WindowWordIsThirtyTwoRegisterBits := by
  intro s r w v hp hlen hi hr hw off
  obtain ⟨hv, -, -, -, -, -, hn0, -⟩ := Params.legal_iff.mp hp
  have idle : s.busy = false := State.busy_eq_false_iff.mpr hi
  have hoff : off.toNat = 0x1000 + r * s.params.vregBytes + 4 * w := window_offset_toNat hp hr hw
  have h4 : off.toNat % 4 = 0 := hoff ▸ window_offset_aligned hv r w
  have hl : locate s.params off.toNat = .window r w := hoff ▸ locate_window hv hr hw hn0
  refine ⟨⟨s.windowWord r w, ?_, fun b hb => s.windowWord_getLsbD r w hb⟩,
    s.setVreg r (replaceWord (s.vreg r) w v), ?_, rfl, fun q hq => State.setVreg_vreg_of_ne hq _, fun j => ?_⟩
  · exact State.access_read_value h4 hl (State.readTarget_window_idle idle r w)
  · exact State.access_write_locked idle h4 (by rw [hl]; rfl)
  · rw [State.setVreg_vreg_self (hlen ▸ hr), State.low_replaceWord hv r hw, testBit_replaceWord]

end Sys2Proof.Machine
end

section
/-! PROOFS. The encoding (30_encoding.md R100 to R109): when a row of the opcode map accepts a word, said by fields; each
word has at most one row; and the illegal words by what they lack. -/

namespace Sys2Proof

/-! ## Words as fields (R101) -/

/-- A word is its six fields. -/
theorem word_eq_iff_fields {u w : Word} : u = w ↔ rsvOf u = rsvOf w ∧ opcOf u = opcOf w ∧ flOf u = flOf w ∧
    vdOf u = vdOf w ∧ vaOf u = vaOf w ∧ vbOf u = vbOf w := by
  rw [← BitVec.toNat_inj]
  simp only [rsvOf, opcOf, flOf, vdOf, vaOf, vbOf]
  omega

theorem fields_lt (w : Word) : vdOf w < 16 ∧ vaOf w < 16 ∧ vbOf w < 16 :=
  ⟨Nat.mod_lt _ (by decide), Nat.mod_lt _ (by decide), Nat.mod_lt _ (by decide)⟩

/-- The fields of a masked word are the masked fields. -/
theorem fields_and (u m : Word) : rsvOf (u &&& m) = rsvOf u &&& rsvOf m ∧ opcOf (u &&& m) = opcOf u &&& opcOf m ∧
    flOf (u &&& m) = flOf u &&& flOf m ∧ vdOf (u &&& m) = vdOf u &&& vdOf m ∧
    vaOf (u &&& m) = vaOf u &&& vaOf m ∧ vbOf (u &&& m) = vbOf u &&& vbOf m := by
  have mod8 (a b : Nat) : (a &&& b) % 256 = a % 256 &&& b % 256 := Nat.and_mod_two_pow (n := 8)
  have mod4 (a b : Nat) : (a &&& b) % 16 = a % 16 &&& b % 16 := Nat.and_mod_two_pow (n := 4)
  simp only [rsvOf, opcOf, flOf, vdOf, vaOf, vbOf, BitVec.toNat_and, Nat.and_div_two_pow, mod8, mod4, and_self]

/-- A word with RSV = 0 is packed from its own fields. -/
theorem packC_fields_self {w : Word} (h : rsvOf w = 0) : packC (opcOf w) (flOf w) (vdOf w) (vaOf w) (vbOf w) = w := by
  rw [← BitVec.toNat_inj, packC, BitVec.toNat_ofNat]
  simp only [rsvOf, opcOf, flOf, vdOf, vaOf, vbOf] at *
  omega

/-! ## The rows of the opcode map (R104) -/

/-- The register fields that the row's mask covers, which are those it does not use, are 0. -/
def Row.Fits (r : Row) (vd va vb : Nat) : Prop :=
  (vdOf r.mask = 0 ∨ vd = 0) ∧ (vaOf r.mask = 0 ∨ va = 0) ∧ (vbOf r.mask = 0 ∨ vb = 0)

/-- In the Match and Mask columns, RSV, OPC and FL are fixed, RSV to 0, and each register field is free or fixed to 0. -/
theorem opcodeMap_columns : ∀ r ∈ opcodeMap,
    (rsvOf r.mask = 255 ∧ rsvOf r.code = 0) ∧ opcOf r.mask = 255 ∧ flOf r.mask = 15 ∧
      ((vdOf r.mask = 0 ∨ vdOf r.mask = 15) ∧ vdOf r.code = 0) ∧
      ((vaOf r.mask = 0 ∨ vaOf r.mask = 15) ∧ vaOf r.code = 0) ∧
      ((vbOf r.mask = 0 ∨ vbOf r.mask = 15) ∧ vbOf r.code = 0) := by decide

/-- No two rows of the map have the same OPC and FL. -/
theorem opcodeMap_nodup : (opcodeMap.map fun r => (opcOf r.code, flOf r.code)).Nodup := by decide

/-- A 4-bit field masked as a whole or not at all is 0 when it is free or 0. -/
theorem and_mask_eq_zero_iff {x m : Nat} (hx : x < 16) (hm : m = 0 ∨ m = 15) : x &&& m = 0 ↔ m = 0 ∨ x = 0 := by
  rcases hm with rfl | rfl
  · simp
  · rw [Nat.and_two_pow_sub_one_of_lt_two_pow (n := 4) hx]; simp

/-- When a row accepts a word, by the fields of R101. -/
theorem Row.accepts_iff {r : Row} (hr : r ∈ opcodeMap) (w : Word) : r.accepts w = true ↔
    rsvOf w = 0 ∧ opcOf r.code = opcOf w ∧ flOf r.code = flOf w ∧ r.Fits (vdOf w) (vaOf w) (vbOf w) := by
  obtain ⟨⟨mrsv, crsv⟩, mopc, mfl, ⟨mvd, cvd⟩, ⟨mva, cva⟩, mvb, cvb⟩ := opcodeMap_columns r hr
  obtain ⟨arsv, aopc, afl, avd, ava, avb⟩ := fields_and w r.mask
  obtain ⟨hvd, hva, hvb⟩ := fields_lt w
  have hrsv : rsvOf w &&& 255 = rsvOf w :=
    Nat.and_two_pow_sub_one_of_lt_two_pow (n := 8) (Nat.div_lt_of_lt_mul w.isLt)
  have hopc : opcOf w &&& 255 = opcOf w := Nat.and_two_pow_sub_one_of_lt_two_pow (n := 8) (Nat.mod_lt _ (by decide))
  have hfl : flOf w &&& 15 = flOf w := Nat.and_two_pow_sub_one_of_lt_two_pow (n := 4) (Nat.mod_lt _ (by decide))
  rw [Row.accepts, beq_iff_eq, word_eq_iff_fields, arsv, aopc, afl, avd, ava, avb, mrsv, mopc, mfl, hrsv, hopc, hfl,
    crsv, cvd, cva, cvb, and_mask_eq_zero_iff hvd mvd, and_mask_eq_zero_iff hva mva, and_mask_eq_zero_iff hvb mvb,
    eq_comm (a := opcOf w), eq_comm (a := flOf w), Row.Fits]

/-- Every command is built by a row, with 0 in the register fields that row does not use. -/
theorem Instr.exists_row (i : Instr) : ∃ r ∈ opcodeMap, ∃ vd va vb, r.Fits vd va vb ∧ i = r.build vd va vb := by
  suffices ∃ (k : Nat) (hk : k < opcodeMap.length), ∃ vd va vb, opcodeMap[k].Fits vd va vb ∧
      i = opcodeMap[k].build vd va vb by
    obtain ⟨k, hk, built⟩ := this
    exact ⟨opcodeMap[k], List.getElem_mem hk, built⟩
  cases i with
  | nop => exact ⟨0, by decide, 0, 0, 0, ⟨.inr rfl, .inr rfl, .inr rfl⟩, rfl⟩
  | pmul vd va vb => exact ⟨1, by decide, vd, va, vb, ⟨.inl rfl, .inl rfl, .inl rfl⟩, rfl⟩
  | pinv vd va => exact ⟨2, by decide, vd, va, 0, ⟨.inl rfl, .inl rfl, .inr rfl⟩, rfl⟩
  | pinvT va => exact ⟨3, by decide, 0, va, 0, ⟨.inr rfl, .inl rfl, .inr rfl⟩, rfl⟩
  | vxor vd va vb => exact ⟨4, by decide, vd, va, vb, ⟨.inl rfl, .inl rfl, .inl rfl⟩, rfl⟩
  | vwt va => exact ⟨5, by decide, 0, va, 0, ⟨.inr rfl, .inl rfl, .inr rfl⟩, rfl⟩
  | cmbBinom vd => exact ⟨6, by decide, vd, 0, 0, ⟨.inl rfl, .inr rfl, .inr rfl⟩, rfl⟩
  | cmbUnrank vd va => exact ⟨7, by decide, vd, va, 0, ⟨.inl rfl, .inl rfl, .inr rfl⟩, rfl⟩
  | cmbUnrankR vd va => exact ⟨8, by decide, vd, va, 0, ⟨.inl rfl, .inl rfl, .inr rfl⟩, rfl⟩
  | cmbRank vd va => exact ⟨9, by decide, vd, va, 0, ⟨.inl rfl, .inl rfl, .inr rfl⟩, rfl⟩
  | genRand vd => exact ⟨10, by decide, vd, 0, 0, ⟨.inl rfl, .inr rfl, .inr rfl⟩, rfl⟩
  | genInv vd => exact ⟨11, by decide, vd, 0, 0, ⟨.inl rfl, .inr rfl, .inr rfl⟩, rfl⟩
  | genHash vd va => exact ⟨12, by decide, vd, va, 0, ⟨.inl rfl, .inl rfl, .inr rfl⟩, rfl⟩
  | decCw vd va => exact ⟨13, by decide, vd, va, 0, ⟨.inl rfl, .inl rfl, .inr rfl⟩, rfl⟩
  | decSyn vd va vb => exact ⟨14, by decide, vd, va, vb, ⟨.inl rfl, .inl rfl, .inl rfl⟩, rfl⟩
  | decSynd vd va vb => exact ⟨15, by decide, vd, va, vb, ⟨.inl rfl, .inl rfl, .inl rfl⟩, rfl⟩

/-- The command a row builds is encoded with the row's OPC and FL, and is well formed when its register fields fit. -/
theorem Row.encode_build {r : Row} (hr : r ∈ opcodeMap) {vd va vb : Nat} (h : r.Fits vd va vb) :
    encode (r.build vd va vb) = packC (opcOf r.code) (flOf r.code) vd va vb ∧
      ((r.build vd va vb).wellFormed = true ↔ vd < 16 ∧ va < 16 ∧ vb < 16) := by
  simp only [opcodeMap, List.mem_cons, List.not_mem_nil, or_false] at hr
  rcases hr with rfl | rfl | rfl | rfl | rfl | rfl | rfl | rfl | rfl | rfl | rfl | rfl | rfl | rfl | rfl | rfl
  all_goals
    simp [Row.Fits, vdOf, vaOf, vbOf] at h
    refine ⟨?_, ?_⟩
    · simp [encode, opcOf, flOf, h]
    · simp [Instr.wellFormed, fieldFits, h, and_assoc]

/-! ## Decoding -/

/-- Two rows of the map with the OPC and FL of one word are one row. -/
theorem Row.eq_of_opc_fl {r r' : Row} (hr : r ∈ opcodeMap) (hr' : r' ∈ opcodeMap) {w : Word}
    (opc : opcOf r.code = opcOf w) (fl : flOf r.code = flOf w) (opc' : opcOf r'.code = opcOf w)
    (fl' : flOf r'.code = flOf w) : r' = r :=
  List.inj_on_of_nodup_map opcodeMap_nodup hr' hr (by rw [opc, opc', fl, fl'])

/-- A word decodes by a row that accepts it, or no row accepts it and it is refused by kind (R104, R105). -/
theorem decode_cases (w : Word) :
    (∃ r ∈ opcodeMap, r.accepts w = true ∧ decode w = .ok (r.build (vdOf w) (vaOf w) (vbOf w))) ∨
    ((∀ r ∈ opcodeMap, ¬ r.accepts w = true) ∧ decode w = .error (illegalReason w)) := by
  cases found : opcodeMap.find? (Row.accepts · w) with
  | none => exact .inr ⟨List.find?_eq_none.mp found, by rw [decode, found]⟩
  | some r =>
    exact .inl ⟨r, List.mem_of_find?_eq_some found, List.find?_some (p := (Row.accepts · w)) found,
      by rw [decode, found]⟩

/-- Any row that accepts a word is the one it decodes by. -/
theorem decode_of_accepts {r : Row} (hr : r ∈ opcodeMap) {w : Word} (h : r.accepts w = true) :
    decode w = .ok (r.build (vdOf w) (vaOf w) (vbOf w)) := by
  rcases decode_cases w with ⟨r', hr', h', e⟩ | ⟨none, -⟩
  · obtain ⟨-, opc, fl, -⟩ := (Row.accepts_iff hr w).mp h
    obtain ⟨-, opc', fl', -⟩ := (Row.accepts_iff hr' w).mp h'
    rw [e, Row.eq_of_opc_fl hr hr' opc fl opc' fl']
  · exact absurd h (none r hr)

/-- A word is refused when no row accepts it, and by the first kind that it is. -/
theorem decode_eq_error_iff {w : Word} {e : Illegal} :
    decode w = .error e ↔ (∀ r ∈ opcodeMap, ¬ r.accepts w = true) ∧ illegalReason w = e := by
  rcases decode_cases w with ⟨r, hr, acc, h⟩ | ⟨none, h⟩ <;> rw [h]
  · exact ⟨nofun, fun refused => absurd acc (refused.1 r hr)⟩
  · exact ⟨fun he => ⟨none, Except.error.inj he⟩, fun he => congrArg Except.error he.2⟩

/-- Settles O1: the row that builds the command accepts its word, whose fields are those packed. -/
theorem encodedCommandDecodesToItself : Obligations.EncodedCommandDecodesToItself := by
  intro i wf
  obtain ⟨r, hr, vd, va, vb, fits, rfl⟩ := i.exists_row
  obtain ⟨henc, hwf⟩ := Row.encode_build hr fits
  obtain ⟨hvd, hva, hvb⟩ := hwf.mp wf
  have hopc : opcOf r.code < 256 := Nat.mod_lt _ (by decide)
  have hfl : flOf r.code < 16 := Nat.mod_lt _ (by decide)
  obtain ⟨fopc, fvd, fva, fvb, ffl⟩ := Laws.packC_fields hopc hfl hvd hva hvb
  have frsv := Laws.RsvIsZero.of_lt (Laws.packC_toNat_lt hopc hfl hvd hva hvb)
  rw [henc, decode_of_accepts hr ((Row.accepts_iff hr _).mpr ⟨frsv, fopc.symm, ffl.symm, by rwa [fvd, fva, fvb]⟩),
    fvd, fva, fvb]

/-- Settles O2: the row that accepts the word fixes every field that its command does not carry. -/
theorem decodedWordIsTheEncoding : Obligations.DecodedWordIsTheEncoding := by
  intro w i h
  rcases decode_cases w with ⟨r, hr, acc, e⟩ | ⟨-, e⟩ <;> rw [e] at h <;> cases h
  obtain ⟨rsv, opc, fl, fits⟩ := (Row.accepts_iff hr w).mp acc
  obtain ⟨henc, hwf⟩ := Row.encode_build hr fits
  exact ⟨hwf.mpr (fields_lt w), by rw [henc, opc, fl, packC_fields_self rsv]⟩

/-- A word written out decodes to the well-formed command that it is the encoding of. -/
theorem decode_of_encode_eq {i : Instr} {w : Word} (wf : i.wellFormed = true) (h : encode i = w) : decode w = .ok i :=
  h ▸ encodedCommandDecodesToItself i wf

/-- Settles O4: each word of R109 is the encoding of its command. -/
theorem encodingExamplesDecode : Obligations.EncodingExamplesDecode := by
  refine ⟨?_, ?_, ?_, ?_, ?_, ?_, ?_, ?_, ?_, ?_, ?_, ?_, ?_, ?_, ?_, ?_⟩
  all_goals exact decode_of_encode_eq rfl rfl

/-! ## Illegal words (R105) -/

/-- The kind of a word that no row accepts, by the rows that share its OPC and its FL. -/
theorem illegalReason_iff (w : Word) :
    (illegalReason w = .reservedNonzero ↔ rsvOf w ≠ 0) ∧
    (illegalReason w = .unassignedOpcode ↔ rsvOf w = 0 ∧ ∀ r ∈ opcodeMap, opcOf r.code ≠ opcOf w) ∧
    (illegalReason w = .wrongFlags ↔ rsvOf w = 0 ∧ (∃ r ∈ opcodeMap, opcOf r.code = opcOf w) ∧
      ∀ r ∈ opcodeMap, opcOf r.code = opcOf w → flOf r.code ≠ flOf w) ∧
    (illegalReason w = .unusedFieldNonzero ↔ rsvOf w = 0 ∧
      ∃ r ∈ opcodeMap, opcOf r.code = opcOf w ∧ flOf r.code = flOf w) := by
  simp only [illegalReason, List.all_eq_true, Bool.or_eq_true, bne_iff_ne]
  split_ifs with rsv opc fl
  · simp [rsv]
  · grind
  · grind
  · grind

/-- The kinds of illegal word by the rows of the map. -/
theorem decode_error_kinds (w : Word) :
    (decode w = .error .reservedNonzero ↔ rsvOf w ≠ 0) ∧
    (decode w = .error .unassignedOpcode ↔ rsvOf w = 0 ∧ ∀ r ∈ opcodeMap, opcOf r.code ≠ opcOf w) ∧
    (decode w = .error .wrongFlags ↔ rsvOf w = 0 ∧ (∃ r ∈ opcodeMap, opcOf r.code = opcOf w) ∧
      ∀ r ∈ opcodeMap, opcOf r.code = opcOf w → flOf r.code ≠ flOf w) ∧
    (decode w = .error .unusedFieldNonzero ↔ rsvOf w = 0 ∧
      ∃ r ∈ opcodeMap, opcOf r.code = opcOf w ∧ flOf r.code = flOf w ∧ ¬ r.Fits (vdOf w) (vaOf w) (vbOf w)) := by
  obtain ⟨reserved, unassigned, flags, unused⟩ := illegalReason_iff w
  simp only [decode_eq_error_iff, reserved, unassigned, flags, unused]
  refine ⟨and_iff_right_of_imp fun rsv r hr acc => ?_, and_iff_right_of_imp fun ⟨_, opc⟩ r hr acc => ?_,
    and_iff_right_of_imp fun ⟨_, _, fl⟩ r hr acc => ?_, fun ⟨refused, rsv, r, hr, opc, fl⟩ => ?_,
    fun ⟨rsv, r, hr, opc, fl, unfit⟩ => ⟨fun r' hr' acc => ?_, rsv, r, hr, opc, fl⟩⟩
  · exact rsv ((Row.accepts_iff hr w).mp acc).1
  · obtain ⟨-, hopc, -⟩ := (Row.accepts_iff hr w).mp acc
    exact opc r hr hopc
  · obtain ⟨-, hopc, hfl, -⟩ := (Row.accepts_iff hr w).mp acc
    exact fl r hr hopc hfl
  · exact ⟨rsv, r, hr, opc, fl, fun fits => refused r hr ((Row.accepts_iff hr w).mpr ⟨rsv, opc, fl, fits⟩)⟩
  · obtain ⟨-, opc', fl', fits⟩ := (Row.accepts_iff hr' w).mp acc
    exact unfit (Row.eq_of_opc_fl hr hr' opc fl opc' fl' ▸ fits)

/-- The OPC values outside the map. -/
theorem unassigned_opcode_iff (opc : Nat) : (∀ r ∈ opcodeMap, opcOf r.code ≠ opc) ↔
    0x05 ≤ opc ∧ opc ≤ 0x0F ∨ 0x13 ≤ opc ∧ opc ≤ 0x1F ∨ 0x23 ≤ opc ∧ opc ≤ 0x2F ∨ 0x33 ≤ opc := by
  simp [opcodeMap, opcOf]
  omega

/-- The FL values that no row of the OPC has: from 2 on where FL[0] is free (R103), from 1 on elsewhere. -/
theorem wrong_flags_iff (opc fl : Nat) :
    ((∃ r ∈ opcodeMap, opcOf r.code = opc) ∧ ∀ r ∈ opcodeMap, opcOf r.code = opc → flOf r.code ≠ fl) ↔
      (opc = 0x02 ∨ opc = 0x11) ∧ 2 ≤ fl ∨
        (opc ∈ [0x00, 0x01, 0x03, 0x04, 0x10, 0x12, 0x20, 0x21, 0x22, 0x30, 0x31, 0x32] ∧ 1 ≤ fl) := by
  simp only [opcodeMap, List.mem_cons, List.not_mem_nil, or_false, exists_eq_or_imp, exists_eq_left, forall_eq_or_imp,
    forall_eq, opcOf, flOf, BitVec.reduceToNat, Nat.reduceDiv, Nat.reduceMod, Nat.reducePow]
  constructor
  · rintro ⟨rfl | rfl | rfl | rfl | rfl | rfl | rfl | rfl | rfl | rfl | rfl | rfl | rfl | rfl | rfl | rfl, fl⟩
    all_goals simp at fl ⊢; omega
  · rintro (⟨rfl | rfl, h⟩ |
      ⟨rfl | rfl | rfl | rfl | rfl | rfl | rfl | rfl | rfl | rfl | rfl | rfl, h⟩)
    all_goals simp; omega

/-- The fields that the rows of each OPC and FL do not use. -/
theorem unused_fields_iff (opc fl vd va vb : Nat) :
    (∃ r ∈ opcodeMap, opcOf r.code = opc ∧ flOf r.code = fl ∧ ¬ r.Fits vd va vb) ↔
      (opc = 0x00 ∧ fl = 0 ∧ ¬ (vd = 0 ∧ va = 0 ∧ vb = 0)) ∨
      ((opc = 0x02 ∧ fl = 1 ∨ opc = 0x04 ∧ fl = 0) ∧ ¬ (vd = 0 ∧ vb = 0)) ∨
      (opc ∈ [0x10, 0x20, 0x21] ∧ fl = 0 ∧ ¬ (va = 0 ∧ vb = 0)) ∨
      ((opc ∈ [0x02, 0x12, 0x22, 0x30] ∧ fl = 0 ∨ opc = 0x11 ∧ fl ≤ 1) ∧ vb ≠ 0) := by
  simp [opcodeMap, opcOf, flOf, Row.Fits, vdOf, vaOf, vbOf]
  grind

/-- Settles O3: the kinds by the rows, with the rows written out. -/
theorem illegalWordsAreRefusedByKind : Obligations.IllegalWordsAreRefusedByKind := by
  intro w
  have kinds := decode_error_kinds w
  rwa [unassigned_opcode_iff, wrong_flags_iff, unused_fields_iff] at kinds

end Sys2Proof
end

section
/-! PROOFS. The engine's and the host's turn where the directives of 30_encoding.md R107 and the illegal words of R105
need them: an illegal word, a poll of STATUS, and the writes of `vld`. -/

namespace Sys2Proof.Machine

/-! ## Turns -/

theorem step_engine {s : State} {rest : List Turn} (h : s.agenda = .engine :: rest) :
    step s = engineTurn { s with agenda := rest } := by rw [step, h]

theorem step_host {s : State} {rest : List Turn} (h : s.agenda = .host :: rest) :
    step s = .next { s with agenda := rest }.hostTurn := by rw [step, h]

/-- With an empty agenda the host moves while the engine is idle (log 2). -/
theorem step_idle {s : State} (h : s.agenda = []) (idle : s.inflight = none) : step s = .next s.hostTurn := by
  have still : s.stepEnabled = false := by rw [State.stepEnabled, State.busy_eq_false_iff.mpr idle, Bool.false_and]
  rw [step, h, still]; rfl

/-- The engine's turn completes an illegal word (R105). -/
theorem engineTurn_illegal {s : State} {f : InFlight} {e : Illegal} (hf : s.inflight = some f)
    (he : decode f.word = .error e) (hw : s.rngWait = false) : engineTurn s = .next (s.raise .illegalCmd 0) := by
  simp [engineTurn, hf, he, hw, State.illegalCompletion]

/-- Settles O6: the completion is `raise`, which writes no destination. -/
theorem illegalWordCompletesWithIllegalCmd : Obligations.IllegalWordCompletesWithIllegalCmd := by
  intro s f e rest hf he hw ha
  exact ⟨State.raise { s with agenda := rest } .illegalCmd 0, (step_engine ha).trans (engineTurn_illegal hf he hw),
    State.completesAs_raise _ _ _, rfl⟩

/-- A poll of STATUS reads its word and changes nothing (10_state.md R46, 20_memory.md R75). -/
theorem State.pollRead_status (s : State) : s.pollRead (BitVec.ofNat 17 RegName.status.offset) = (s, s.statusWord) := rfl

/-- `wait`: the host goes on when STATUS.BUSY reads 0. -/
theorem State.hostTurn_wait {s : State} (h : s.prog[s.hostPc]? = some .wait) :
    s.hostTurn = { s with hostPc := if s.inflight = none then s.hostPc + 1 else s.hostPc } := by
  obtain ⟨hbusy, -⟩ := s.statusWord_flags
  rw [State.hostTurn, h]
  simp only [State.pollRead_status, hbusy]
  cases hb : s.busy with
  | false => rw [if_pos (State.busy_eq_false_iff.mp hb)]; rfl
  | true => rw [if_neg (State.busy_eq_true_iff.mp hb)]; rfl

/-- Settles O60: the host's turn at a `wait`. -/
theorem waitPollsUntilIdle : Obligations.WaitPollsUntilIdle := by
  intro s rest ha hp
  exact (step_host ha).trans (congrArg _ (State.hostTurn_wait (s := { s with agenda := rest }) hp))

/-! ## `vld` -/

/-- A write that the bus answers with nothing leaves the record alone. -/
theorem State.hostTurn_write {s t : State} {a : Access} (h : s.prog[s.hostPc]? = some (.access a))
    (ha : s.access a = (t, none)) : s.hostTurn = { t with hostPc := s.hostPc + 1 } := by
  simp [State.hostTurn, h, State.recorded, ha]

/-- Operation w of `vld vR, value` writes word w of the value to word w of the register (R107). -/
theorem assemble_vld_getElem? {p : Params} {r value w : Nat} (hw : w < p.vlen / 32) :
    (assemble p [.vld r value])[w]? = some (wrOp (windowOffset p r w) (BitVec.ofNat 32 (value >>> (32 * w)))) := by
  simp [assemble, Directive.ops, hw]

/-- While idle, a write to word w of register r replaces that word (20_memory.md R73). -/
theorem State.access_write_window {s : State} {r w : Nat} (hp : s.params.legal = true) (idle : s.inflight = none)
    (hr : r < s.params.nvreg) (hw : w < s.params.vlen / 32) (v : Word) :
    s.access (.write (BitVec.ofNat 17 (windowOffset s.params r w)) .w32 v) =
      (s.setVreg r (replaceWord (s.vreg r) w v), none) := by
  obtain ⟨hv, -, -, -, -, -, hn0, -⟩ := Params.legal_iff.mp hp
  have hoff := window_offset_toNat hp hr hw
  refine State.access_write_locked (State.busy_eq_false_iff.mpr idle) ?_ ?_
  · rw [windowOffset, hoff]; exact window_offset_aligned hv r w
  · rw [windowOffset, hoff, locate_window hv hr hw hn0]; rfl

/-- The register file l is that of s with the first k words of V[r] loaded from the value. -/
structure State.LoadedTo (s : State) (r value k : Nat) (l : List Nat) : Prop where
  vregCount : l.length = s.vregs.length
  loaded : ∀ j, ({ s with vregs := l }.vreg r).testBit j =
    if j < 32 * k then value.testBit j else (s.vreg r).testBit j
  others : ∀ q, q ≠ r → { s with vregs := l }.vreg q = s.vreg q

/-- Before its first write, `vld` has loaded nothing. -/
theorem State.LoadedTo.zero (s : State) (r value : Nat) : s.LoadedTo r value 0 s.vregs where
  vregCount := rfl
  loaded := fun j => by rw [if_neg (by omega)]
  others := fun _ _ => rfl

/-- The write of word k loads one more word. -/
theorem State.LoadedTo.succ {s : State} {r value k : Nat} {l : List Nat} (h : s.LoadedTo r value k l)
    (hv : s.params.vlen % 32 = 0) (hr : r < s.vregs.length) (hk : k < s.params.vlen / 32) :
    let t := { s with vregs := l }
    s.LoadedTo r value (k + 1)
      (t.setVreg r (replaceWord (t.vreg r) k (BitVec.ofNat 32 (value >>> (32 * k))))).vregs := by
  intro t
  refine ⟨by rw [State.setVreg_length]; exact h.vregCount, fun j => ?_, fun q hq => ?_⟩
  · refine (congrArg (Nat.testBit · j) (State.setVreg_vreg_self (s := t) (h.vregCount ▸ hr) _)).trans ?_
    rw [State.low_replaceWord (s := t) hv r hk, testBit_replaceWord, h.loaded, BitVec.getLsbD_ofNat,
      Nat.testBit_shiftRight]
    rcases Nat.lt_or_ge j (32 * k) with below | le
    · simp [below, Nat.not_le.mpr below, show j < 32 * (k + 1) by omega]
    · rcases Nat.lt_or_ge j (32 * k + 32) with inside | above
      · simp [le, inside, show j < 32 * (k + 1) by omega, show j - 32 * k < 32 by omega]
      · simp [Nat.not_lt.mpr above, Nat.not_lt.mpr le, show ¬ j < 32 * (k + 1) by omega]
  · exact (State.setVreg_vreg_of_ne (s := t) hq _).trans (h.others q hq)

/-- When all words are loaded, V[r] is the value's low VLEN bits. -/
theorem State.LoadedTo.vreg_eq {s : State} {r value : Nat} {l : List Nat} (hv : s.params.vlen % 32 = 0)
    (h : s.LoadedTo r value (s.params.vlen / 32) l) : { s with vregs := l }.vreg r = value % 2 ^ s.params.vlen := by
  refine Nat.eq_of_testBit_eq fun j => ?_
  have words : 32 * (s.params.vlen / 32) = s.params.vlen := by omega
  rw [h.loaded, words, Nat.testBit_mod_two_pow, ← State.low_vreg, testBit_low]
  by_cases hj : j < s.params.vlen <;> simp [hj]

/-- The host's run from its operation k of `vld` on loads the words from k on. -/
theorem run_vld {s : State} {r value : Nat} (legal : s.params.legal = true) (count : s.vregs.length = s.params.nvreg)
    (idle : s.inflight = none) (hr : r < s.params.nvreg) (empty : s.agenda = [])
    (prog : s.prog = assemble s.params [.vld r value]) (n : Nat) :
    ∀ (k : Nat) (l : List Nat), k + n = s.params.vlen / 32 → s.LoadedTo r value k l →
      ∃ l', core.run n { s with hostPc := k, vregs := l } = .next { s with hostPc := s.params.vlen / 32, vregs := l' } ∧
        s.LoadedTo r value (s.params.vlen / 32) l' := by
  have hv := (Params.legal_iff.mp legal).1
  induction n with
  | zero => intro k l hk h; obtain rfl : k = s.params.vlen / 32 := hk; exact ⟨l, rfl, h⟩
  | succ n ih =>
    intro k l hk h
    let t := { s with hostPc := k, vregs := l }
    let v : Word := BitVec.ofNat 32 (value >>> (32 * k))
    have inside : k < s.params.vlen / 32 := by omega
    have op : t.prog[t.hostPc]? = some (wrOp (windowOffset t.params r k) v) := by
      rw [show t.prog = _ from prog]; exact assemble_vld_getElem? inside
    have write := State.access_write_window (s := t) legal idle hr inside v
    have turn := (step_idle (s := t) empty idle).trans (congrArg _ (State.hostTurn_write op write))
    obtain ⟨l', run, all⟩ := ih (k + 1) _ (by omega) (h.succ hv (count ▸ hr) inside)
    exact ⟨l', (run_succ_of_step n turn).trans run, all⟩

/-- Settles O59: the run of the VLEN/32 writes, from none to all of the words loaded. -/
theorem vldLoadsTheRegister : Obligations.VldLoadsTheRegister := by
  intro s r value legal count idle hr
  let s0 := { s with agenda := [], prog := assemble s.params [.vld r value], hostPc := 0 }
  obtain ⟨l, run, all⟩ := run_vld (s := s0) (value := value) legal count idle hr rfl rfl (s.params.vlen / 32) 0 s.vregs
    (Nat.zero_add _) (.zero s0 r value)
  exact ⟨_, run, rfl, all.vreg_eq (Params.legal_iff.mp legal).1, all.others⟩

end Sys2Proof.Machine
end

section
/-! PROOFS. What all commands share (40_execution.md R130 to R141): the engine's turn, the checks of R134 in their
order, error completions, and the operands of a running command. -/

namespace Sys2Proof.Machine

/-! ## The engine's turn -/

/-- An engine that is not held runs the command whose word is in flight (R132). -/
theorem engineTurn_decoded {s : State} {f : InFlight} {i : Instr} (hf : s.inflight = some f)
    (hd : decode f.word = .ok i) (hw : s.rngWait = false) : engineTurn s = exec i s := by
  simp [engineTurn, hf, hd, hw]

/-- With an empty agenda a busy engine that is not held moves first (log 2). -/
theorem step_enabled {s : State} (ha : s.agenda = []) (busy : s.busy = true) (hw : s.rngWait = false) :
    step s = engineTurn s := by
  simp [step, ha, State.stepEnabled, busy, hw]

/-- Settles O5: the turn is the engine's, by the agenda or because an enabled engine step goes first. -/
theorem engineTurnRunsTheDecodedCommand : Obligations.EngineTurnRunsTheDecodedCommand := by
  intro s f i hf hd hw
  refine ⟨fun rest ha => ?_, fun ha => ?_⟩
  · exact (step_engine ha).trans (engineTurn_decoded hf hd hw)
  · exact (step_enabled ha (congrArg Option.isSome hf) hw).trans (engineTurn_decoded hf hd hw)

/-- Settles O10: the one step of a command that draws no words is a completion. -/
theorem nonGeneratorsCompleteInOneStep : Obligations.NonGeneratorsCompleteInOneStep := by
  intro i s hi
  obtain ⟨code, res, d, e, -⟩ := exec_completes i s hi
  exact ⟨_, code, res, e, s.completesAs_complete code res d⟩

/-! ## The checks (R134) -/

theorem State.badP_eq_true {s : State} : s.badP = true ↔ ¬ (1 ≤ s.P ∧ s.P ≤ s.params.vlen) := by
  rw [← State.badP_eq_false, Bool.not_eq_false]

theorem State.badBlocks_eq_true {s : State} :
    s.badBlocks = true ↔ ¬ (1 ≤ s.n0 ∧ s.n0 ≤ s.params.n0Max) ∨ ∃ b, b < s.n0 ∧ s.P ≤ s.shift b := by
  rw [← Bool.not_eq_false, State.badBlocks_eq_false, not_and_or]
  simp only [not_forall, not_lt, exists_prop]

theorem State.badRegs_eq_true {s : State} {i : Instr} :
    s.badRegs i = true ↔
      (∃ r ∈ i.singleFields, s.params.nvreg ≤ r) ∨ ∃ r ∈ i.blockFields, s.params.nvreg ≤ r + s.n0 - 1 := by
  rw [← Bool.not_eq_false, State.badRegs_eq_false, not_and_or]
  simp only [not_forall, not_lt, exists_prop]

/-- Steps 2 and 3 of R134 report BAD_CFG. -/
theorem State.preCheck_eq_badCfg {s : State} {i : Instr}
    (h : (i.usesP = true ∧ s.badP = true) ∨ (i.usesBlocks = true ∧ s.badBlocks = true)) :
    s.preCheck i = some .badCfg := by
  simp only [← Bool.and_eq_true] at h
  rcases h with h | h
  · exact if_pos h
  · rw [State.preCheck, if_pos h, ite_self]

/-- Step 4 of R134 reports BAD_REG, once steps 2 and 3 have passed. -/
theorem State.preCheck_eq_badReg {s : State} {i : Instr} (hP : ¬ (i.usesP = true ∧ s.badP = true))
    (hB : ¬ (i.usesBlocks = true ∧ s.badBlocks = true)) (hR : s.badRegs i = true) :
    s.preCheck i = some .badReg := by
  simp only [← Bool.and_eq_true] at hP hB
  rw [State.preCheck, if_neg hP, if_neg hB, if_pos hR]

theorem State.checked_of_preCheck {s : State} {i : Instr} {c : ErrCode} (h : s.preCheck i = some c) (argsOk : Bool)
    (op : Unit → State) : s.checked i argsOk op = s.raise c 0 := by
  rw [State.checked, h]

theorem State.checked_of_badArgs {s : State} {i : Instr} (h : s.preCheck i = none) (op : Unit → State) :
    s.checked i false op = s.raise .badArg 0 := by
  rw [State.checked, h]; rfl

/-- The argument check of each command (step 5 of R134). -/
def State.argsOk (s : State) : Instr → Bool
  | .vwt _ | .cmbBinom _ => decide (s.n ≤ s.params.vlen)
  | .cmbUnrank _ _ | .cmbUnrankR _ _ => decide (s.n ≤ s.params.vlen) && decide (s.k ≤ s.n)
  | .cmbRank _ va => rankArgsOk s.params.vlen s.n s.k (s.vreg va)
  | .genRand _ | .genHash _ _ => s.sizeOk
  | .genInv _ => s.sizeOk && decide (s.k % 2 = 1)
  | .nop | .pmul .. | .pinv .. | .pinvT .. | .vxor .. | .decCw .. | .decSyn .. | .decSynd .. => true

/-- The engine step of every command is its operation behind the checks of R134. -/
theorem exec_eq_checked (i : Instr) (s : State) (hg : i.isGenerator = true → s.inflight ≠ none) :
    ∃ op, exec i s = .next (s.checked i (s.argsOk i) op) := by
  cases i with
  | genRand vd =>
    obtain ⟨f, hf⟩ := Option.ne_none_iff_exists'.mp (hg rfl)
    exact ⟨_, execGenRand_inflight hf vd⟩
  | genInv vd =>
    obtain ⟨f, hf⟩ := Option.ne_none_iff_exists'.mp (hg rfl)
    exact ⟨_, execGenInv_inflight hf vd⟩
  | _ => exact ⟨_, rfl⟩

/-- Settles O11: a check that fails is what the step reports, whatever the command's operation. -/
theorem checksReportTheFirstFailure : Obligations.ChecksReportTheFirstFailure := by
  intro i s hg pBad blocksBad regsBad
  obtain ⟨op, e⟩ := exec_eq_checked i s hg
  have report : ∀ {c}, s.preCheck i = some c → ∃ t, exec i s = .next t ∧ s.CompletesAs t c 0 ∧ t.vregs = s.vregs :=
    fun {c} h => ⟨s.raise c 0, by rw [e, State.checked_of_preCheck h], s.completesAs_raise c 0, rfl⟩
  have hP : i.usesP = true ∧ s.badP = true ↔ pBad := and_congr_right fun _ => State.badP_eq_true
  have hB : i.usesBlocks = true ∧ s.badBlocks = true ↔ blocksBad := and_congr_right fun _ => State.badBlocks_eq_true
  refine ⟨fun bad => report (State.preCheck_eq_badCfg ?_),
    fun okP okB bad => report (State.preCheck_eq_badReg ?_ ?_ ?_)⟩
  · rwa [hP, hB]
  · rwa [hP]
  · rwa [hB]
  · exact State.badRegs_eq_true.mpr bad

/-! ## The argument checks (step 5 of R134) -/

theorem State.sizeOk_eq_false {s : State} : s.sizeOk = false ↔ s.n < 1 ∨ s.params.vlen < s.n ∨ s.n < s.k := by
  simp only [State.sizeOk, Bool.and_eq_false_iff, decide_eq_false_iff_not, not_le, or_assoc]

theorem unrankArgs_eq_false {vlen n k : Nat} :
    (decide (n ≤ vlen) && decide (k ≤ n)) = false ↔ vlen < n ∨ n < k := by
  simp only [Bool.and_eq_false_iff, decide_eq_false_iff_not, not_le]

/-- A vector is a subset of the numbers below n when it has no bit at n or above. -/
theorem lt_two_pow_iff_testBit {n v : Nat} : v < 2 ^ n ↔ ∀ j, n ≤ j → v.testBit j = false :=
  ⟨fun h _ hj => Nat.testBit_lt_two_pow (h.trans_le (Nat.pow_le_pow_right (by decide) hj)),
    Nat.lt_pow_two_of_testBit v⟩

theorem rankArgsOk_eq_false {vlen n k v : Nat} : rankArgsOk vlen n k v = false ↔
    vlen < n ∨ n < k ∨ countBelow vlen v.testBit ≠ k ∨ ∃ j, n ≤ j ∧ v.testBit j = true := by
  rw [← popcount_eq_countBelow]
  simp only [rankArgsOk, lt_two_pow_iff_testBit, Bool.and_eq_false_iff, decide_eq_false_iff_not, not_le, not_forall,
    Bool.not_eq_false, exists_prop, or_assoc, ne_eq]

/-- Settles O12: the conditions of the statement are those of the argument checks. -/
theorem badArgumentsAreReported : Obligations.BadArgumentsAreReported := by
  intro i s ready hg bad
  have args : s.argsOk i = false := by
    cases i with
    | vwt va => exact decide_eq_false (Nat.not_le.mpr bad)
    | cmbBinom vd => exact decide_eq_false (Nat.not_le.mpr bad)
    | cmbUnrank vd va => exact unrankArgs_eq_false.mpr bad
    | cmbUnrankR vd va => exact unrankArgs_eq_false.mpr bad
    | cmbRank vd va => exact rankArgsOk_eq_false.mpr bad
    | genRand vd => exact State.sizeOk_eq_false.mpr bad
    | genInv vd =>
      simpa only [State.argsOk, Bool.and_eq_false_iff, State.sizeOk_eq_false, decide_eq_false_iff_not,
        Nat.mod_two_ne_one, or_assoc] using bad
    | genHash vd va => exact State.sizeOk_eq_false.mpr bad
    | _ => exact bad.elim
  obtain ⟨op, e⟩ := exec_eq_checked i s hg
  rw [args, State.checked_of_badArgs ready.preCheck_none] at e
  exact ⟨_, e, s.completesAs_raise .badArg 0, rfl⟩

/-! ## Error completions (R135) -/

/-- A draw step leaves the generator in flight. -/
theorem State.drawStep_inflight_ne_none (s : State) (f : InFlight) (p : Progress) (size : Nat) :
    (s.drawStep f p size).inflight ≠ none := by
  rcases s.drawStep_cases f p size with ⟨w, rest, -, -, e⟩ | ⟨-, -, e⟩ | ⟨-, e⟩ <;> rw [e] <;> exact nofun

/-- A step that leaves no command in flight is a completion, and with an error code it writes no destination. -/
theorem exec_eq_complete {i : Instr} {s t : State} (busy : s.inflight ≠ none) (h : exec i s = .next t)
    (idle : t.inflight = none) : ∃ code res d, t = s.complete code res d ∧ (code ≠ .ok → d = []) := by
  cases hi : i.isGenerator with
  | false =>
    obtain ⟨code, res, d, e, hd, -⟩ := exec_completes i s hi
    rw [e] at h; cases h
    exact ⟨code, res, d, rfl, hd⟩
  | true =>
    rcases exec_generator_cases hi h with ⟨hf, -⟩ | ⟨f, -, ⟨c, -, e⟩ | ⟨vd, g, -, e, -⟩⟩
    · exact absurd hf busy
    · exact ⟨c, 0, [], e, fun _ => rfl⟩
    · rcases s.genStep_cases f vd g with ⟨v, res, -, e'⟩ | ⟨res, -, e'⟩ | ⟨p, -, e'⟩ <;> rw [e'] at e
      · exact ⟨.ok, res, _, e, fun hc => absurd rfl hc⟩
      · exact ⟨.genExhausted, res, [], e, fun _ => rfl⟩
      · rw [e] at idle
        exact absurd idle (s.drawStep_inflight_ne_none f p s.n)

/-- Settles O13: an error completion has no destinations. -/
theorem errorCompletionWritesNoRegister : Obligations.ErrorCompletionWritesNoRegister := by
  intro i s t busy h idle err
  obtain ⟨code, res, d, rfl, hd⟩ := exec_eq_complete busy h idle
  obtain rfl := hd err
  exact ⟨s.completesAs_complete code res [], rfl⟩

/-! ## NOP (R137) -/

theorem State.preCheck_nop (s : State) : s.preCheck .nop = none := rfl

theorem exec_nop (s : State) : exec .nop s = .next (s.complete .ok 0 []) :=
  congrArg Host.Outcome.next (State.checked_of_ok s.preCheck_nop rfl _)

/-- The only row with OPC 0x00 fixes every bit of the word to 0 (30_encoding.md R104). -/
theorem opcodeMap_opc_zero : ∀ r ∈ opcodeMap, opcOf r.code = 0x00 → r.code = 0 ∧ r.mask = BitVec.allOnes 32 := by decide

/-- A word with OPC 0x00 that some row accepts is 0. -/
theorem eq_zero_of_accepts {r : Row} (hr : r ∈ opcodeMap) {w : Word} (hw : opcOf w = 0x00) (acc : r.accepts w = true) :
    w = 0 := by
  obtain ⟨-, opc, -⟩ := (Row.accepts_iff hr w).mp acc
  obtain ⟨code, mask⟩ := opcodeMap_opc_zero r hr (opc.trans hw)
  rwa [Row.accepts, code, mask, BitVec.and_allOnes, beq_iff_eq] at acc

/-- Settles O18: NOP has no checks that can fail, and its row accepts the word 0 only. -/
theorem nopCompletesOkWithZero : Obligations.NopCompletesOkWithZero := by
  refine ⟨fun s => ⟨_, exec_nop s, s.completesAs_complete .ok 0 [], rfl⟩, fun w hw => ⟨?_, fun h0 => ?_⟩⟩
  · rintro rfl; exact decode_of_encode_eq rfl rfl
  · exact ⟨_, decode_eq_error_iff.mpr ⟨fun r hr acc => h0 (eq_zero_of_accepts hr hw acc), rfl⟩⟩

/-! ## Accesses while busy (R131, R36, 20_memory.md R76) -/

/-- What an access of a bus master can leave of s while a command runs: other CTRL bits, other flags, and words appended
to the FIFO. -/
inductive State.BusyFrame (s : State) : State → Prop where
  | mk (ie src done overrun acc ovf wait : Bool) (l : List Word) : s.BusyFrame { s with
      ie := ie, rngSrc := src, done := done, overrun := overrun, busyAcc := acc, rngOvf := ovf, rngWait := wait
      fifo := s.fifo ++ l }

theorem State.BusyFrame.of_flags (s : State) (ie src done overrun acc ovf : Bool) : s.BusyFrame { s with
    ie := ie, rngSrc := src, done := done, overrun := overrun, busyAcc := acc, rngOvf := ovf } := by
  simpa only [List.append_nil] using State.BusyFrame.mk (s := s) ie src done overrun acc ovf s.rngWait []

theorem State.BusyFrame.refl (s : State) : s.BusyFrame s := .of_flags s _ _ _ _ _ _

theorem State.BusyFrame.readTarget (s : State) (t : Target) : s.BusyFrame (s.readTarget t).1 := by
  rcases s.readTarget_fst t with e | ⟨-, e⟩ <;> rw [e]
  · exact .refl s
  · exact .of_flags s _ _ _ _ true _

theorem State.BusyFrame.writeRngData (s : State) (v : Word) : s.BusyFrame (s.writeRngData v) := by
  rcases Nat.lt_or_ge s.fifo.length s.params.fifoDepth with room | full
  · rw [State.writeRngData_room room]; exact .mk _ _ _ _ _ _ false [v]
  · rw [State.writeRngData_full full]; exact .of_flags s _ _ _ _ _ true

theorem State.BusyFrame.lockedWrite {s : State} (busy : s.busy = true) (u : State) : s.BusyFrame (s.lockedWrite u) := by
  rw [State.lockedWrite, if_pos busy]; exact .of_flags s _ _ _ _ true _

/-- While busy, every served write but a soft reset stays within the frame. -/
theorem State.BusyFrame.writeTarget {s : State} (busy : s.busy = true) {t : Target} {v : Word}
    (srst : t = .ctrl → v.getLsbD 2 = false) : s.BusyFrame (s.writeTarget t v) := by
  cases t with
  | ctrl =>
    change s.BusyFrame (s.writeCtrl v)
    rw [State.writeCtrl_store (srst rfl)]; exact .of_flags s _ _ _ _ _ _
  | status => exact .of_flags s _ _ _ _ _ _
  | cmd =>
    change s.BusyFrame (s.writeCmd v)
    rw [State.writeCmd_busy busy]; exact .of_flags s _ _ _ true _ _
  | rngData => exact .writeRngData s v
  | arg0 | arg1 | cfgP | cfgN0 | genCfg | decShift | window => exact .lockedWrite busy _
  | id | cap0 | cap1 | res | rngLevel | reserved => exact .refl s

/-- While busy, every access but a CTRL write with SRST stays within the frame. -/
theorem State.BusyFrame.access {s : State} (busy : s.busy = true) {a : Access}
    (srst : ∀ v, a = .write 0x010 .w32 v → v.getLsbD 2 = false) : s.BusyFrame (s.access a).1 := by
  cases a with
  | read off width =>
    cases served : servable off width with
    | false => rw [State.access_read_of_not_servable served]; exact .refl s
    | true => rw [State.access, if_pos served]; exact .readTarget s _
  | write off width v =>
    cases served : servable off width with
    | false => rw [State.access_write_of_not_servable served]; exact .refl s
    | true =>
      rw [State.access, if_pos served]
      refine .writeTarget busy fun ctrl => srst v ?_
      have hoff : off = 0x010 := BitVec.eq_of_toNat_eq (locate_eq_ctrl.mp ctrl)
      have hwidth : width = .w32 := of_decide_eq_true (Bool.and_eq_true_iff.mp served).1
      rw [hoff, hwidth]

/-- An access outside the aperture is not the engine's (R70, log 10). -/
theorem State.transfer_outside {s : State} {x : Transfer} {address : Nat}
    (hx : ∃ width v, x = .read address width ∨ x = .write address width v)
    (h : address < s.params.base ∨ s.params.base + 0x20000 ≤ address) : s.transfer x = (s, none) := by
  have outside : ¬ s.params.inAperture address = true := by rw [Params.inAperture_eq_true]; omega
  obtain ⟨width, v, rfl | rfl⟩ := hx
  · exact if_neg outside
  · exact if_neg outside

/-- Settles O56: an access in the aperture stays within the frame, and any other does nothing. -/
theorem busyAccessesKeepTheOperands : Obligations.BusyAccessesKeepTheOperands := by
  intro s x running srst
  have busy : s.busy = true := State.busy_eq_true_iff.mpr running
  have kept : s.BusyFrame (s.transfer x).1 := by
    rcases s.transfer_cases x with e | ⟨a, hx, e⟩ <;> rw [e]
    · exact .refl s
    · exact .access busy fun v ha => srst v (by rw [hx, ha]; rfl)
  refine ⟨?_, fun _ hx h => State.transfer_outside hx h⟩
  generalize (s.transfer x).1 = t at kept
  obtain ⟨ie, src, done, overrun, acc, ovf, wait, l⟩ := kept
  exact ⟨rfl, rfl, rfl, rfl, rfl, rfl, rfl, rfl, rfl, rfl, rfl, rfl, l, rfl⟩

end Sys2Proof.Machine
end

section
/-! PROOFS. The operation length (40_execution.md R140): a command that uses P reads the registers below P only, and
what it writes, and what the generators and GEN_HASH write, lies below the length. -/

namespace Sys2Proof.Machine

/-! ## What a destination holds -/

/-- A register at or above the register count reads 0 (log 20). -/
theorem State.vreg_of_length_le {s : State} {r : Nat} (h : s.vregs.length ≤ r) : s.vreg r = 0 := by
  rw [State.vreg, List.getD_eq_default _ _ h, low_zero]

/-- What a destination holds after a list of writes is the value of one of them, the same one in every state. -/
theorem State.setVregs_vreg_eq {d : List (Nat × Nat)} {r : Nat} (hr : r ∈ d.map Prod.fst) :
    ∃ w ∈ d, ∀ s : State, r < s.vregs.length → (s.setVregs d).vreg r = low s.params.vlen w.2 := by
  induction d with
  | nil => cases hr
  | cons w rest ih =>
    by_cases later : r ∈ rest.map Prod.fst
    · obtain ⟨w', hw', e⟩ := ih later
      exact ⟨w', List.mem_cons_of_mem w hw', fun s hs => e (s.setVreg w.1 w.2) (by simpa using hs)⟩
    · obtain rfl : r = w.1 := (List.mem_cons.mp hr).resolve_right later
      refine ⟨w, List.mem_cons_self, fun s hs => ?_⟩
      rw [State.setVregs_cons, State.setVregs_vreg_of_not_mem later, State.setVreg_vreg_self hs]

/-- A destination lies below a length that all the values written lie below. -/
theorem State.complete_vreg_lt {d : List (Nat × Nat)} {r m : Nat} (hr : r ∈ d.map Prod.fst) (hd : ∀ w ∈ d, w.2 < 2 ^ m)
    (s : State) (code : ErrCode) (res : Word) : (s.complete code res d).vreg r < 2 ^ m := by
  rw [State.complete_vreg]
  rcases Nat.lt_or_ge r s.vregs.length with inside | outside
  · obtain ⟨w, hw, e⟩ := State.setVregs_vreg_eq hr
    rw [e s inside, low_eq_mod]
    exact (Nat.mod_le _ _).trans_lt (hd w hw)
  · rw [State.vreg_of_length_le (by rwa [State.setVregs_length])]
    exact Nat.two_pow_pos m

/-! ## The values written -/

theorem modulus_ne_zero (P : Nat) : modulus P ≠ 0 := Nat.ne_of_gt Nat.right_le_or

theorem bitlen_modulus_le (P : Nat) : bitlen (modulus P) ≤ P + 1 := by
  rw [bitlen_eq_size, Nat.size_le, modulus, Nat.one_shiftLeft]
  exact Nat.or_lt_two_pow (Nat.pow_lt_pow_right (by decide) (Nat.lt_succ_self P))
    (Nat.one_lt_two_pow (Nat.succ_ne_zero P))

/-- Long division with a step for every digit ends with a remainder shorter than the divisor. -/
theorem bitlen_polyDivSteps_lt {b : Nat} (hb : b ≠ 0) {fuel q a : Nat} (h : bitlen a ≤ fuel) :
    bitlen (polyDivSteps fuel q a b).2 < bitlen b := by
  induction fuel generalizing q a with
  | zero =>
    have pos : 0 < bitlen b := by rw [bitlen_eq_size]; exact Nat.size_pos.mpr (Nat.pos_of_ne_zero hb)
    exact (Nat.le_zero.mp h).trans_lt pos
  | succ fuel ih =>
    rw [polyDivSteps]
    split
    · assumption
    · rename_i hle
      exact ih (Nat.le_of_lt_succ ((bitlen_divStep_lt hb (Nat.not_lt.mp hle)).trans_le h))

/-- The inverse is a P-bit vector (41_polynomial.md R161). -/
theorem ringInv_lt {P a b : Nat} (h : ringInv P a = some b) : b < 2 ^ P := by
  rw [ringInv] at h
  split at h <;> cases h
  rw [← Nat.size_le, ← bitlen_eq_size]
  exact Nat.le_of_lt_succ ((bitlen_polyDivSteps_lt (modulus_ne_zero P) le_rfl).trans_le (bitlen_modulus_le P))

/-- The scan sets bits below the positions it has passed only (43_generator.md R226). -/
theorem hashScan_lt {weight d rest v ones pos : Nat} (h : v < 2 ^ pos) :
    (hashScan weight d rest v ones pos).1 < 2 ^ (pos + rest) := by
  induction rest generalizing v ones pos with
  | zero => exact h
  | succ rest ih =>
    have wider : 2 ^ pos < 2 ^ (pos + 1) := Nat.pow_lt_pow_right (by decide) (Nat.lt_succ_self pos)
    rw [hashScan, Nat.add_comm rest, ← Nat.add_assoc]
    split
    · exact h.trans_le (Nat.pow_le_pow_right (by decide) (by omega))
    · split
      · refine ih (Nat.or_lt_two_pow (h.trans wider) ?_)
        rwa [Nat.one_shiftLeft]
      · exact ih (h.trans wider)

/-- What GEN_RAND or GEN_INV finishes with is the vector of its progress. -/
theorem randStep_finish {s : State} {p : Progress} {v : Nat} {res : Word} (h : randStep s p = .finish v res) :
    v = p.vec := by
  unfold randStep at h
  split at h
  · cases h; rfl
  · split at h <;> cases h

theorem invStep_finish {s : State} {p : Progress} {v : Nat} {res : Word} (h : invStep s p = .finish v res) :
    v = p.vec := by
  unfold invStep at h
  split at h
  · cases h; rfl
  · split at h
    · split at h <;> cases h
    · split at h <;> cases h

/-! ## Commands that use P -/

/-- The low bits are what the bits below the length are. -/
theorem low_congr {n v w : Nat} (h : ∀ j, j < n → v.testBit j = w.testBit j) : low n v = low n w := by
  refine Nat.eq_of_testBit_eq fun j => ?_
  rw [testBit_low, testBit_low]
  by_cases hj : j < n
  · rw [h j hj]
  · rw [decide_eq_false hj, Bool.false_and, Bool.false_and]

/-- u is s but for register bits at positions P and above. -/
structure State.SameBelowP (s u : State) : Prop where
  others : u = { s with vregs := u.vregs }
  polys : ∀ r, u.poly r = s.poly r

theorem State.SameBelowP.refl (s : State) : s.SameBelowP s := ⟨rfl, fun _ => rfl⟩

section
variable {s u : State} (h : s.SameBelowP u)
include h

theorem State.SameBelowP.P_eq : u.P = s.P := by rw [h.others]; rfl

theorem State.SameBelowP.n0_eq : u.n0 = s.n0 := by rw [h.others]; rfl

/-- The checks of steps 2 to 4 read no vector register. -/
theorem State.SameBelowP.preCheck_eq (i : Instr) : u.preCheck i = s.preCheck i := by rw [h.others]; rfl

theorem State.SameBelowP.parity_eq (r : Nat) : u.parity r = s.parity r := by
  have shifts : u.shift = s.shift := by rw [h.others]; rfl
  simp only [State.parity, h.polys, h.P_eq, h.n0_eq, shifts]

/-- A block word is read from the bits below P (44_decoder.md R250). -/
theorem State.SameBelowP.blockWord_eq (r : Nat) : u.blockWord r = s.blockWord r := by
  refine Nat.eq_of_testBit_eq fun q => ?_
  rw [State.testBit_blockWord, State.testBit_blockWord, h.P_eq, h.n0_eq]
  by_cases hq : q < s.n0 * s.P
  · have inside : q % s.P < s.P := Nat.mod_lt q (Nat.pos_of_lt_mul_left hq)
    have bit := congrArg (Nat.testBit · (q % s.P)) (h.polys (r + q / s.P))
    simp only [State.testBit_poly, h.P_eq, inside, decide_true, Bool.true_and] at bit
    rw [bit]
  · rw [decide_eq_false hq, Bool.false_and, Bool.false_and]

theorem State.SameBelowP.blockWrites_eq (r x : Nat) : u.blockWrites r x = s.blockWrites r x := by
  rw [State.blockWrites, State.blockWrites, h.P_eq, h.n0_eq]

end

/-- The operation completes s, and every state that is s below P, with one code, RES and list of writes; on success it
writes dst, and all values written are P-bit vectors. -/
def State.CompletesByP (s : State) (dst : List Nat) (op : State → State) : Prop :=
  ∃ code res d, (∀ u, s.SameBelowP u → op u = u.complete code res d) ∧ (code = .ok → d.map Prod.fst = dst) ∧
    ∀ w ∈ d, w.2 < 2 ^ s.P

/-- A completion without destinations. -/
theorem State.CompletesByP.of_no_writes {s : State} {dst : List Nat} {op : State → State} (code : ErrCode) (res : Word)
    (hc : code = .ok → dst = []) (h : ∀ u, s.SameBelowP u → op u = u.complete code res []) : s.CompletesByP dst op :=
  ⟨code, res, [], h, fun ok => (hc ok).symm, nofun⟩

/-- A successful completion with one destination. -/
theorem State.CompletesByP.of_write {s : State} {vd v : Nat} {op : State → State} (res : Word) (hv : v < 2 ^ s.P)
    (h : ∀ u, s.SameBelowP u → op u = u.complete .ok res [(vd, v)]) : s.CompletesByP [vd] op :=
  ⟨.ok, res, [(vd, v)], h, fun _ => rfl, fun _ hw => by rwa [List.mem_singleton.mp hw]⟩

/-- A check that fails does so alike, and otherwise the operation completes alike. -/
theorem State.CompletesByP.checked {s : State} {dst : List Nat} {op : State → State} (i : Instr)
    (h : s.CompletesByP dst op) : s.CompletesByP dst fun u => u.checked i true fun _ => op u := by
  cases hc : s.preCheck i with
  | some c =>
    have fails : c ≠ .ok := by rcases State.preCheck_code hc with rfl | rfl <;> decide
    exact .of_no_writes c 0 (fun ok => absurd ok fails) fun u hu =>
      State.checked_of_preCheck ((hu.preCheck_eq i).trans hc) true _
  | none =>
    obtain ⟨code, res, d, e, rest⟩ := h
    exact ⟨code, res, d, fun u hu =>
      (State.checked_of_ok ((hu.preCheck_eq i).trans hc) rfl _).trans (e u hu), rest⟩

/-- What the decoder's loop ends with is written below P in each block, or nothing is. -/
theorem State.CompletesByP.decoded {s : State} {vd : Nat} {loop : State → Option (Nat × Nat)}
    (h : ∀ u, s.SameBelowP u → loop u = loop s) :
    s.CompletesByP ((List.range s.n0).map (vd + ·)) fun u => u.decoded vd (loop u) := by
  cases hl : loop s with
  | none => exact .of_no_writes .decodeFail _ nofun fun u hu => congrArg (u.decoded vd) ((h u hu).trans hl)
  | some xr =>
    refine ⟨.ok, BitVec.ofNat 32 xr.2, s.blockWrites vd xr.1, fun u hu => ?_, fun _ => s.blockWrites_fst vd xr.1,
      fun w hw => ?_⟩
    · change u.decoded vd (loop u) = _
      rw [h u hu, hl, ← hu.blockWrites_eq]; rfl
    · obtain ⟨b, -, rfl⟩ := List.mem_map.mp hw
      exact low_lt _ _

/-- Every command that uses P reads the registers below P only, and writes P-bit vectors (R140). -/
theorem exec_usesP {i : Instr} (hi : i.usesP = true) (s : State) :
    ∃ op, (∀ u, exec i u = .next (op u)) ∧ s.CompletesByP (i.destinations s.n0) op := by
  cases i with
  | pmul vd va vb =>
    exact ⟨_, fun _ => rfl, .checked _ (.of_write 0 (ringMul_lt s.P (s.poly va) (s.poly vb)) fun u hu => by
      rw [hu.P_eq, hu.polys, hu.polys])⟩
  | pinv vd va =>
    refine ⟨_, fun _ => rfl, .checked _ ?_⟩
    cases inv : ringInv s.P (s.poly va) with
    | none => exact .of_no_writes .noInverse 0 nofun fun u hu => by rw [hu.P_eq, hu.polys, inv]; rfl
    | some b => exact .of_write 1 (ringInv_lt inv) fun u hu => by rw [hu.P_eq, hu.polys, inv]
  | pinvT va =>
    refine ⟨_, fun _ => rfl, .checked _ ?_⟩
    cases inv : invertible s.P (s.poly va) with
    | false => exact .of_no_writes .noInverse 0 nofun fun u hu => by rw [hu.P_eq, hu.polys, inv]; rfl
    | true => exact .of_no_writes .ok 1 (fun _ => rfl) fun u hu => by rw [hu.P_eq, hu.polys, inv]; rfl
  | decCw vd va =>
    exact ⟨_, fun _ => rfl, .checked _ (.decoded fun u hu => by rw [hu.parity_eq, hu.blockWord_eq])⟩
  | decSyn vd va vb =>
    exact ⟨_, fun _ => rfl, .checked _ (.decoded fun u hu => by rw [hu.parity_eq, hu.polys])⟩
  | decSynd vd va vb =>
    exact ⟨_, fun _ => rfl, .checked _ (.of_write _ ((s.parity va).synd_lt (s.blockWord vb)) fun u hu => by
      rw [hu.parity_eq, hu.blockWord_eq, hu.P_eq])⟩
  | _ => cases hi

/-- Settles O15: the two states complete with one list of writes. -/
theorem sourceBitsAtOrAbovePAreIgnored : Obligations.SourceBitsAtOrAbovePAreIgnored := by
  intro i s l t t' hi hl agree h h'
  have same : s.SameBelowP { s with vregs := l } := ⟨rfl, fun r => low_congr (agree r)⟩
  obtain ⟨op, e, code, res, d, hop, hd, -⟩ := exec_usesP hi s
  rw [e, hop s (.refl s)] at h
  rw [e, hop _ same] at h'
  cases h; cases h'
  refine ⟨rfl, rfl, fun ok r hr hlen => ?_⟩
  obtain ⟨w, -, hw⟩ := State.setVregs_vreg_eq (hd ok ▸ hr)
  rw [State.complete_vreg, State.complete_vreg, hw s hlen, hw { s with vregs := l } (hl ▸ hlen)]

/-! ## Commands that use the scalar length -/

/-- GEN_RAND or GEN_INV that completes OK writes the vector of its progress. -/
theorem exec_generator_ok {i : Instr} {s t : State} {f : InFlight} (hi : i.isGenerator = true)
    (hf : s.inflight = some f) (h : exec i s = .next t) (idle : t.inflight = none) (ok : t.err = .ok) :
    ∃ vd res, i.destinations s.n0 = [vd] ∧ t = s.complete .ok res [(vd, f.progress.vec)] := by
  rcases exec_generator_cases hi h with ⟨hn, -⟩ | ⟨f', hf', ⟨c, hc, rfl⟩ | ⟨vd, g, hdst, rfl, hg⟩⟩
  · rw [hf] at hn; cases hn
  · exact absurd ok hc
  · obtain rfl : f = f' := Option.some.inj (hf.symm.trans hf')
    rcases s.genStep_cases f vd g with ⟨v, res, rfl, e⟩ | ⟨res, -, e⟩ | ⟨p, -, e⟩
    · have hv : v = f.progress.vec := hg.elim (fun e => randStep_finish e.symm) fun e => invStep_finish e.2.symm
      exact ⟨vd, res, hdst, by rw [e, hv]⟩
    · rw [e] at ok; cases ok
    · rw [e] at idle; exact absurd idle (s.drawStep_inflight_ne_none f p s.n)

/-- A command that ends with OK has performed its operation. -/
theorem State.checked_eq_of_ok {s : State} {i : Instr} {argsOk : Bool} {op : Unit → State}
    (ok : (s.checked i argsOk op).err = .ok) : s.checked i argsOk op = op () := by
  rcases s.checked_cases i argsOk op with ⟨-, -, e⟩ | ⟨c, hc, e⟩
  · exact e
  · rw [e] at ok; exact absurd ok hc

/-- GEN_HASH that completes OK writes a vector below its length. -/
theorem exec_genHash_ok {vd va : Nat} {s t : State} (h : exec (.genHash vd va) s = .next t) (ok : t.err = .ok) :
    ∃ res v, v < 2 ^ s.n ∧ t = s.complete .ok res [(vd, v)] := by
  cases h
  have performed := State.checked_eq_of_ok ok
  rw [performed] at ok ⊢
  dsimp only at ok ⊢
  split at ok
  · cases ok
  · rename_i enough
    rw [if_neg enough]
    exact ⟨_, _, by simpa using hashScan_lt (pos := 0) Nat.one_pos, rfl⟩

/-- Settles O16: the values written lie below the length, for the generators because their progress is sound. -/
theorem destinationBitsAtOrAboveTheLengthAreZero : Obligations.DestinationBitsAtOrAboveTheLengthAreZero := by
  intro i s t inv _ busy h idle ok r hr
  have single : ∀ {vd res v}, r ∈ [vd] → v < 2 ^ s.n → (s.complete .ok res [(vd, v)]).vreg r < 2 ^ s.n :=
    fun {vd res v} hr hv => State.complete_vreg_lt hr (fun w hw => by rwa [List.mem_singleton.mp hw]) s .ok res
  refine ⟨fun hi => ?_, ?_⟩
  · obtain ⟨op, e, code, res, d, hop, hd, below⟩ := exec_usesP hi s
    rw [e, hop s (.refl s)] at h
    cases h
    exact State.complete_vreg_lt (hd ok ▸ hr) below s code res
  · rintro (⟨vd, hi⟩ | ⟨vd, va, rfl⟩)
    · have gen : i.isGenerator = true := by rcases hi with rfl | rfl <;> rfl
      obtain ⟨f, hf⟩ := Option.ne_none_iff_exists'.mp busy
      obtain ⟨vd, res, hdst, rfl⟩ := exec_generator_ok gen hf h idle ok
      exact single (hdst ▸ hr) (inv.progressSound f hf).vecBelow
    · obtain ⟨res, v, hv, rfl⟩ := exec_genHash_ok h ok
      exact single hr hv

end Sys2Proof.Machine
end

section
/-! PROOFS. A vector as a polynomial over GF(2) (00_scope.md R10), so that Mathlib's polynomials carry the ring of
41_polynomial.md R165 and the divisors of R161. -/

namespace Sys2Proof.Machine

open Polynomial

/-! ## Vectors and polynomials -/

/-- a(x) over GF(2): bit i of a is the coefficient of x^i (R10). -/
noncomputable def polyOf (a : Nat) : (ZMod 2)[X] :=
  ∑ i ∈ Finset.range (bitlen a), if a.testBit i then X ^ i else 0

theorem lt_two_pow_bitlen (a : Nat) : a < 2 ^ bitlen a := bitlen_eq_size a ▸ Nat.lt_size_self a

theorem testBit_eq_false_of_le {n a i : Nat} (h : a < 2 ^ n) (hi : n ≤ i) : a.testBit i = false :=
  Nat.testBit_lt_two_pow (h.trans_le (Nat.pow_le_pow_right (by decide) hi))

theorem coeff_terms {n a : Nat} (h : a < 2 ^ n) (i : Nat) :
    (∑ j ∈ Finset.range n, if a.testBit j then X ^ j else 0 : (ZMod 2)[X]).coeff i = (a.testBit i).toNat := by
  have term : ∀ j, (if a.testBit j then X ^ j else 0 : (ZMod 2)[X]).coeff i =
      if i = j then ((a.testBit i).toNat : ZMod 2) else 0 := by
    intro j
    by_cases hj : i = j
    · subst hj; cases a.testBit i <;> simp
    · cases a.testBit j <;> simp [coeff_X_pow, hj]
  rw [finsetSum_coeff, Finset.sum_congr rfl fun j _ => term j, Finset.sum_ite_eq]
  split
  · rfl
  · rename_i outside
    rw [testBit_eq_false_of_le h (by simpa using outside)]; rfl

@[simp] theorem coeff_polyOf (a i : Nat) : (polyOf a).coeff i = (a.testBit i).toNat :=
  coeff_terms (lt_two_pow_bitlen a) i

/-- An n-bit vector is the sum of its terms below n. -/
theorem polyOf_eq_sum {n a : Nat} (h : a < 2 ^ n) :
    polyOf a = ∑ i ∈ Finset.range n, if a.testBit i then X ^ i else 0 :=
  Polynomial.ext fun i => (coeff_polyOf a i).trans (coeff_terms h i).symm

theorem cast_toNat_xor (x y : Bool) : ((x ^^ y).toNat : ZMod 2) = x.toNat + y.toNat := by
  revert x y; decide

theorem polyOf_injective : Function.Injective polyOf := by
  intro a b h
  refine Nat.eq_of_testBit_eq fun i => ?_
  have bits : ∀ x y : Bool, (x.toNat : ZMod 2) = y.toNat → x = y := by decide
  exact bits _ _ (by rw [← coeff_polyOf, h, coeff_polyOf])

/-- Every polynomial over GF(2) is that of a vector. -/
theorem polyOf_surjective : Function.Surjective polyOf := by
  intro f
  refine ⟨bitsOf (f.natDegree + 1) fun i => decide (f.coeff i = 1), Polynomial.ext fun i => ?_⟩
  have bit : ∀ c : ZMod 2, ((decide (c = 1)).toNat : ZMod 2) = c := by decide
  rw [coeff_polyOf, testBit_bitsOf]
  rcases Nat.lt_or_ge i (f.natDegree + 1) with inside | above
  · rw [decide_eq_true inside, Bool.true_and, bit]
  · rw [coeff_eq_zero_of_natDegree_lt above, decide_eq_false (Nat.not_lt.mpr above), Bool.false_and]; rfl

@[simp] theorem polyOf_zero : polyOf 0 = 0 := Polynomial.ext fun i => by simp

@[simp] theorem polyOf_one : polyOf 1 = 1 := Polynomial.ext fun i => by
  rcases i with _ | i <;> simp [coeff_one, Nat.testBit_succ]

/-- The sum of polynomials is exclusive-or (R163). -/
@[simp] theorem polyOf_xor (a b : Nat) : polyOf (a ^^^ b) = polyOf a + polyOf b :=
  Polynomial.ext fun i => by simp only [coeff_polyOf, coeff_add, Nat.testBit_xor, cast_toNat_xor]

@[simp] theorem polyOf_shiftLeft (a n : Nat) : polyOf (a <<< n) = X ^ n * polyOf a := by
  refine Polynomial.ext fun i => ?_
  rw [coeff_X_pow_mul', coeff_polyOf, coeff_polyOf, Nat.testBit_shiftLeft]
  by_cases h : n ≤ i <;> simp [h]

theorem polyOf_xorOver (n : Nat) (f : Nat → Nat) : polyOf (xorOver n f) = ∑ i ∈ Finset.range n, polyOf (f i) := by
  induction n with
  | zero => simp
  | succ n ih => rw [xorOver_succ, polyOf_xor, ih, Finset.sum_range_succ]

theorem degree_polyOf_lt {n a : Nat} (h : a < 2 ^ n) : (polyOf a).degree < n := by
  refine (degree_lt_iff_coeff_zero _ _).mpr fun i hi => ?_
  rw [coeff_polyOf, testBit_eq_false_of_le h hi]; rfl

/-- The sum of the vectors g i over the set bits i of a is a product with a, where each g i is x^i · b: for the whole
polynomials (`polyMul`), or modulo x^P + 1 (`ringMul`). -/
theorem map_polyOf_xorOver {R : Type*} [CommRing R] (φ : (ZMod 2)[X] →+* R) {n a b : Nat} {g : Nat → Nat}
    (ha : a < 2 ^ n) (hg : ∀ i, i < n → φ (polyOf (g i)) = φ (X ^ i * polyOf b)) :
    φ (polyOf (xorOver n fun i => if a.testBit i then g i else 0)) = φ (polyOf a * polyOf b) := by
  rw [polyOf_xorOver, polyOf_eq_sum ha, Finset.sum_mul, map_sum, map_sum]
  refine Finset.sum_congr rfl fun i hi => ?_
  split
  · exact hg i (Finset.mem_range.mp hi)
  · simp

@[simp] theorem polyOf_polyMul (a b : Nat) : polyOf (polyMul a b) = polyOf a * polyOf b :=
  map_polyOf_xorOver (.id _) (lt_two_pow_bitlen a) fun i _ => polyOf_shiftLeft b i

/-- A divisor of 1 is 1. -/
theorem eq_one_of_polyOf_dvd_one {d : Nat} (h : polyOf d ∣ 1) : d = 1 := by
  obtain ⟨c, hc, e⟩ := Polynomial.isUnit_iff.mp (isUnit_of_dvd_one h)
  have unit : ∀ c : ZMod 2, c ≠ 0 → c = 1 := by decide
  rw [unit c hc.ne_zero, C_1, ← polyOf_one] at e
  exact polyOf_injective e.symm

/-- Divisibility of polynomials, said by the product of vectors. -/
theorem exists_polyMul_eq_iff {d c : Nat} : (∃ u, polyMul d u = c) ↔ polyOf d ∣ polyOf c := by
  refine ⟨fun ⟨u, e⟩ => ⟨polyOf u, by rw [← e, polyOf_polyMul]⟩, fun ⟨f, e⟩ => ?_⟩
  obtain ⟨u, rfl⟩ := polyOf_surjective f
  exact ⟨u, polyOf_injective (by rw [polyOf_polyMul, e])⟩

/-- a(1) is the weight of a, modulo 2. -/
theorem eval_one_polyOf {n a : Nat} (h : a < 2 ^ n) : (polyOf a).eval 1 = (countBelow n a.testBit : ZMod 2) := by
  rw [polyOf_eq_sum h, eval_finsetSum]
  clear h
  induction n with
  | zero => rfl
  | succ n ih => rw [Finset.sum_range_succ, ih, countBelow_succ, Nat.cast_add]; cases a.testBit n <;> simp

end Sys2Proof.Machine
end

section
/-! PROOFS. The ring GF(2)[x]/(x^P+1) (41_polynomial.md R165): the model's product is that of the ring, and the
algorithm of R166 answers an inverse exactly when there is one. -/

namespace Sys2Proof.Machine

open Polynomial

/-! ## Counts -/

theorem countBelow_congr {n : Nat} {f g : Nat → Bool} (h : ∀ i, i < n → f i = g i) : countBelow n f = countBelow n g :=
  List.countP_congr fun i hi => by rw [h i (List.mem_range.mp hi)]

theorem parityBelow_congr {n : Nat} {f g : Nat → Bool} (h : ∀ i, i < n → f i = g i) :
    parityBelow n f = parityBelow n g := by
  rw [parityBelow, parityBelow, countBelow_congr h]

/-! ## Residues -/

/-- The residue of a(x) modulo x^P + 1. -/
noncomputable def residue (P a : Nat) : AdjoinRoot (X ^ P + 1 : (ZMod 2)[X]) := AdjoinRoot.mk _ (polyOf a)

theorem residue_one (P : Nat) : residue P 1 = 1 := by rw [residue, polyOf_one, map_one]

theorem residue_xor (P a b : Nat) : residue P (a ^^^ b) = residue P a + residue P b := by
  rw [residue, polyOf_xor, map_add]; rfl

theorem residue_polyMul (P a b : Nat) : residue P (polyMul a b) = residue P a * residue P b := by
  rw [residue, polyOf_polyMul, map_mul]; rfl

theorem modulus_eq {P : Nat} (hP : 1 ≤ P) : modulus P = 2 ^ P + 1 := by
  have disjoint := Nat.two_pow_add_eq_or_of_lt (Nat.one_lt_two_pow (n := P) (by omega)) 1
  rw [mul_one] at disjoint
  rw [modulus, Nat.one_shiftLeft, disjoint]

theorem polyOf_modulus {P : Nat} (hP : 1 ≤ P) : polyOf (modulus P) = X ^ P + 1 := by
  have disjoint : modulus P = 1 <<< P ^^^ 1 := by
    refine Nat.eq_of_testBit_eq fun j => ?_
    rw [modulus, Nat.testBit_or, Nat.testBit_xor, testBit_one_shiftLeft]
    rcases eq_or_ne P j with rfl | hj
    · simp [testBit_eq_false_of_le (a := 1) (n := 1) (by decide) hP]
    · simp [hj]
  rw [disjoint, polyOf_xor, polyOf_shiftLeft, polyOf_one, mul_one]

theorem residue_modulus {P : Nat} (hP : 1 ≤ P) : residue P (modulus P) = 0 := by
  rw [residue, polyOf_modulus hP, AdjoinRoot.mk_self]

/-- A vector of P bits is the only one of its residue. -/
theorem eq_of_residue_eq {P a b : Nat} (hP : 1 ≤ P) (ha : a < 2 ^ P) (hb : b < 2 ^ P) (h : residue P a = residue P b) :
    a = b := by
  have degree : (X ^ P + 1 : (ZMod 2)[X]).degree = P := degree_X_pow_add_C hP 1
  refine polyOf_injective (sub_eq_zero.mp (eq_zero_of_dvd_of_degree_lt (AdjoinRoot.mk_eq_mk.mp h) ?_))
  rw [degree]
  exact (degree_sub_le _ _).trans_lt (max_lt (degree_polyOf_lt ha) (degree_polyOf_lt hb))

/-- Rotation is a shift whose bits at P and above come back at the bottom. -/
theorem rotate_eq_xor {P i b : Nat} (hi : i < P) (hb : b < 2 ^ P) :
    rotate P i b = low P (b <<< i) ^^^ b >>> (P - i) := by
  refine Nat.eq_of_testBit_eq fun j => ?_
  rw [rotate, low_of_lt hb, Nat.testBit_or, Nat.testBit_xor, testBit_low, Nat.testBit_shiftLeft, Nat.testBit_shiftRight]
  rcases Nat.lt_or_ge j i with below | above
  · simp [Nat.not_le.mpr below]
  · simp [testBit_eq_false_of_le hb (show P ≤ P - i + j by omega)]

/-- The bits of a shift, below P and from P on. -/
theorem shiftLeft_eq_xor {P i : Nat} (hi : i < P) (b : Nat) :
    b <<< i = low P (b <<< i) ^^^ (b >>> (P - i)) <<< P := by
  refine Nat.eq_of_testBit_eq fun j => ?_
  rw [Nat.testBit_xor, testBit_low, Nat.testBit_shiftLeft, Nat.testBit_shiftLeft, Nat.testBit_shiftRight]
  rcases Nat.lt_or_ge j P with below | above
  · simp [below, Nat.not_le.mpr below]
  · simp [above, Nat.not_lt.mpr above, show i ≤ j by omega, show P - i + (j - P) = j - i by omega]

/-- Rotation by i is multiplication by x^i, since x^P = 1. -/
theorem residue_rotate {P i b : Nat} (hi : i < P) (hb : b < 2 ^ P) :
    residue P (rotate P i b) = AdjoinRoot.mk _ (X ^ i * polyOf b) := by
  rw [residue, AdjoinRoot.mk_eq_mk, rotate_eq_xor hi hb, ← polyOf_shiftLeft, congrArg polyOf (shiftLeft_eq_xor hi b)]
  simp only [polyOf_xor, polyOf_shiftLeft]
  exact ⟨polyOf (b >>> (P - i)), by
    linear_combination (-X ^ P * polyOf (b >>> (P - i))) * CharTwo.two_eq_zero (R := (ZMod 2)[X])⟩

/-- The product of the model is that of the ring (R160). -/
theorem residue_ringMul {P a b : Nat} (ha : a < 2 ^ P) (hb : b < 2 ^ P) :
    residue P (ringMul P a b) = residue P a * residue P b :=
  (map_polyOf_xorOver (AdjoinRoot.mk _) ha fun _ hi => residue_rotate hi hb).trans (map_mul ..)

/-! ## Division and the Euclidean algorithm (R166) -/

/-- Long division keeps quotient · divisor + remainder, one leading term at a time. -/
theorem polyDivSteps_eq (fuel q a b : Nat) :
    polyOf (polyDivSteps fuel q a b).1 * polyOf b + polyOf (polyDivSteps fuel q a b).2 =
      polyOf q * polyOf b + polyOf a := by
  induction fuel generalizing q a with
  | zero => rfl
  | succ fuel ih =>
    rw [polyDivSteps]
    split
    · rfl
    · rw [ih]
      simp only [polyOf_xor, polyOf_shiftLeft, polyOf_one]
      linear_combination (X ^ (bitlen a - bitlen b) * polyOf b) * CharTwo.two_eq_zero (R := (ZMod 2)[X])

/-- The remainder is the dividend plus a multiple of the divisor. -/
theorem polyOf_polyDivMod_snd (a b : Nat) :
    polyOf (polyDivMod a b).2 = polyOf a + polyOf (polyDivMod a b).1 * polyOf b := by
  rw [← CharTwo.sub_eq_add, eq_sub_iff_add_eq', polyDivMod, polyDivSteps_eq, polyOf_zero, zero_mul, zero_add]

theorem residue_polyDivMod_snd (P a b : Nat) :
    residue P (polyDivMod a b).2 = residue P a + residue P (polyDivMod a b).1 * residue P b := by
  rw [residue, polyOf_polyDivMod_snd, map_add, map_mul]; rfl

/-- Reduction modulo x^P + 1 keeps the residue. -/
theorem residue_mod_modulus {P : Nat} (hP : 1 ≤ P) (a : Nat) :
    residue P (polyDivMod a (modulus P)).2 = residue P a := by
  rw [residue_polyDivMod_snd, residue_modulus hP, mul_zero, add_zero]

theorem bitlen_eq_zero {a : Nat} : bitlen a = 0 ↔ a = 0 := by rw [bitlen_eq_size, Nat.size_eq_zero]

/-- The loop ends on the greatest common divisor: its divisors are the common divisors of the operands. -/
theorem dvd_euclidSteps_iff {fuel r0 r1 t0 t1 : Nat} (h : bitlen r1 ≤ fuel) (d : (ZMod 2)[X]) :
    d ∣ polyOf (euclidSteps fuel r0 r1 t0 t1).1 ↔ d ∣ polyOf r0 ∧ d ∣ polyOf r1 := by
  induction fuel generalizing r0 r1 t0 t1 with
  | zero => rw [bitlen_eq_zero.mp (Nat.le_zero.mp h)]; simp [euclidSteps]
  | succ fuel ih =>
    rw [euclidSteps]
    split
    · rename_i ended; simp [ended]
    · rename_i going
      have shorter : bitlen (polyDivMod r0 r1).2 < bitlen r1 := bitlen_polyDivSteps_lt going le_rfl
      rw [ih (Nat.le_of_lt_succ (shorter.trans_le h)), and_comm, polyOf_polyDivMod_snd]
      exact and_congr_left fun hd => dvd_add_left (hd.mul_left _)

/-- The invariant of the loop: t_i · a ≡ r_i modulo x^P + 1 (R166). -/
theorem euclidSteps_invariant {P fuel r0 r1 t0 t1 : Nat} {a : AdjoinRoot (X ^ P + 1 : (ZMod 2)[X])}
    (h0 : residue P t0 * a = residue P r0) (h1 : residue P t1 * a = residue P r1) :
    residue P (euclidSteps fuel r0 r1 t0 t1).2 * a = residue P (euclidSteps fuel r0 r1 t0 t1).1 := by
  induction fuel generalizing r0 r1 t0 t1 with
  | zero => exact h0
  | succ fuel ih =>
    rw [euclidSteps]
    split
    · exact h0
    · refine ih h1 ?_
      rw [residue_xor, residue_polyMul, residue_polyDivMod_snd]
      linear_combination h0 + residue P (polyDivMod r0 r1).1 * h1

/-! ## The laws of the ring -/

/-- b is an inverse of a exactly when the residues are inverse. -/
theorem ringMul_eq_one_iff {P a b : Nat} (hP : 1 ≤ P) (ha : a < 2 ^ P) (hb : b < 2 ^ P) :
    ringMul P a b = 1 ↔ residue P a * residue P b = 1 := by
  rw [← residue_ringMul ha hb, ← residue_one]
  exact ⟨congrArg _, eq_of_residue_eq hP (ringMul_lt P a b) (Nat.one_lt_two_pow (by omega))⟩

/-- An inverse is the only one (R161). -/
theorem ringMul_inverse_unique {P a b c : Nat} (hP : 1 ≤ P) (ha : a < 2 ^ P) (hb : b < 2 ^ P) (hc : c < 2 ^ P)
    (hab : ringMul P a b = 1) (hac : ringMul P a c = 1) : b = c := by
  rw [ringMul_eq_one_iff hP ha hb, mul_comm] at hab
  rw [ringMul_eq_one_iff hP ha hc] at hac
  exact eq_of_residue_eq hP hb hc (left_inv_eq_right_inv hab hac)

/-- Settles O24: each law is the law of GF(2)[x]/(x^P+1), since a P-bit vector is known by its residue. -/
theorem ringProductObeysTheRingLaws : Obligations.RingProductObeysTheRingLaws := by
  intro P a b c hP ha hb hc
  have lt := ringMul_lt P
  have one : 1 < 2 ^ P := Nat.one_lt_two_pow (by omega)
  refine ⟨eq_of_residue_eq hP (lt a b) (lt b a) ?_, eq_of_residue_eq hP (lt _ c) (lt a _) ?_,
    eq_of_residue_eq hP (lt 1 a) ha ?_, eq_of_residue_eq hP (lt a _) (Nat.xor_lt_two_pow (lt a b) (lt a c)) ?_,
    ringMul_inverse_unique hP ha hb hc⟩
  · rw [residue_ringMul ha hb, residue_ringMul hb ha, mul_comm]
  · rw [residue_ringMul (lt a b) hc, residue_ringMul ha hb, residue_ringMul ha (lt b c), residue_ringMul hb hc,
      mul_assoc]
  · rw [residue_ringMul one ha, residue_one, one_mul]
  · rw [residue_ringMul ha (Nat.xor_lt_two_pow hb hc), residue_xor, mul_add, residue_xor, residue_ringMul ha hb,
      residue_ringMul ha hc]

/-- Bit j of the product is the cyclic convolution of the bits (R160). -/
theorem testBit_ringMul (P a b j : Nat) : (ringMul P a b).testBit j =
    (decide (j < P) && parityBelow P fun i => a.testBit i && b.testBit ((j + P - i) % P)) := by
  rcases Nat.lt_or_ge j P with inside | above
  · rw [ringMul, testBit_xorOver_parity, decide_eq_true inside, Bool.true_and]
    refine parityBelow_congr fun i hi => ?_
    rw [Nat.add_sub_assoc hi.le, ← testBit_rotate hi inside]
    cases a.testBit i <;> simp
  · rw [testBit_eq_false_of_le (ringMul_lt P a b) above, decide_eq_false (Nat.not_lt.mpr above), Bool.false_and]

/-! ## Inverses (R161, R166) -/

/-- What the algorithm answers is an inverse, by the invariant of its loop. -/
theorem ringMul_of_ringInv {P a b : Nat} (hP : 1 ≤ P) (ha : a < 2 ^ P) (h : ringInv P a = some b) :
    ringMul P a b = 1 := by
  rw [ringMul_eq_one_iff hP ha (ringInv_lt h), mul_comm]
  have start : residue P 0 * residue P a = residue P (modulus P) := by
    rw [residue_modulus hP, residue, polyOf_zero, map_zero, zero_mul]
  have loop := euclidSteps_invariant (fuel := P + 2) start (show residue P 1 * residue P a = residue P a by
    rw [residue_one, one_mul])
  rw [ringInv] at h
  split at h
  · rename_i gcd
    obtain rfl := Option.some.inj h
    rw [residue_mod_modulus hP, loop, gcd, residue_one]
  · cases h

/-- The algorithm answers nothing exactly when a(x) and x^P + 1 have a common divisor other than 1. -/
theorem ringInv_eq_none_iff_common_divisor {P a : Nat} (hP : 1 ≤ P) (ha : a < 2 ^ P) :
    ringInv P a = none ↔ ∃ d, d ≠ 1 ∧ polyOf d ∣ polyOf a ∧ polyOf d ∣ X ^ P + 1 := by
  have size : bitlen a ≤ P := by rw [bitlen_eq_size]; exact Nat.size_le.mpr ha
  have gcd := fun d => dvd_euclidSteps_iff (r0 := modulus P) (t0 := 0) (t1 := 1) (size.trans (Nat.le_add_right P 2)) d
  rw [ringInv]
  generalize euclidSteps (P + 2) (modulus P) a 0 1 = gt at gcd
  rw [polyOf_modulus hP] at gcd
  split
  · rename_i trivial
    refine ⟨nofun, fun ⟨d, hd, hda, hdm⟩ => absurd (eq_one_of_polyOf_dvd_one ?_) hd⟩
    rw [← polyOf_one, ← trivial]
    exact (gcd _).mpr ⟨hdm, hda⟩
  · rename_i proper
    obtain ⟨hm, ha⟩ := (gcd _).mp dvd_rfl
    exact ⟨fun _ => ⟨gt.1, proper, ha, hm⟩, fun _ => rfl⟩

/-- The same, with the common divisor said by the product of vectors. -/
theorem ringInv_eq_none_iff_exists_polyMul {P a : Nat} (hP : 1 ≤ P) (ha : a < 2 ^ P) :
    ringInv P a = none ↔ ∃ d u v, d ≠ 1 ∧ polyMul d u = a ∧ polyMul d v = 2 ^ P + 1 := by
  rw [ringInv_eq_none_iff_common_divisor hP ha, ← polyOf_modulus hP, modulus_eq hP]
  simp only [← exists_polyMul_eq_iff, exists_and_left, exists_and_right]

/-- The divisors of a vector that has an inverse do not divide x^P + 1. -/
theorem eq_one_of_dvd_of_ringMul_eq_one {P a b d : Nat} (hP : 1 ≤ P) (ha : a < 2 ^ P) (hb : b < 2 ^ P)
    (h : ringMul P a b = 1) (hda : polyOf d ∣ polyOf a) (hdm : polyOf d ∣ X ^ P + 1) : d = 1 := by
  rw [ringMul_eq_one_iff hP ha hb, residue, residue, ← map_mul, ← map_one (AdjoinRoot.mk _), AdjoinRoot.mk_eq_mk] at h
  exact eq_one_of_polyOf_dvd_one ((dvd_sub_right (hda.mul_right _)).mp (hdm.trans h))

/-- The algorithm answers the inverse when there is one, and nothing otherwise. -/
theorem ringInv_eq_some_iff {P a b : Nat} (hP : 1 ≤ P) (ha : a < 2 ^ P) :
    ringInv P a = some b ↔ b < 2 ^ P ∧ ringMul P a b = 1 := by
  refine ⟨fun h => ⟨ringInv_lt h, ringMul_of_ringInv hP ha h⟩, fun ⟨hb, h⟩ => ?_⟩
  cases e : ringInv P a with
  | none =>
    obtain ⟨d, hd, hda, hdm⟩ := (ringInv_eq_none_iff_common_divisor hP ha).mp e
    exact absurd (eq_one_of_dvd_of_ringMul_eq_one hP ha hb h hda hdm) hd
  | some b' => rw [ringMul_inverse_unique hP ha (ringInv_lt e) hb (ringMul_of_ringInv hP ha e) h]

theorem ringInv_eq_none_iff {P a : Nat} (hP : 1 ≤ P) (ha : a < 2 ^ P) :
    ringInv P a = none ↔ ∀ b, b < 2 ^ P → ringMul P a b ≠ 1 := by
  rw [Option.eq_none_iff_forall_ne_some]
  exact forall_congr' fun b => by rw [Ne, ringInv_eq_some_iff hP ha, not_and]

theorem invertible_iff {P a : Nat} (hP : 1 ≤ P) (ha : a < 2 ^ P) :
    invertible P a = true ↔ ∃ b, b < 2 ^ P ∧ ringMul P a b = 1 := by
  rw [invertible, Option.isSome_iff_exists]
  exact exists_congr fun b => ringInv_eq_some_iff hP ha

theorem polyOf_three : polyOf 3 = X - C 1 := by
  rw [show 3 = 1 <<< 1 ^^^ 1 from rfl, polyOf_xor, polyOf_shiftLeft, polyOf_one, pow_one, mul_one, C_1,
    CharTwo.sub_eq_add]

/-- A vector of even weight has the root 1, so x + 1 divides it, and it divides x^P + 1 (R161). -/
theorem ringInv_of_even_weight {P a : Nat} (hP : 1 ≤ P) (ha : a < 2 ^ P) (even : countBelow P a.testBit % 2 = 0) :
    ringInv P a = none := by
  rw [ringInv_eq_none_iff_common_divisor hP ha]
  refine ⟨3, by decide, ?_, ?_⟩ <;> rw [polyOf_three, dvd_iff_isRoot, IsRoot]
  · rw [eval_one_polyOf ha, ZMod.natCast_eq_zero_iff]
    exact Nat.dvd_of_mod_eq_zero even
  · rw [eval_add, eval_pow, eval_X, eval_one, one_pow]
    exact CharTwo.add_self_eq_zero 1

end Sys2Proof.Machine
end

section
/-! PROOFS. What each polynomial command completes with (41_polynomial.md R160 to R164). -/

namespace Sys2Proof.Machine

/-! ## Completions -/

/-- A completion that writes V[vd] leaves the other registers alone. -/
theorem State.complete_vreg_of_ne {s : State} {r vd : Nat} (h : r ≠ vd) (code : ErrCode) (res : Word) (v : Nat) :
    (s.complete code res [(vd, v)]).vreg r = s.vreg r :=
  (State.complete_vreg ..).trans (State.setVreg_vreg_of_ne h v)

theorem State.complete_vreg_self {s : State} {vd v : Nat} (h : vd < s.vregs.length) (hv : v < 2 ^ s.params.vlen)
    (code : ErrCode) (res : Word) : (s.complete code res [(vd, v)]).vreg vd = v :=
  (State.complete_vreg ..).trans ((State.setVreg_vreg_self h v).trans (low_of_lt hv))

section
variable {s : State}

/-- A register that a field of the command names is there. -/
theorem State.Ready.field_lt {i : Instr} (h : s.Ready i) {r : Nat} (hr : r ∈ i.singleFields) : r < s.vregs.length :=
  h.vregCount ▸ h.goodSingles r hr

/-- A P-bit vector fits a register. -/
theorem State.Ready.lt_two_pow_vlen {i : Instr} (h : s.Ready i) (hi : i.usesP = true) {v : Nat} (hv : v < 2 ^ s.P) :
    v < 2 ^ s.params.vlen := hv.trans_le (Nat.pow_le_pow_right (by decide) (h.goodP hi).2)

theorem exec_pmul {vd va vb : Nat} (h : s.Ready (.pmul vd va vb)) : exec (.pmul vd va vb) s =
    .next (s.complete .ok 0 [(vd, ringMul s.P (s.poly va) (s.poly vb))]) :=
  congrArg Host.Outcome.next (State.checked_of_ok h.preCheck_none rfl _)

theorem exec_pinv_of_some {vd va b : Nat} (h : s.Ready (.pinv vd va)) (e : ringInv s.P (s.poly va) = some b) :
    exec (.pinv vd va) s = .next (s.complete .ok 1 [(vd, b)]) := by
  rw [exec, execPinv, State.checked_of_ok h.preCheck_none rfl, e]

theorem exec_pinv_of_none {vd va : Nat} (h : s.Ready (.pinv vd va)) (e : ringInv s.P (s.poly va) = none) :
    exec (.pinv vd va) s = .next (s.raise .noInverse 0) := by
  rw [exec, execPinv, State.checked_of_ok h.preCheck_none rfl, e]

theorem exec_pinvT {va : Nat} (h : s.Ready (.pinvT va)) : exec (.pinvT va) s =
    .next (if invertible s.P (s.poly va) then s.complete .ok 1 [] else s.raise .noInverse 0) :=
  congrArg Host.Outcome.next (State.checked_of_ok h.preCheck_none rfl _)

theorem exec_vxor {vd va vb : Nat} (h : s.Ready (.vxor vd va vb)) : exec (.vxor vd va vb) s =
    .next (s.complete .ok 0 [(vd, s.vreg va ^^^ s.vreg vb)]) :=
  congrArg Host.Outcome.next (State.checked_of_ok h.preCheck_none rfl _)

theorem exec_vwt {va : Nat} (h : s.Ready (.vwt va)) (fits : s.n ≤ s.params.vlen) : exec (.vwt va) s =
    .next (s.complete .ok (BitVec.ofNat 32 (countBelow s.n (s.vreg va).testBit)) []) := by
  rw [exec, execVwt, State.checked_of_ok h.preCheck_none (decide_eq_true fits), popcount_eq_countBelow]

theorem exec_vwt_of_vlen_lt {va : Nat} (h : s.Ready (.vwt va)) (long : s.params.vlen < s.n) :
    exec (.vwt va) s = .next (s.raise .badArg 0) := by
  rw [exec, execVwt, decide_eq_false (Nat.not_le.mpr long), State.checked_of_badArgs h.preCheck_none]

end

/-! ## The commands -/

/-- Settles O19: the bits of the product, of operands cut to P bits. -/
theorem pmulIsTheCyclicConvolution : Obligations.PmulIsTheCyclicConvolution := by
  intro s vd va vb ready
  refine ⟨_, exec_pmul ready, s.completesAs_complete .ok 0 _, fun r hr => State.complete_vreg_of_ne hr .., fun j => ?_⟩
  rw [State.complete_vreg_self (ready.field_lt List.mem_cons_self) (ready.lt_two_pow_vlen rfl (ringMul_lt ..)),
    testBit_ringMul]
  refine congrArg _ (parityBelow_congr fun i hi => ?_)
  rw [State.testBit_poly, State.testBit_poly, decide_eq_true hi, decide_eq_true (Nat.mod_lt _ (Nat.zero_lt_of_lt hi)),
    Bool.true_and, Bool.true_and]

/-- Settles O20, by whether the algorithm answers an inverse. -/
theorem pinvWritesTheInverseOrReportsNone : Obligations.PinvWritesTheInverseOrReportsNone := by
  intro s vd va ready
  have hP := (ready.goodP rfl).1
  cases e : ringInv s.P (s.poly va) with
  | some b =>
    obtain ⟨hb, inverse⟩ := (ringInv_eq_some_iff hP (s.poly_lt va)).mp e
    exact ⟨_, exec_pinv_of_some ready e, .inl ⟨b, hb, inverse, s.completesAs_complete .ok 1 _,
      State.complete_vreg_self (ready.field_lt List.mem_cons_self) (ready.lt_two_pow_vlen rfl hb) ..,
      fun r hr => State.complete_vreg_of_ne hr ..⟩⟩
  | none =>
    exact ⟨_, exec_pinv_of_none ready e, .inr ⟨(ringInv_eq_none_iff hP (s.poly_lt va)).mp e,
      s.completesAs_raise .noInverse 0, rfl⟩⟩

/-- Settles O21: the error is reported when the algorithm answers nothing. -/
theorem pinvFailsExactlyOnACommonDivisor : Obligations.PinvFailsExactlyOnACommonDivisor := by
  intro s t vd va ready h
  have hP := (ready.goodP rfl).1
  have reported : t.err = .noInverse ↔ ringInv s.P (s.poly va) = none := by
    cases e : ringInv s.P (s.poly va) with
    | some b => rw [exec_pinv_of_some ready e] at h; cases h; exact ⟨nofun, nofun⟩
    | none => rw [exec_pinv_of_none ready e] at h; cases h; exact ⟨fun _ => rfl, fun _ => rfl⟩
  exact reported.trans (ringInv_eq_none_iff_exists_polyMul hP (s.poly_lt va))

/-- Settles O22, by whether the operand is invertible. -/
theorem pinvTTestsWithoutWriting : Obligations.PinvTTestsWithoutWriting := by
  intro s va ready
  have inverse := invertible_iff (ready.goodP rfl).1 (s.poly_lt va)
  refine ⟨_, exec_pinvT ready, ?_, fun has => ?_, fun hasNot => ?_⟩
  · split <;> rfl
  · rw [if_pos (inverse.mpr has)]; exact s.completesAs_complete .ok 1 []
  · rw [if_neg (hasNot ∘ inverse.mp)]; exact s.completesAs_raise .noInverse 0

/-- Settles O23: the operand has the divisor x + 1. -/
theorem evenWeightHasNoInverse : Obligations.EvenWeightHasNoInverse := by
  intro s vd va ready even
  have weight : countBelow s.P (s.poly va).testBit = countBelow s.P (s.vreg va).testBit :=
    countBelow_congr fun i hi => by rw [State.testBit_poly, decide_eq_true hi, Bool.true_and]
  have singular := ringInv_of_even_weight (ready.goodP rfl).1 (s.poly_lt va) (weight ▸ even)
  exact ⟨_, exec_pinv_of_none ready singular, s.completesAs_raise .noInverse 0, rfl⟩

/-- Settles O25: the sum of two registers is VLEN bits wide. -/
theorem vxorAddsWholeRegisters : Obligations.VxorAddsWholeRegisters := by
  intro s vd va vb ready
  refine ⟨_, exec_vxor ready, s.completesAs_complete .ok 0 _, fun r hr => State.complete_vreg_of_ne hr .., fun j => ?_⟩
  rw [State.complete_vreg_self (ready.field_lt List.mem_cons_self) (Nat.xor_lt_two_pow (s.vreg_lt va) (s.vreg_lt vb)),
    Nat.testBit_xor]

/-- Settles O26, by the argument check. -/
theorem vwtCountsThePrefix : Obligations.VwtCountsThePrefix := by
  intro s va ready
  rcases Nat.lt_or_ge s.params.vlen s.n with long | fits
  · exact ⟨_, exec_vwt_of_vlen_lt ready long, rfl, fun fits => absurd fits (Nat.not_le.mpr long),
      fun _ => s.completesAs_raise .badArg 0⟩
  · exact ⟨_, exec_vwt ready fits, rfl, fun _ => s.completesAs_complete .ok _ [],
      fun long => absurd fits (Nat.not_le.mpr long)⟩

end Sys2Proof.Machine
end

section
/-! PROOFS. The bijection between the indices below C(n,k) and the k-subsets of the numbers below n
(42_combinatorial.md R196): one induction over the loops of R193 and R195 for each of its laws. -/

namespace Sys2Proof.Machine

/-! ## Counting -/

/-- A count, with its first position apart. -/
theorem countBelow_succ_left (n : Nat) (f : Nat → Bool) :
    countBelow (n + 1) f = (f 0).toNat + countBelow n fun j => f (j + 1) := by
  rw [countBelow, countBelow, List.range_succ_eq_map, List.countP_cons, List.countP_map, Nat.add_comm]
  cases f 0 <;> rfl

/-- A subset of the numbers below n has no elements at n and above to count. -/
theorem countBelow_testBit_of_lt {n m v : Nat} (h : v < 2 ^ n) (hm : n ≤ m) :
    countBelow m v.testBit = countBelow n v.testBit := by
  induction m, hm using Nat.le_induction with
  | base => rfl
  | succ m hm ih => rw [countBelow_succ, ih, testBit_eq_false_of_le h hm, Bool.toNat_false, Nat.add_zero]

/-- How many of the `rest` positions from i on are elements of v: what `need` is in the loops of R193 and R195. -/
def elementsFrom (v i rest : Nat) : Nat := countBelow rest fun j => v.testBit (i + j)

theorem elementsFrom_bottom (v n : Nat) : elementsFrom v 0 n = countBelow n v.testBit := by
  simp only [elementsFrom, Nat.zero_add]

theorem elementsFrom_succ (v i rest : Nat) :
    elementsFrom v i (rest + 1) = (v.testBit i).toNat + elementsFrom v (i + 1) rest := by
  rw [elementsFrom, countBelow_succ_left, elementsFrom]
  simp only [Nat.add_zero, Nat.add_assoc, Nat.add_comm 1]

theorem elementsFrom_of_gap {v i : Nat} (h : v.testBit i = false) (rest : Nat) :
    elementsFrom v i (rest + 1) = elementsFrom v (i + 1) rest := by
  rw [elementsFrom_succ, h, Bool.toNat_false, Nat.zero_add]

theorem elementsFrom_of_element {v i : Nat} (h : v.testBit i = true) (rest : Nat) :
    elementsFrom v i (rest + 1) = elementsFrom v (i + 1) rest + 1 := by
  rw [elementsFrom_succ, h, Bool.toNat_true, Nat.add_comm]

theorem elementsFrom_eq_zero_iff {v i rest : Nat} :
    elementsFrom v i rest = 0 ↔ ∀ j, i ≤ j → j < i + rest → v.testBit j = false := by
  simp only [elementsFrom, countBelow, List.countP_eq_zero, List.mem_range, Bool.not_eq_true]
  refine ⟨fun h j hi hj => ?_, fun h j hj => h (i + j) (Nat.le_add_right i j) (Nat.add_lt_add_left hj i)⟩
  have bit := h (j - i) (by omega)
  rwa [Nat.add_sub_cancel' hi] at bit

/-! ## The rounds of the loops -/

@[simp] theorem unrankFrom_no_need (rest i idx : Nat) : unrankFrom rest i 0 idx = 0 := by
  cases rest <;> rfl

/-- An index that C(rest, need) does not exceed skips the position. -/
theorem unrankFrom_skip {rest need idx : Nat} (h : rest.choose need ≤ idx) (i : Nat) :
    unrankFrom (rest + 1) i (need + 1) idx = unrankFrom rest (i + 1) (need + 1) (idx - rest.choose need) := by
  rw [← binom_eq_choose] at h ⊢; exact if_pos h

/-- An index below C(rest, need) selects the position. -/
theorem unrankFrom_select {rest need idx : Nat} (h : idx < rest.choose need) (i : Nat) :
    unrankFrom (rest + 1) i (need + 1) idx = 1 <<< i ||| unrankFrom rest (i + 1) need idx := by
  rw [← binom_eq_choose] at h; exact if_neg (Nat.not_le.mpr h)

@[simp] theorem rankFrom_no_need (v rest i : Nat) : rankFrom v rest i 0 = 0 := by
  cases rest <;> rfl

/-- A position that is an element adds nothing. -/
theorem rankFrom_of_element {v i : Nat} (h : v.testBit i = true) (rest need : Nat) :
    rankFrom v (rest + 1) i (need + 1) = rankFrom v rest (i + 1) need := if_pos h

/-- A position that is not an element adds C(rest, need), the count of the subsets that have it. -/
theorem rankFrom_of_gap {v i : Nat} (h : v.testBit i = false) (rest need : Nat) :
    rankFrom v (rest + 1) i (need + 1) = rest.choose need + rankFrom v rest (i + 1) (need + 1) := by
  rw [← binom_eq_choose]; exact if_neg (by rw [h]; decide)

/-- The bits of a selected position and of a subset above it. -/
theorem testBit_select (i v j : Nat) :
    (1 <<< i ||| v).testBit j = (decide (i = j) || v.testBit j) := by
  rw [Nat.testBit_or, testBit_one_shiftLeft]

/-- Below the position of the round nothing is selected. -/
theorem testBit_unrankFrom_of_lt {rest i need idx j : Nat} (h : j < i) :
    (unrankFrom rest i need idx).testBit j = false := testBit_unrankFrom_outside (.inl h)

/-! ## The laws -/

/-- The index that the loop of CMB_RANK computes is below C(rest, need) (R195). -/
theorem rankFrom_lt_choose {v rest i need : Nat} (h : elementsFrom v i rest = need) :
    rankFrom v rest i need < rest.choose need := by
  induction rest generalizing i need with
  | zero => subst h; exact Nat.one_pos
  | succ rest ih =>
    cases need with
    | zero => rw [rankFrom_no_need, Nat.choose_zero_right]; exact Nat.one_pos
    | succ need =>
      rw [Nat.choose_succ_succ']
      cases bit : v.testBit i with
      | false =>
        rw [elementsFrom_of_gap bit] at h
        rw [rankFrom_of_gap bit]
        exact Nat.add_lt_add_left (ih h) _
      | true =>
        rw [elementsFrom_of_element bit] at h
        rw [rankFrom_of_element bit]
        exact Nat.lt_add_right _ (ih (Nat.succ.inj h))

/-- An index below C(rest, need) selects `need` elements, and the loop of CMB_RANK gives it back, for any vector with
those elements from position i on (R196). -/
theorem rankFrom_of_unrankFrom {rest i need idx v : Nat} (h : idx < rest.choose need)
    (hv : ∀ j, i ≤ j → v.testBit j = (unrankFrom rest i need idx).testBit j) :
    elementsFrom v i rest = need ∧ rankFrom v rest i need = idx := by
  induction rest generalizing i need idx with
  | zero =>
    cases need with
    | zero => exact ⟨rfl, (Nat.lt_one_iff.mp h).symm⟩
    | succ need => exact absurd h (Nat.not_lt_zero idx)
  | succ rest ih =>
    cases need with
    | zero =>
      rw [Nat.choose_zero_right, Nat.lt_one_iff] at h
      rw [rankFrom_no_need]
      refine ⟨elementsFrom_eq_zero_iff.mpr fun j hi _ => ?_, h.symm⟩
      rw [hv j hi, unrankFrom_no_need, Nat.zero_testBit]
    | succ need =>
      rw [Nat.choose_succ_succ'] at h
      rcases Nat.lt_or_ge idx (rest.choose need) with selected | skipped
      · rw [unrankFrom_select selected] at hv
        have bit : v.testBit i = true := by rw [hv i le_rfl, testBit_select, decide_eq_true rfl, Bool.true_or]
        obtain ⟨count, index⟩ := ih (i := i + 1) selected fun j hj => by
          rw [hv j (by omega), testBit_select, decide_eq_false (by omega), Bool.false_or]
        exact ⟨by rw [elementsFrom_of_element bit, count], by rw [rankFrom_of_element bit, index]⟩
      · rw [unrankFrom_skip skipped] at hv
        have bit : v.testBit i = false := (hv i le_rfl).trans (testBit_unrankFrom_of_lt (Nat.lt_succ_self i))
        obtain ⟨count, index⟩ := ih (Nat.sub_lt_left_of_lt_add skipped h) fun j hj => hv j (Nat.le_of_succ_le hj)
        exact ⟨by rw [elementsFrom_of_gap bit, count],
          by rw [rankFrom_of_gap bit, index, Nat.add_sub_cancel' skipped]⟩

/-- The loop of CMB_UNRANK selects the elements that the loop of CMB_RANK has counted (R196). -/
theorem testBit_unrankFrom_rankFrom {v rest i need : Nat} (h : elementsFrom v i rest = need) {j : Nat} (hi : i ≤ j)
    (hj : j < i + rest) : (unrankFrom rest i need (rankFrom v rest i need)).testBit j = v.testBit j := by
  induction rest generalizing i need with
  | zero => omega
  | succ rest ih =>
    cases need with
    | zero => rw [unrankFrom_no_need, Nat.zero_testBit, elementsFrom_eq_zero_iff.mp h j hi hj]
    | succ need =>
      cases bit : v.testBit i with
      | false =>
        rw [elementsFrom_of_gap bit] at h
        rw [rankFrom_of_gap bit, unrankFrom_skip (Nat.le_add_right _ _), Nat.add_sub_cancel_left]
        rcases hi.eq_or_lt with rfl | later
        · rw [bit, testBit_unrankFrom_of_lt (Nat.lt_succ_self i)]
        · exact ih h later (by omega)
      | true =>
        rw [elementsFrom_of_element bit, Nat.add_right_cancel_iff] at h
        rw [rankFrom_of_element bit, unrankFrom_select (rankFrom_lt_choose h), testBit_select]
        rcases hi.eq_or_lt with rfl | later
        · rw [bit, decide_eq_true rfl, Bool.true_or]
        · rw [ih h later (by omega), decide_eq_false later.ne, Bool.false_or]

/-- An element added to both subsets does not change their order. -/
theorem lexBefore_select {u v i : Nat} (h : lexBefore u v) (hu : u.testBit i = false) :
    lexBefore (1 <<< i ||| u) (1 <<< i ||| v) := by
  obtain ⟨p, pu, pv, below⟩ := h
  have hp : i ≠ p := by rintro rfl; rw [hu] at pu; cases pu
  refine ⟨p, ?_, ?_, fun j hj => ?_⟩
  · rw [testBit_select, pu, Bool.or_true]
  · rw [testBit_select, pv, decide_eq_false hp, Bool.or_false]
  · rw [testBit_select, testBit_select, below j hj]

/-- A subset with the element i comes before one whose elements are all above i. -/
theorem lexBefore_of_select {u v i : Nat} (hu : ∀ j, j < i → u.testBit j = false)
    (hv : ∀ j, j ≤ i → v.testBit j = false) : lexBefore (1 <<< i ||| u) v := by
  refine ⟨i, ?_, hv i le_rfl, fun j hj => ?_⟩
  · rw [testBit_select, decide_eq_true rfl, Bool.true_or]
  · rw [testBit_select, hu j hj, hv j hj.le, decide_eq_false hj.ne', Bool.or_false]

/-- Of two indices the smaller is the first to select a position that the other skips (R196). -/
theorem lexBefore_unrankFrom {rest i need a b : Nat} (hab : a < b) (hb : b < rest.choose need) :
    lexBefore (unrankFrom rest i need a) (unrankFrom rest i need b) := by
  induction rest generalizing i need a b with
  | zero =>
    have one : Nat.choose 0 need ≤ 1 := Nat.choose_le_two_pow 0 need
    omega
  | succ rest ih =>
    cases need with
    | zero => rw [Nat.choose_zero_right] at hb; omega
    | succ need =>
      rw [Nat.choose_succ_succ'] at hb
      rcases Nat.lt_or_ge b (rest.choose need) with selected | skipped
      · rw [unrankFrom_select selected, unrankFrom_select (hab.trans selected)]
        exact lexBefore_select (ih hab selected) (testBit_unrankFrom_of_lt (Nat.lt_succ_self i))
      · rw [unrankFrom_skip skipped]
        rcases Nat.lt_or_ge a (rest.choose need) with selected | skipped'
        · rw [unrankFrom_select selected]
          exact lexBefore_of_select (fun j hj => testBit_unrankFrom_of_lt (Nat.lt_succ_of_lt hj))
            fun j hj => testBit_unrankFrom_of_lt (Nat.lt_succ_of_le hj)
        · rw [unrankFrom_skip skipped']
          exact ih (by omega) (by omega)

/-! ## The index as a sum (R195) -/

/-- What position i + j adds to the index when `need` elements are still to come among the `rest` positions from i
on. -/
def skippedCount (v rest i need j : Nat) : Nat :=
  let sel := elementsFrom v i j
  if v.testBit (i + j) = true ∨ need ≤ sel then 0 else (rest - j - 1).choose (need - sel - 1)

theorem skippedCount_no_need (v rest i j : Nat) : skippedCount v rest i 0 j = 0 := if_pos (.inr (Nat.zero_le _))

/-- The positions after an element are counted with one element less to find. -/
theorem skippedCount_succ_of_element {v i : Nat} (h : v.testBit i = true) (rest need j : Nat) :
    skippedCount v (rest + 1) i (need + 1) (j + 1) = skippedCount v rest (i + 1) need j := by
  simp only [skippedCount, elementsFrom_of_element h, Nat.add_right_comm i 1 j, ← Nat.add_assoc,
    Nat.add_le_add_iff_right, Nat.add_sub_add_right]

theorem skippedCount_succ_of_gap {v i : Nat} (h : v.testBit i = false) (rest need j : Nat) :
    skippedCount v (rest + 1) i need (j + 1) = skippedCount v rest (i + 1) need j := by
  simp only [skippedCount, elementsFrom_of_gap h, Nat.add_right_comm i 1 j, ← Nat.add_assoc, Nat.add_sub_add_right]

/-- The loop of CMB_RANK adds up the counts of its positions. -/
theorem rankFrom_eq_sum (v rest i need : Nat) :
    rankFrom v rest i need = ((List.range rest).map (skippedCount v rest i need)).sum := by
  induction rest generalizing i need with
  | zero => rfl
  | succ rest ih =>
    cases need with
    | zero =>
      rw [rankFrom_no_need, eq_comm, List.sum_eq_zero_iff, List.forall_mem_map]
      exact fun j _ => skippedCount_no_need v _ i j
    | succ need =>
      rw [List.range_succ_eq_map, List.map_cons, List.map_map, List.sum_cons]
      cases bit : v.testBit i with
      | false =>
        rw [rankFrom_of_gap bit, ih]
        congr 1
        · simp [skippedCount, bit, elementsFrom, countBelow_zero]
        · simp only [Function.comp_def, Nat.succ_eq_add_one, skippedCount_succ_of_gap bit]
      | true =>
        rw [rankFrom_of_element bit, ih, skippedCount, if_pos (.inl bit), Nat.zero_add]
        simp only [Function.comp_def, Nat.succ_eq_add_one, skippedCount_succ_of_element bit]

/-! ## The bijection (R196) -/

theorem countBelow_unrank {n k idx : Nat} (h : idx < n.choose k) : countBelow n (unrank n k idx).testBit = k :=
  (elementsFrom_bottom _ n).symm.trans (rankFrom_of_unrankFrom h fun _ _ => rfl).1

theorem rank_unrank {n k idx : Nat} (h : idx < n.choose k) : rank n k (unrank n k idx) = idx :=
  (rankFrom_of_unrankFrom h fun _ _ => rfl).2

theorem rank_lt_choose {n k v : Nat} (h : countBelow n v.testBit = k) : rank n k v < n.choose k :=
  rankFrom_lt_choose ((elementsFrom_bottom v n).trans h)

theorem unrank_rank {n k v : Nat} (h : countBelow n v.testBit = k) (hv : v < 2 ^ n) : unrank n k (rank n k v) = v := by
  refine Nat.eq_of_testBit_eq fun j => ?_
  rcases Nat.lt_or_ge j n with inside | above
  · exact testBit_unrankFrom_rankFrom ((elementsFrom_bottom v n).trans h) (Nat.zero_le j) (by omega)
  · rw [testBit_eq_false_of_le (unrank_lt n k _) above, testBit_eq_false_of_le hv above]

theorem lexBefore_unrank {n k a b : Nat} (hab : a < b) (hb : b < n.choose k) :
    lexBefore (unrank n k a) (unrank n k b) := lexBefore_unrankFrom hab hb

theorem rank_eq_sum (n k v : Nat) : rank n k v = ((List.range n).map fun i =>
    let sel := countBelow i v.testBit
    if v.testBit i = true ∨ k ≤ sel then 0 else (n - i - 1).choose (k - sel - 1)).sum := by
  rw [rank, rankFrom_eq_sum]
  refine congrArg List.sum (List.map_congr_left fun i _ => ?_)
  simp only [skippedCount, elementsFrom_bottom, Nat.zero_add]

end Sys2Proof.Machine
end

section
/-! PROOFS. What each combinatorial command completes with (42_combinatorial.md R192 to R196). -/

namespace Sys2Proof.Machine

/-! ## Arguments and values -/

theorem unrankArgs_eq_true {vlen n k : Nat} : (decide (n ≤ vlen) && decide (k ≤ n)) = true ↔ n ≤ vlen ∧ k ≤ n := by
  simp only [Bool.and_eq_true, decide_eq_true_eq]

/-- The argument check of CMB_RANK passes exactly on the k-subsets of the numbers below n ≤ VLEN. -/
theorem rankArgsOk_iff {vlen n k v : Nat} :
    rankArgsOk vlen n k v = true ↔ n ≤ vlen ∧ countBelow n v.testBit = k ∧ v < 2 ^ n := by
  simp only [rankArgsOk, popcount_eq_countBelow, Bool.and_eq_true, decide_eq_true_eq]
  constructor
  · rintro ⟨⟨⟨fits, -⟩, count⟩, below⟩
    exact ⟨fits, countBelow_testBit_of_lt below fits ▸ count, below⟩
  · rintro ⟨fits, rfl, below⟩
    exact ⟨⟨⟨fits, popcount_eq_countBelow n v ▸ popcount_le n v⟩, countBelow_testBit_of_lt below fits⟩, below⟩

/-- A binomial coefficient fits a register (R191). -/
theorem choose_lt_two_pow_vlen {p : Params} (legal : p.legal = true) {n : Nat} (fits : n ≤ p.vlen) (k : Nat) :
    n.choose k < 2 ^ p.vlen := by
  obtain ⟨-, wide, -⟩ := Params.legal_iff.mp legal
  calc n.choose k ≤ p.vlen.choose k := Nat.choose_le_choose k fits
    _ < 2 ^ p.vlen := Nat.choose_lt_two_pow _ _ (by omega)

/-- There are indices only where there are k-subsets (R191). -/
theorem le_of_lt_choose {n k idx : Nat} (h : idx < n.choose k) : k ≤ n :=
  Nat.choose_ne_zero_iff.mp (Nat.ne_zero_of_lt h)

section
variable {s : State} {i : Instr}

/-- Steps 2 to 4 of R134 read no vector register. -/
theorem State.Ready.setVreg (h : s.Ready i) (r v : Nat) : (s.setVreg r v).Ready i :=
  ⟨h.legal, (s.setVreg_length r v).trans h.vregCount, h.goodP, h.goodBlocks, h.goodSingles, h.goodBlockEnds⟩

/-- A completion and the next acceptance leave the operands of steps 2 to 4 of R134 alone. -/
theorem State.Ready.accept_complete (h : s.Ready i) (code : ErrCode) (res : Word) (r v : Nat) (w : Word) :
    ((s.complete code res [(r, v)]).accept w).Ready i :=
  ⟨h.legal, (s.setVreg_length r v).trans h.vregCount, h.goodP, h.goodBlocks, h.goodSingles, h.goodBlockEnds⟩

/-- CMB_UNRANK and CMB_UNRANK.R have the same checks. -/
theorem State.Ready.cmbUnrank_of_cmbUnrankR {vd va : Nat} (h : s.Ready (.cmbUnrankR vd va)) :
    s.Ready (.cmbUnrank vd va) :=
  ⟨h.legal, h.vregCount, h.goodP, h.goodBlocks, h.goodSingles, h.goodBlockEnds⟩

/-- A destination holds the subset written to it. -/
theorem State.Ready.complete_unrank_vreg (h : s.Ready i) {r n : Nat} (hr : r ∈ i.singleFields)
    (fits : n ≤ s.params.vlen) (k idx : Nat) (code : ErrCode) (res : Word) :
    (s.complete code res [(r, unrank n k idx)]).vreg r = unrank n k idx :=
  State.complete_vreg_self (h.field_lt hr)
    ((unrank_lt n k idx).trans_le (Nat.pow_le_pow_right (by decide) fits)) code res

/-- A destination holds the index of a k-subset written to it. -/
theorem State.Ready.complete_rank_vreg (h : s.Ready i) {r n k v : Nat} (hr : r ∈ i.singleFields)
    (fits : n ≤ s.params.vlen) (count : countBelow n v.testBit = k) (code : ErrCode) (res : Word) :
    (s.complete code res [(r, rank n k v)]).vreg r = rank n k v :=
  State.complete_vreg_self (h.field_lt hr)
    ((rank_lt_choose count).trans (choose_lt_two_pow_vlen h.legal fits k)) code res

end

/-! ## Completions -/

section
variable {s : State}

theorem exec_cmbBinom {vd : Nat} (h : s.Ready (.cmbBinom vd)) (fits : s.n ≤ s.params.vlen) : exec (.cmbBinom vd) s =
    .next (s.complete .ok (BitVec.ofNat 32 (s.n.choose s.k).size) [(vd, s.n.choose s.k)]) := by
  rw [← bitlen_eq_size, ← binom_eq_choose]
  exact congrArg Host.Outcome.next (State.checked_of_ok h.preCheck_none (decide_eq_true fits) _)

theorem exec_cmbBinom_of_vlen_lt {vd : Nat} (h : s.Ready (.cmbBinom vd)) (long : s.params.vlen < s.n) :
    exec (.cmbBinom vd) s = .next (s.raise .badArg 0) := by
  rw [exec, execCmbBinom, decide_eq_false (Nat.not_le.mpr long), State.checked_of_badArgs h.preCheck_none]

theorem exec_cmbUnrank_of_choose_le {vd va : Nat} (h : s.Ready (.cmbUnrank vd va)) (fits : s.n ≤ s.params.vlen)
    (hk : s.k ≤ s.n) (outside : s.n.choose s.k ≤ s.vreg va) :
    exec (.cmbUnrank vd va) s = .next (s.raise .indexRange 0) := by
  rw [exec, execCmbUnrank, State.checked_of_ok h.preCheck_none (unrankArgs_eq_true.mpr ⟨fits, hk⟩), binom_eq_choose,
    if_pos outside]

/-- CMB_UNRANK of an index below C(n,k). -/
theorem exec_cmbUnrank {vd va n k idx : Nat} (h : s.Ready (.cmbUnrank vd va)) (hn : s.n = n) (hk : s.k = k)
    (hv : s.vreg va = idx) (fits : n ≤ s.params.vlen) (inside : idx < n.choose k) :
    exec (.cmbUnrank vd va) s = .next (s.complete .ok 0 [(vd, unrank n k idx)]) := by
  subst hn hk hv
  rw [exec, execCmbUnrank,
    State.checked_of_ok h.preCheck_none (unrankArgs_eq_true.mpr ⟨fits, le_of_lt_choose inside⟩), binom_eq_choose,
    if_neg (Nat.not_le.mpr inside)]

theorem exec_cmbUnrankR {vd va : Nat} (h : s.Ready (.cmbUnrankR vd va)) (fits : s.n ≤ s.params.vlen) (hk : s.k ≤ s.n) :
    exec (.cmbUnrankR vd va) s =
      .next (s.complete .ok 0 [(vd, unrank s.n s.k (s.vreg va % s.n.choose s.k))]) := by
  rw [exec, execCmbUnrankR, State.checked_of_ok h.preCheck_none (unrankArgs_eq_true.mpr ⟨fits, hk⟩), binom_eq_choose]

/-- CMB_RANK of a k-subset of the numbers below n. -/
theorem exec_cmbRank {vd va n k v : Nat} (h : s.Ready (.cmbRank vd va)) (hn : s.n = n) (hk : s.k = k)
    (hv : s.vreg va = v) (fits : n ≤ s.params.vlen) (count : countBelow n v.testBit = k) (below : v < 2 ^ n) :
    exec (.cmbRank vd va) s = .next (s.complete .ok 0 [(vd, rank n k v)]) := by
  subst hn hk hv
  exact congrArg Host.Outcome.next (State.checked_of_ok h.preCheck_none (rankArgsOk_iff.mpr ⟨fits, count, below⟩) _)

/-- CMB_UNRANK that completes OK has unranked an index below C(n,k). -/
theorem exec_cmbUnrank_ok {t : State} {vd va : Nat} (h : exec (.cmbUnrank vd va) s = .next t) (ok : t.err = .ok) :
    s.n ≤ s.params.vlen ∧ s.vreg va < s.n.choose s.k ∧ t = s.complete .ok 0 [(vd, unrank s.n s.k (s.vreg va))] := by
  obtain rfl : s.checked .. = t := Host.Outcome.next.inj h
  rcases s.checked_cases _ _ _ with ⟨-, args, e⟩ | ⟨c, hc, e⟩ <;> rw [e] at ok ⊢
  · rw [binom_eq_choose] at ok ⊢
    split at ok
    · cases ok
    · rename_i inside
      exact ⟨(unrankArgs_eq_true.mp args).1, Nat.not_le.mp inside, if_neg inside⟩
  · exact absurd ok hc

/-- CMB_RANK that completes OK has ranked a k-subset of the numbers below n. -/
theorem exec_cmbRank_ok {t : State} {vd va : Nat} (h : exec (.cmbRank vd va) s = .next t) (ok : t.err = .ok) :
    s.n ≤ s.params.vlen ∧ countBelow s.n (s.vreg va).testBit = s.k ∧ s.vreg va < 2 ^ s.n ∧
      t = s.complete .ok 0 [(vd, rank s.n s.k (s.vreg va))] := by
  obtain rfl : s.checked .. = t := Host.Outcome.next.inj h
  rcases s.checked_cases _ _ _ with ⟨-, args, e⟩ | ⟨c, hc, e⟩ <;> rw [e] at ok ⊢
  · obtain ⟨fits, count, below⟩ := rankArgsOk_iff.mp args
    exact ⟨fits, count, below, rfl⟩
  · exact absurd ok hc

end

/-! ## The commands -/

/-- Settles O27, by the argument check. -/
theorem cmbBinomWritesTheBinomialCoefficient : Obligations.CmbBinomWritesTheBinomialCoefficient := by
  intro s vd ready
  rcases Nat.lt_or_ge s.params.vlen s.n with long | fits
  · exact ⟨_, exec_cmbBinom_of_vlen_lt ready long, fun _ _ => rfl, fun fits => absurd fits (Nat.not_le.mpr long),
      fun _ => ⟨s.completesAs_raise .badArg 0, rfl⟩⟩
  · exact ⟨_, exec_cmbBinom ready fits, fun r hr => State.complete_vreg_of_ne hr ..,
      fun _ => ⟨s.completesAs_complete .ok _ _, State.complete_vreg_self (ready.field_lt List.mem_cons_self)
        (choose_lt_two_pow_vlen ready.legal fits s.k) ..⟩,
      fun long => absurd fits (Nat.not_le.mpr long)⟩

/-- Settles O28, by whether the index is below C(n,k). -/
theorem cmbUnrankWritesAKSubset : Obligations.CmbUnrankWritesAKSubset := by
  intro s vd va ready fits hk
  rcases Nat.lt_or_ge (s.vreg va) (s.n.choose s.k) with inside | outside
  · refine ⟨_, exec_cmbUnrank ready rfl rfl rfl fits inside, fun r hr => State.complete_vreg_of_ne hr ..,
      fun outside => absurd inside (Nat.not_lt.mpr outside), fun _ => ⟨s.completesAs_complete .ok 0 _, ?_⟩⟩
    rw [ready.complete_unrank_vreg List.mem_cons_self fits]
    exact ⟨unrank_lt .., countBelow_unrank inside⟩
  · exact ⟨_, exec_cmbUnrank_of_choose_le ready fits hk outside, fun _ _ => rfl,
      fun _ => ⟨s.completesAs_raise .indexRange 0, rfl⟩, fun inside => absurd inside (Nat.not_lt.mpr outside)⟩

/-- Settles O29: both states complete with the subset of their index. -/
theorem cmbUnrankIsLexicographic : Obligations.CmbUnrankIsLexicographic := by
  intro s s' t t' vd va ready ready' fits _ params hn hk hab hb h h'
  have fits' : s.n ≤ s'.params.vlen := by rwa [params]
  rw [exec_cmbUnrank ready rfl rfl rfl fits (hab.trans hb)] at h
  rw [exec_cmbUnrank ready' hn hk rfl fits' hb] at h'
  cases h; cases h'
  rw [ready.complete_unrank_vreg List.mem_cons_self fits, ready'.complete_unrank_vreg List.mem_cons_self fits']
  exact lexBefore_unrank hab hb

/-- Settles O30: the reduced index is below C(n,k), so CMB_UNRANK unranks it. -/
theorem cmbUnrankRReducesTheIndex : Obligations.CmbUnrankRReducesTheIndex := by
  intro s vd va ready fits hk
  have inside : s.vreg va % s.n.choose s.k < s.n.choose s.k := Nat.mod_lt _ (Nat.choose_pos hk)
  have held : (s.setVreg va (s.vreg va % s.n.choose s.k)).vreg va = s.vreg va % s.n.choose s.k :=
    (State.setVreg_vreg_self (ready.field_lt (List.mem_cons_of_mem _ List.mem_cons_self)) _).trans
      (low_of_lt ((Nat.mod_le _ _).trans_lt (s.vreg_lt va)))
  have reduced := ready.cmbUnrank_of_cmbUnrankR.setVreg va (s.vreg va % s.n.choose s.k)
  refine ⟨_, exec_cmbUnrankR ready fits hk, s.completesAs_complete .ok 0 _,
    fun r hr => State.complete_vreg_of_ne hr .., _, exec_cmbUnrank reduced rfl rfl held fits inside, rfl, ?_⟩
  rw [ready.complete_unrank_vreg List.mem_cons_self fits]
  exact (reduced.complete_unrank_vreg List.mem_cons_self fits ..).symm

/-- Settles O31: what the loop adds, position by position. -/
theorem cmbRankSumsTheSkippedCounts : Obligations.CmbRankSumsTheSkippedCounts := by
  intro s vd va ready fits count below
  rw [countBelow_testBit_of_lt below fits] at count
  refine ⟨_, exec_cmbRank ready rfl rfl rfl fits count below, s.completesAs_complete .ok 0 _,
    fun r hr => State.complete_vreg_of_ne hr .., ?_⟩
  rw [ready.complete_rank_vreg List.mem_cons_self fits count]
  exact rank_eq_sum ..

/-- Settles O32: CMB_RANK finds the subset that the index was unranked to. -/
theorem cmbRankUndoesCmbUnrank : Obligations.CmbRankUndoesCmbUnrank := by
  intro s t w vd va vr ready ready' h ok
  obtain ⟨fits, inside, rfl⟩ := exec_cmbUnrank_ok h ok
  have subset := ready.complete_unrank_vreg List.mem_cons_self fits s.k (s.vreg va) .ok 0
  have next := ready'.accept_complete .ok 0 vd (unrank s.n s.k (s.vreg va)) w
  have count := countBelow_unrank inside
  refine ⟨_, exec_cmbRank next rfl rfl subset fits count (unrank_lt ..), rfl, ?_⟩
  exact (next.complete_rank_vreg List.mem_cons_self fits count ..).trans (rank_unrank inside)

/-- Settles O33: CMB_UNRANK finds the index of the subset. -/
theorem cmbUnrankUndoesCmbRank : Obligations.CmbUnrankUndoesCmbRank := by
  intro s t w vd va vr ready ready' h ok
  obtain ⟨fits, count, below, rfl⟩ := exec_cmbRank_ok h ok
  have index := ready.complete_rank_vreg List.mem_cons_self fits count .ok 0
  have next := ready'.accept_complete .ok 0 vd (rank s.n s.k (s.vreg va)) w
  have inside := rank_lt_choose count
  refine ⟨index.trans_lt inside, _, exec_cmbUnrank next rfl rfl index fits inside, rfl, ?_⟩
  exact (next.complete_unrank_vreg List.mem_cons_self fits ..).trans (unrank_rank count below)

end Sys2Proof.Machine
end

section
/-! PROOFS. What a generator does next (43_generator.md R221 to R225), one equation per case: a word drawn, a step of
GEN_RAND, a step of GEN_INV. -/

namespace Sys2Proof.Machine

/-! ## One word (R223) -/

/-- The candidate index of a word. -/
theorem low_bitlen_eq_mod (size : Nat) (w : Word) :
    low (bitlen (size - 1)) w.toNat = w.toNat % 2 ^ (size - 1).size := by rw [low_eq_mod, bitlen_eq_size]

theorem Progress.take_of_new {p : Progress} {size : Nat} {w : Word} (lt : w.toNat % 2 ^ (size - 1).size < size)
    (new : p.vec.testBit (w.toNat % 2 ^ (size - 1).size) = false) :
    p.take size w = { p with
      vec := p.vec ||| 1 <<< (w.toNat % 2 ^ (size - 1).size), cnt := p.cnt + 1, draws := p.draws + 1 } := by
  simp only [Progress.take, low_bitlen_eq_mod, lt, new, decide_true, Bool.not_false, Bool.and_true, if_true]

theorem Progress.take_of_rejected {p : Progress} {size : Nat} {w : Word}
    (rejected : size ≤ w.toNat % 2 ^ (size - 1).size ∨ p.vec.testBit (w.toNat % 2 ^ (size - 1).size) = true) :
    p.take size w = { p with draws := p.draws + 1 } := by
  have unset : ¬ (w.toNat % 2 ^ (size - 1).size < size ∧ p.vec.testBit (w.toNat % 2 ^ (size - 1).size) = false) :=
    fun ⟨lt, new⟩ => rejected.elim (Nat.not_le.mpr lt) (by rw [new]; nofun)
  simp only [Progress.take, low_bitlen_eq_mod, Bool.and_eq_true, decide_eq_true_eq, Bool.not_eq_true', if_neg unset]

/-- The bits after a draw, the draw and the attempt determine the progress: it is the model's. -/
theorem Progress.drawnTo_iff {p p' : Progress} {size : Nat} {w : Word} :
    p.DrawnTo p' size w ↔ p' = p.take size w := by
  have bits : ∀ idx j, (p.vec ||| 1 <<< idx).testBit j = (p.vec.testBit j || decide (j = idx)) := fun idx j => by
    rw [Nat.testBit_or, testBit_one_shiftLeft, decide_eq_decide.mpr eq_comm]
  constructor
  · rintro ⟨draws, attempt, ⟨lt, new, cnt, vec⟩ | ⟨rejected, cnt, vec⟩⟩
    · have hvec : p'.vec = p.vec ||| 1 <<< (w.toNat % 2 ^ (size - 1).size) :=
        Nat.eq_of_testBit_eq fun j => (vec j).trans (bits _ j).symm
      rw [Progress.take_of_new lt new, ← hvec, ← cnt, ← draws, ← attempt]
    · rw [Progress.take_of_rejected rejected, ← vec, ← cnt, ← draws, ← attempt]
  · rintro rfl
    refine ⟨Progress.take_draws .., Progress.take_attempt .., ?_⟩
    by_cases set : w.toNat % 2 ^ (size - 1).size < size ∧ p.vec.testBit (w.toNat % 2 ^ (size - 1).size) = false
    · obtain ⟨lt, new⟩ := set
      rw [Progress.take_of_new lt new]
      exact .inl ⟨lt, new, rfl, bits _⟩
    · have rejected := (not_and_or.mp set).imp Nat.le_of_not_lt Bool.eq_true_of_not_eq_false
      rw [Progress.take_of_rejected rejected]
      exact .inr ⟨rejected, rfl, rfl⟩

theorem Progress.drawnTo_take (p : Progress) (size : Nat) (w : Word) : p.DrawnTo (p.take size w) size w :=
  Progress.drawnTo_iff.mpr rfl

/-! ## A draw step (R221) -/

section
variable {s : State} {f : InFlight}

theorem State.drawStep_word (src : f.rngSrc = true) {w : Word} {rest : List Word} (hfifo : s.fifo = w :: rest)
    (p : Progress) (size : Nat) : s.drawStep f p size =
      { s with fifo := rest, rngWait := false, inflight := some { f with progress := p.take size w } } := by
  rw [State.drawStep, State.nextWord, src, if_pos rfl, hfifo]

theorem State.drawStep_held (src : f.rngSrc = true) (hfifo : s.fifo = []) (p : Progress) (size : Nat) :
    s.drawStep f p size = { s with rngWait := true, inflight := some { f with progress := p } } := by
  rw [State.drawStep, State.nextWord, src, if_pos rfl, hfifo]

theorem State.drawStep_entropy (src : f.rngSrc = false) (p : Progress) (size : Nat) : s.drawStep f p size =
    { s with
      entropyNext := s.entropyNext + 1
      inflight := some { f with progress := p.take size (Config.entropy s.entropyNext) } } := by
  rw [State.drawStep, State.nextWord, src]; rfl

/-- A step that is a draw from progress q takes a word of either source, or holds the engine at q. -/
theorem exec_draws_or_holds {i : Instr} {q : Progress} (e : exec i s = .next (s.drawStep f q s.n)) :
    (∀ w rest, f.rngSrc = true → s.fifo = w :: rest → ∃ p, q.DrawnTo p s.n w ∧
      exec i s = .next { s with fifo := rest, rngWait := false, inflight := some { f with progress := p } }) ∧
    (f.rngSrc = true → s.fifo = [] →
      exec i s = .next { s with rngWait := true, inflight := some { f with progress := q } }) ∧
    (f.rngSrc = false → ∃ p, q.DrawnTo p s.n (Config.entropy s.entropyNext) ∧
      exec i s = .next { s with entropyNext := s.entropyNext + 1, inflight := some { f with progress := p } }) :=
  ⟨fun w _ src hfifo => ⟨q.take s.n w, q.drawnTo_take s.n w, by rw [e, State.drawStep_word src hfifo]⟩,
    fun src hfifo => by rw [e, State.drawStep_held src hfifo],
    fun src => ⟨q.take s.n _, q.drawnTo_take s.n _, by rw [e, State.drawStep_entropy src]⟩⟩

end

/-! ## The caps (R223, R224) -/

theorem capReached_eq_true {cap : BitVec 16} {count : Nat} :
    capReached cap count = true ↔ cap ≠ 0 ∧ count = cap.toNat := by
  have zero : cap.toNat = 0 ↔ cap = 0 := BitVec.toNat_inj (y := 0#16)
  rw [capReached, Bool.and_eq_true, decide_eq_true_eq, decide_eq_true_eq, Ne, zero]

theorem capReached_eq_false {cap : BitVec 16} {count : Nat} :
    capReached cap count = false ↔ cap = 0 ∨ count ≠ cap.toNat := by
  rw [← Bool.not_eq_true, capReached_eq_true, not_and_or, not_not]

/-- The draw cap as RES of GEN_RAND (R136). -/
theorem saturate_toNat (cap : BitVec 16) : saturate cap.toNat = cap.setWidth 32 := by
  have small : cap.toNat ≤ 0xFFFFFFFF := cap.isLt.le.trans (by decide)
  rw [saturate, Nat.min_eq_left small, BitVec.ofNat_toNat]

theorem attemptRes_of_lt {attempt : Nat} (h : attempt < 2 ^ 32) : attemptRes attempt = BitVec.ofNat 32 attempt :=
  if_pos h

/-! ## The steps of GEN_RAND (R222, R223) -/

section
variable {s : State} {p : Progress}

theorem randStep_full (full : s.k ≤ p.cnt) : randStep s p = .finish p.vec (saturate p.draws) := if_pos full

theorem randStep_capped (below : p.cnt < s.k) (cap : capReached s.maxDraw p.draws = true) :
    randStep s p = .exhaust (saturate p.draws) := by
  rw [randStep, if_neg (Nat.not_le.mpr below), if_pos cap]

theorem randStep_draws (below : p.cnt < s.k) (cap : capReached s.maxDraw p.draws = false) : randStep s p = .draw p := by
  rw [randStep, if_neg (Nat.not_le.mpr below), cap]; rfl

/-! ## The steps of GEN_INV (R224) -/

theorem invStep_accepted (begun : p.attempt ≠ 0) (full : s.k ≤ p.cnt) (accepted : acceptable s.n p.vec = true) :
    invStep s p = .finish p.vec (attemptRes p.attempt) := if_pos ⟨begun, full, accepted⟩

/-- With no attempt begun, or a full vector rejected, the attempt cap decides. -/
theorem invStep_ended (h : p.attempt = 0 ∨ (s.k ≤ p.cnt ∧ acceptable s.n p.vec = false)) :
    invStep s p = if capReached s.maxTry p.attempt then .exhaust (attemptRes p.attempt)
      else .draw { Progress.fresh with attempt := p.attempt + 1 } := by
  have notAccepted : ¬ (p.attempt ≠ 0 ∧ s.k ≤ p.cnt ∧ acceptable s.n p.vec = true) := by
    rintro ⟨begun, -, accepted⟩
    rcases h with none | ⟨-, rejected⟩
    · exact begun none
    · rw [rejected] at accepted; cases accepted
  rw [invStep, if_neg notAccepted, if_pos (h.imp id And.left)]

/-- Within an attempt, the draw cap decides. -/
theorem invStep_within (begun : p.attempt ≠ 0) (below : p.cnt < s.k) :
    invStep s p = if capReached s.maxDraw p.draws then .exhaust (attemptRes p.attempt) else .draw p := by
  have notFull : ¬ s.k ≤ p.cnt := Nat.not_le.mpr below
  rw [invStep, if_neg fun ⟨_, full, _⟩ => notFull full, if_neg (not_or.mpr ⟨begun, notFull⟩)]

/-- What GEN_RAND finishes with has its weight. -/
theorem randStep_finish_full {v : Nat} {res : Word} (h : randStep s p = .finish v res) : s.k ≤ p.cnt := by
  unfold randStep at h
  split at h
  · assumption
  · split at h <;> cases h

/-- What GEN_INV finishes with has its weight and is acceptable. -/
theorem invStep_finish_full {v : Nat} {res : Word} (h : invStep s p = .finish v res) :
    s.k ≤ p.cnt ∧ acceptable s.n p.vec = true := by
  unfold invStep at h
  split at h
  · rename_i accepted; exact accepted.2
  · split at h <;> split at h <;> cases h

end

/-! ## The acceptance test (R224, R225) -/

/-- The positions from m on, counted from 0. -/
theorem countBelow_from (m r : Nat) (f : Nat → Bool) :
    (countBelow (m + r) fun i => decide (m ≤ i) && f i) = countBelow r fun i => f (m + i) := by
  induction r with
  | zero =>
    have none : (countBelow m fun i => decide (m ≤ i) && f i) = countBelow m fun _ => false :=
      countBelow_congr fun i hi => by rw [decide_eq_false (Nat.not_le.mpr hi), Bool.false_and]
    rw [Nat.add_zero, none, countBelow_zero]
    exact congrFun List.countP_false (List.range m)
  | succ r ih =>
    rw [← Nat.add_assoc, countBelow_succ, countBelow_succ, ih, decide_eq_true (Nat.le_add_right m r), Bool.true_and]

theorem upperWeight_eq_countBelow (size v : Nat) :
    upperWeight size v = countBelow size fun i => decide (size / 2 ≤ i) && v.testBit i := by
  have split : size / 2 + (size - size / 2) = size := Nat.add_sub_cancel' (Nat.div_le_self size 2)
  have upper := countBelow_from (size / 2) (size - size / 2) v.testBit
  rw [split] at upper
  rw [upperWeight, upperLo, popcount_eq_countBelow, upper]
  exact countBelow_congr fun i _ => Nat.testBit_shiftRight v

/-- The model's test is the one that the rules state. -/
theorem acceptable_iff {size v : Nat} (pos : 1 ≤ size) (hv : v < 2 ^ size) :
    acceptable size v = true ↔ AcceptableVector size v := by
  rw [acceptable, Bool.and_eq_true, invertible_iff pos hv, upperWeight_eq_countBelow]; rfl

theorem acceptable_eq_false_iff {size v : Nat} (pos : 1 ≤ size) (hv : v < 2 ^ size) :
    acceptable size v = false ↔ ¬ AcceptableVector size v := by
  rw [← acceptable_iff pos hv, Bool.not_eq_true]

end Sys2Proof.Machine
end

section
/-! PROOFS. The engine step of GEN_RAND and GEN_INV (43_generator.md R221 to R225): completion, exhaustion, a draw or a
hold. -/

namespace Sys2Proof.Machine

/-! ## Behind the checks -/

theorem State.sizeOk_eq_true {s : State} : s.sizeOk = true ↔ 1 ≤ s.n ∧ s.n ≤ s.params.vlen ∧ s.k ≤ s.n := by
  simp only [State.sizeOk, Bool.and_eq_true, decide_eq_true_eq, and_assoc]

section
variable {s : State} {f : InFlight} {vd : Nat}

/-- The generators have the same checks of steps 2 to 4. -/
theorem State.Ready.genInv_of_genRand (h : s.Ready (.genRand vd)) : s.Ready (.genInv vd) :=
  ⟨h.legal, h.vregCount, h.goodP, h.goodBlocks, h.goodSingles, h.goodBlockEnds⟩

theorem exec_genRand (pass : s.preCheck (.genRand vd) = none) (hf : s.inflight = some f) (size : s.sizeOk = true) :
    exec (.genRand vd) s = .next (s.genStep f vd (randStep s f.progress)) :=
  (execGenRand_inflight hf vd).trans (congrArg _ (State.checked_of_ok pass size _))

theorem exec_genInv (pass : s.preCheck (.genInv vd) = none) (hf : s.inflight = some f) (size : s.sizeOk = true)
    (odd : s.k % 2 = 1) : exec (.genInv vd) s = .next (s.genStep f vd (invStep s f.progress)) := by
  have args : (s.sizeOk && decide (s.k % 2 = 1)) = true := by rw [size, decide_eq_true odd]; rfl
  exact (execGenInv_inflight hf vd).trans (congrArg _ (State.checked_of_ok pass args _))

/-- A destination holds the vector of size bits written to it. -/
theorem State.complete_vreg_of_size {v : Nat} (hvd : vd < s.vregs.length) (fits : s.n ≤ s.params.vlen)
    (hv : v < 2 ^ s.n) (code : ErrCode) (res : Word) : (s.complete code res [(vd, v)]).vreg vd = v :=
  State.complete_vreg_self hvd (hv.trans_le (Nat.pow_le_pow_right (by decide) fits)) code res

end

/-! ## The steps -/

/-- Settles O34: the step is the completion. -/
theorem genRandFinishesAtItsWeight : Obligations.GenRandFinishesAtItsWeight := by
  intro s f vd ready hf pos fits hk full hv
  have e := exec_genRand ready.preCheck_none hf (State.sizeOk_eq_true.mpr ⟨pos, fits, hk⟩)
  rw [randStep_full full] at e
  exact ⟨_, e, s.completesAs_complete .ok _ _,
    State.complete_vreg_of_size (ready.field_lt List.mem_cons_self) fits hv ..,
    fun r hr => State.complete_vreg_of_ne hr ..⟩

/-- Settles O35: below the weight and the draw cap the step is a draw, for both generators. -/
theorem generatorsDrawOneWordOrAreHeld : Obligations.GeneratorsDrawOneWordOrAreHeld := by
  intro i s f ready hf generator pos fits hk below uncapped
  have size := State.sizeOk_eq_true.mpr ⟨pos, fits, hk⟩
  have cap := capReached_eq_false.mpr uncapped
  have draws : exec i s = .next (s.drawStep f f.progress s.n) := by
    rcases generator with ⟨vd, rfl⟩ | ⟨⟨vd, rfl⟩, begun, odd⟩
    · rw [exec_genRand ready.preCheck_none hf size, randStep_draws below cap]; rfl
    · rw [exec_genInv ready.preCheck_none hf size odd, invStep_within begun below, cap]; rfl
  obtain ⟨word, held, entropy⟩ := exec_draws_or_holds draws
  refine ⟨word, fun src hfifo => (held src hfifo).trans ?_, entropy⟩
  rw [← hf]

/-- Settles O36: at the draw cap the step of either generator is the exhaustion. -/
theorem drawCapExhaustsTheGenerators : Obligations.DrawCapExhaustsTheGenerators := by
  intro s f vd ready hf pos fits hk below capped draws
  have size := State.sizeOk_eq_true.mpr ⟨pos, fits, hk⟩
  have cap : capReached s.maxDraw f.progress.draws = true := capReached_eq_true.mpr ⟨capped, draws⟩
  constructor
  · have e := exec_genRand ready.preCheck_none hf size
    rw [randStep_capped below cap, draws, saturate_toNat] at e
    exact ⟨_, e, s.completesAs_raise .genExhausted _, rfl⟩
  · intro odd begun small
    have e := exec_genInv ready.genInv_of_genRand.preCheck_none hf size odd
    rw [invStep_within begun below, if_pos cap, attemptRes_of_lt small] at e
    exact ⟨_, e, s.completesAs_raise .genExhausted _, rfl⟩

/-- Settles O37, by what has become of the last attempt. -/
theorem genInvAcceptsOrRetries : Obligations.GenInvAcceptsOrRetries := by
  intro s f vd ready hf pos fits hk odd hv full
  have e := exec_genInv ready.preCheck_none hf (State.sizeOk_eq_true.mpr ⟨pos, fits, hk⟩) odd
  have rejected := (acceptable_eq_false_iff pos hv).mpr
  refine ⟨fun ⟨begun, small, weight⟩ accepted => ?_, fun ⟨begun, small, weight⟩ bad capped => ?_, fun ended => ?_⟩
  · rw [invStep_accepted begun weight ((acceptable_iff pos hv).mpr accepted), attemptRes_of_lt small] at e
    exact ⟨_, e, s.completesAs_complete .ok _ _,
      State.complete_vreg_of_size (ready.field_lt List.mem_cons_self) fits hv ..,
      fun r hr => State.complete_vreg_of_ne hr ..⟩
  · have cap : capReached s.maxTry f.progress.attempt = true :=
      capReached_eq_true.mpr ⟨fun none => begun (by rw [capped, none]; rfl), capped⟩
    rw [invStep_ended (.inr ⟨weight, rejected bad⟩), if_pos cap, attemptRes_of_lt small] at e
    exact ⟨_, e, s.completesAs_raise .genExhausted _, rfl⟩
  · have uncapped : s.maxTry = 0 ∨ f.progress.attempt ≠ s.maxTry.toNat := by
      rcases ended with none | ⟨-, -, uncapped⟩
      · rw [none]
        exact (eq_or_ne s.maxTry 0).imp_right fun capped h => capped (BitVec.eq_of_toNat_eq h.symm)
      · exact .inr uncapped
    rw [invStep_ended (ended.imp_right fun ⟨⟨_, _, weight⟩, bad, _⟩ => ⟨weight, rejected bad⟩),
      capReached_eq_false.mpr uncapped] at e
    exact exec_draws_or_holds e

/-! ## What is written -/

theorem State.checked_passed_of_ok {s : State} {i : Instr} {argsOk : Bool} {op : Unit → State}
    (ok : (s.checked i argsOk op).err = .ok) : s.preCheck i = none ∧ argsOk = true := by
  rcases s.checked_cases i argsOk op with ⟨pass, args, -⟩ | ⟨c, hc, e⟩
  · exact ⟨pass, args⟩
  · rw [e] at ok; exact absurd ok hc

/-- A generator step that completes OK is the completion with a vector. -/
theorem State.genStep_finish_of_ok {s : State} {f : InFlight} {vd : Nat} {g : GenStep}
    (idle : (s.genStep f vd g).inflight = none) (ok : (s.genStep f vd g).err = .ok) : ∃ v res, g = .finish v res := by
  cases g with
  | finish v res => exact ⟨v, res, rfl⟩
  | exhaust res => cases ok
  | draw p => exact absurd idle (s.drawStep_inflight_ne_none f p s.n)

/-- A generator that completes OK has passed its checks and reached its weight, GEN_INV with an acceptable vector, and
writes the vector of its progress. -/
theorem exec_generator_full {i : Instr} {s t : State} {f : InFlight} {vd : Nat} (hi : i = .genRand vd ∨ i = .genInv vd)
    (hf : s.inflight = some f) (h : exec i s = .next t) (idle : t.inflight = none) (ok : t.err = .ok) :
    s.preCheck i = none ∧ s.sizeOk = true ∧ s.k ≤ f.progress.cnt ∧
      (i = .genInv vd → acceptable s.n f.progress.vec = true) ∧
      ∃ res, t = s.complete .ok res [(vd, f.progress.vec)] := by
  rcases hi with rfl | rfl
  · obtain rfl := Host.Outcome.next.inj ((execGenRand_inflight hf vd).symm.trans h)
    obtain ⟨pass, size⟩ := State.checked_passed_of_ok ok
    rw [State.checked_of_ok pass size] at idle ok ⊢
    obtain ⟨v, res, finish⟩ := State.genStep_finish_of_ok idle ok
    exact ⟨pass, size, randStep_finish_full finish, nofun, res, by rw [finish, randStep_finish finish]; rfl⟩
  · obtain rfl := Host.Outcome.next.inj ((execGenInv_inflight hf vd).symm.trans h)
    obtain ⟨pass, args⟩ := State.checked_passed_of_ok ok
    rw [State.checked_of_ok pass args] at idle ok ⊢
    obtain ⟨v, res, finish⟩ := State.genStep_finish_of_ok idle ok
    obtain ⟨weight, accepted⟩ := invStep_finish_full finish
    exact ⟨pass, (Bool.and_eq_true_iff.mp args).1, weight, fun _ => accepted, res, by
      rw [finish, invStep_finish finish]; rfl⟩

/-- Settles O41: what is written is the vector of the progress, which is sound. -/
theorem generatedVectorsHaveTheirWeight : Obligations.GeneratedVectorsHaveTheirWeight := by
  intro i s t vd inv busy hi h idle ok
  obtain ⟨f, hf⟩ := Option.ne_none_iff_exists'.mp busy
  have sound := inv.progressSound f hf
  obtain ⟨pass, size, weight, accepted, res, rfl⟩ := exec_generator_full hi hf h idle ok
  obtain ⟨pos, fits, -⟩ := State.sizeOk_eq_true.mp size
  have ready : s.Ready i := State.ready_iff.mpr ⟨inv.legal, inv.vregCount, pass⟩
  have named : vd ∈ i.singleFields := by rcases hi with rfl | rfl <;> exact List.mem_cons_self
  rw [State.complete_vreg_of_size (ready.field_lt named) fits sound.vecBelow]
  exact ⟨sound.vecBelow, sound.cntCounts.trans (Nat.le_antisymm sound.cntAtMost weight),
    fun inverse => (acceptable_iff pos sound.vecBelow).mp (accepted inverse)⟩

end Sys2Proof.Machine
end

section
/-! PROOFS. Runs of a generator: the hold (43_generator.md R221), GEN_RAND on injected words (R222), and GEN_RAND with a
draw cap on the entropy port (R228). -/

namespace Sys2Proof.Machine

/-! ## The hold -/

/-- A held engine takes no step (40_execution.md R132). -/
theorem engineTurn_held {s : State} (held : s.rngWait = true) : engineTurn s = .next s := by
  cases hf : s.inflight with
  | none => rw [engineTurn, hf]
  | some f => rw [engineTurn, hf, held]; rfl

theorem run_held {s : State} (held : s.rngWait = true) (rest : List Turn) (n : Nat) :
    core.run n { s with agenda := List.replicate n .engine ++ rest } = .next { s with agenda := rest } := by
  induction n with
  | zero => rfl
  | succ n ih =>
    have turn : step { s with agenda := List.replicate (n + 1) .engine ++ rest } =
        .next { s with agenda := List.replicate n .engine ++ rest } :=
      (step_engine (by rw [List.replicate_succ, List.cons_append])).trans (engineTurn_held held)
    rw [run_succ_of_step n turn, ih]

/-- A generator that stays in flight with an empty FIFO is held. -/
theorem exec_generator_held {i : Instr} {s t : State} {f : InFlight} (hi : i.isGenerator = true)
    (hf : s.inflight = some f) (src : f.rngSrc = true) (empty : s.fifo = []) (h : exec i s = .next t)
    (busy : t.inflight ≠ none) :
    ∃ p, t = { s with rngWait := true, inflight := some { f with progress := p } } := by
  rcases exec_generator_cases hi h with ⟨none, -⟩ | ⟨f', hf', ⟨c, -, rfl⟩ | ⟨vd, g, -, rfl, -⟩⟩
  · rw [hf] at none; cases none
  · exact absurd rfl busy
  · obtain rfl : f = f' := Option.some.inj (hf.symm.trans hf')
    cases g with
    | finish v res => exact absurd rfl busy
    | exhaust res => exact absurd rfl busy
    | draw p => exact ⟨p, State.drawStep_held src empty p s.n⟩

/-- Settles O38: the step is a hold, which lasts until a word is written. -/
theorem heldGeneratorTurnsChangeNothing : Obligations.HeldGeneratorTurnsChangeNothing := by
  intro i s t f n rest hi hf src empty h busy
  obtain ⟨p, rfl⟩ := exec_generator_held hi hf src empty h busy
  refine ⟨rfl, empty, run_held rfl rest n, fun room w => ?_⟩
  rw [State.access_write rfl]
  refine congrArg (·, none) ((State.writeRngData_room ?_ w).trans ?_)
  · rw [empty]; exact room
  · rw [empty]; rfl

/-! ## GEN_RAND with the engine moving first -/

/-- The command f, a gen.rand, is in flight and the next step is its engine step (log 2). -/
structure State.RunsGenRand (s : State) (vd : Nat) (f : InFlight) : Prop where
  noTurns : s.agenda = []
  awake : s.rngWait = false
  inflight : s.inflight = some f
  decoded : decode f.word = .ok (.genRand vd)

/-- The CMD write of a gen.rand to an idle engine with no turns listed. -/
theorem State.runsGenRand_accept {s : State} {w : Word} {vd : Nat} (noTurns : s.agenda = []) (awake : s.rngWait = false)
    (hd : decode w = .ok (.genRand vd)) :
    (s.accept w).RunsGenRand vd { word := w, rngSrc := s.rngSrc, progress := .fresh } :=
  ⟨noTurns, awake, rfl, hd⟩

theorem State.access_cmd_idle {s : State} (idle : s.inflight = none) (w : Word) :
    (s.access (.write 0x018 .w32 w)).1 = s.accept w := State.writeCmd_idle (State.busy_eq_false_iff.mpr idle) w

section
variable {s : State} {vd : Nat} {f : InFlight}

theorem State.RunsGenRand.step_eq (h : s.RunsGenRand vd f) : step s = exec (.genRand vd) s :=
  (step_enabled h.noTurns (congrArg Option.isSome h.inflight) h.awake).trans
    (engineTurn_decoded h.inflight h.decoded h.awake)

/-- A step that draws an injected word. -/
theorem State.RunsGenRand.step_word (h : s.RunsGenRand vd f) (pass : s.preCheck (.genRand vd) = none)
    (size : s.sizeOk = true) (src : f.rngSrc = true) (below : f.progress.cnt < s.k)
    (cap : s.maxDraw = 0 ∨ f.progress.draws ≠ s.maxDraw.toNat) {w : Word} {rest : List Word}
    (hfifo : s.fifo = w :: rest) :
    step s = .next { s with fifo := rest, inflight := some { f with progress := f.progress.take s.n w } } := by
  rw [h.step_eq, exec_genRand pass h.inflight size, randStep_draws below (capReached_eq_false.mpr cap)]
  refine congrArg _ ((State.drawStep_word src hfifo f.progress s.n).trans ?_)
  rw [← h.awake]

/-- With its weight reached the next step is the completion. -/
theorem State.RunsGenRand.run_finish (h : s.RunsGenRand vd f) (pass : s.preCheck (.genRand vd) = none)
    (size : s.sizeOk = true) (full : s.k ≤ f.progress.cnt) :
    core.run 1 s = .next (s.complete .ok (saturate f.progress.draws) [(vd, f.progress.vec)]) := by
  have turn := h.step_eq.trans (exec_genRand pass h.inflight size)
  rw [randStep_full full] at turn
  exact run_succ_of_step 0 turn

/-- The words ws are drawn in their order while the progress stays below the weight and the draw cap; once it reaches
the weight, the command completes. -/
theorem State.RunsGenRand.run_words (h : s.RunsGenRand vd f) (pass : s.preCheck (.genRand vd) = none)
    (size : s.sizeOk = true) (src : f.rngSrc = true) {ws rest : List Word} (hfifo : s.fifo = ws ++ rest)
    {p : Nat → Progress} (start : p 0 = f.progress)
    (draws : ∀ j, (hj : j < ws.length) → (p j).DrawnTo (p (j + 1)) s.n ws[j] ∧ (p j).cnt < s.k ∧
      (s.maxDraw = 0 ∨ (p j).draws ≠ s.maxDraw.toNat))
    (full : s.k ≤ (p ws.length).cnt) :
    core.run (ws.length + 1) s = .next ({ s with fifo := rest }.complete .ok (saturate (p ws.length).draws)
      [(vd, (p ws.length).vec)]) := by
  induction ws generalizing s f p with
  | nil =>
    obtain rfl : s.fifo = rest := hfifo
    rw [List.length_nil, start] at full ⊢
    exact h.run_finish pass size full
  | cons w ws ih =>
    obtain ⟨drawn, below, cap⟩ := draws 0 (Nat.succ_pos _)
    rw [start] at drawn below cap
    have next : p 1 = f.progress.take s.n w := Progress.drawnTo_iff.mp drawn
    have turn := h.step_word pass size src below cap hfifo
    rw [← next] at turn
    rw [run_succ_of_step _ turn]
    exact ih (s := { s with fifo := ws ++ rest, inflight := some { f with progress := p 1 } })
      (f := { f with progress := p 1 }) (p := fun j => p (j + 1)) ⟨h.noTurns, h.awake, rfl, h.decoded⟩ pass size src
      rfl rfl (fun j hj => draws (j + 1) (Nat.succ_lt_succ hj)) full

/-- A step on the entropy source completes, or draws below the draw cap and leaves the command running. -/
theorem State.RunsGenRand.step_entropy (h : s.RunsGenRand vd f) (src : f.rngSrc = false) :
    (∃ code res d, step s = .next (s.complete code res d)) ∨
    (capReached s.maxDraw f.progress.draws = false ∧ ∃ t p, step s = .next t ∧ t.maxDraw = s.maxDraw ∧
      p.draws = f.progress.draws + 1 ∧ t.RunsGenRand vd { f with progress := p }) := by
  have turn := h.step_eq.trans (execGenRand_inflight h.inflight vd)
  rcases s.checked_cases (.genRand vd) s.sizeOk fun _ => s.genStep f vd (randStep s f.progress) with
    ⟨-, -, e⟩ | ⟨c, -, e⟩ <;> rw [e] at turn
  · rcases Nat.lt_or_ge f.progress.cnt s.k with below | full
    · cases cap : capReached s.maxDraw f.progress.draws with
      | true => rw [randStep_capped below cap] at turn; exact .inl ⟨_, _, _, turn⟩
      | false =>
        rw [randStep_draws below cap] at turn
        have drawn := turn.trans (congrArg _ (State.drawStep_entropy src f.progress s.n))
        exact .inr ⟨rfl, _, _, drawn, rfl, Progress.take_draws .., h.noTurns, h.awake, rfl, h.decoded⟩
    · rw [randStep_full full] at turn; exact .inl ⟨_, _, _, turn⟩
  · exact .inl ⟨c, 0, [], turn⟩

/-- With `left` draws left to the cap, the command completes within left + 1 steps. -/
theorem State.RunsGenRand.completes_within (h : s.RunsGenRand vd f) (src : f.rngSrc = false) (capped : s.maxDraw ≠ 0)
    {left : Nat} (hleft : f.progress.draws + left = s.maxDraw.toNat) :
    ∃ j t, j ≤ left + 1 ∧ core.run j s = .next t ∧ t.inflight = none ∧ t.done = true := by
  induction left generalizing s f with
  | zero =>
    rcases h.step_entropy src with ⟨code, res, d, turn⟩ | ⟨below, -⟩
    · exact ⟨1, _, le_rfl, run_succ_of_step 0 turn, rfl, rfl⟩
    · rw [capReached_eq_true.mpr ⟨capped, (Nat.add_zero _).symm.trans hleft⟩] at below; cases below
  | succ left ih =>
    rcases h.step_entropy src with ⟨code, res, d, turn⟩ | ⟨-, u, p, turn, cap, drawn, runs⟩
    · exact ⟨1, _, Nat.succ_pos _, run_succ_of_step 0 turn, rfl, rfl⟩
    · have hleft' : p.draws + left = u.maxDraw.toNat := by rw [drawn, cap, ← hleft]; omega
      obtain ⟨j, t, hj, run, idle, done⟩ := ih runs src (cap ▸ capped) hleft'
      exact ⟨j + 1, t, Nat.succ_le_succ hj, (run_succ_of_step j turn).trans run, idle, done⟩

end

/-- Progress drawn word by word has drawn as many words, and lies below size. -/
theorem Progress.drawn_words {p : Nat → Progress} {ws : List Word} {size : Nat} (start : p 0 = .fresh)
    (drawn : ∀ j, (h : j < ws.length) → (p j).DrawnTo (p (j + 1)) size ws[j]) {j : Nat} (hj : j ≤ ws.length) :
    (p j).draws = j ∧ (p j).vec < 2 ^ size := by
  induction j with
  | zero => rw [start]; exact ⟨rfl, Nat.two_pow_pos size⟩
  | succ j ih =>
    obtain ⟨draws, below⟩ := ih (Nat.le_of_succ_le hj)
    rw [Progress.drawnTo_iff.mp (drawn j hj), Progress.take_draws, draws]
    exact ⟨rfl, Progress.take_vec_lt below ws[j]⟩

/-- Settles O39: the words are drawn one by one, and the next step is the completion. -/
theorem genRandRunTakesItsWordsInOrder : Obligations.GenRandRunTakesItsWordsInOrder := by
  intro s w vd ws rest p ready noTurns idle hd src awake hfifo pos fits hk start hdraws full
  have size : (s.accept w).sizeOk = true := State.sizeOk_eq_true.mpr ⟨pos, fits, hk⟩
  have drawn : ∀ {j}, j ≤ ws.length → (p j).draws = j ∧ (p j).vec < 2 ^ s.n :=
    Progress.drawn_words start fun j hj => (hdraws j hj).1
  obtain ⟨draws, below⟩ := drawn le_rfl
  have run := (State.runsGenRand_accept noTurns awake hd).run_words ready.preCheck_none size src hfifo start
    (fun j hj => by
      obtain ⟨word, weight, cap⟩ := hdraws j hj
      refine ⟨word, weight, cap.imp_right fun lt => ?_⟩
      rw [(drawn hj.le).1]; exact lt.ne)
    full.ge
  rw [draws] at run
  rw [State.access_cmd_idle idle]
  refine ⟨_, run, State.completesAs_complete .., State.complete_vreg_of_size ?_ ?_ ?_ ..,
    fun r hr => State.complete_vreg_of_ne hr ..⟩
  · exact ready.field_lt List.mem_cons_self
  · exact fits
  · exact below

/-- Settles O40: as many draws as the cap allows are left at the CMD write. -/
theorem genRandWithADrawCapCompletes : Obligations.GenRandWithADrawCapCompletes := by
  intro s w vd noTurns awake idle hd src capped
  rw [State.access_cmd_idle idle]
  exact (State.runsGenRand_accept noTurns awake hd).completes_within src capped (Nat.zero_add _)

end Sys2Proof.Machine
end

section
/-! PROOFS. GEN_HASH (43_generator.md R226): the invariant of its scan, and what the command completes with. -/

namespace Sys2Proof.Machine

/-! ## The scan -/

theorem countBelow_mono {m n : Nat} (h : m ≤ n) (f : Nat → Bool) : countBelow m f ≤ countBelow n f :=
  (List.range_sublist.mpr h).countP_le

/-- The scan of digest d stands at pos, with v the digest up to there, and the weight has not been passed. -/
structure HashScanned (weight d v ones pos : Nat) : Prop where
  count : countBelow pos d.testBit = ones
  atMost : ones ≤ weight
  before : ∀ q, q < pos → countBelow q d.testBit < weight
  bits : ∀ j, v.testBit j = (decide (j < pos) && d.testBit j)

section
variable {weight d v ones pos : Nat}

theorem HashScanned.zero (weight d : Nat) : HashScanned weight d 0 0 0 where
  count := countBelow_zero _
  atMost := Nat.zero_le _
  before _ hq := absurd hq (Nat.not_lt_zero _)
  bits j := by rw [Nat.zero_testBit, decide_eq_false (Nat.not_lt_zero j), Bool.false_and]

theorem HashScanned.lt_two_pow (h : HashScanned weight d v ones pos) : v < 2 ^ pos :=
  lt_two_pow_iff_testBit.mpr fun j hj => by rw [h.bits, decide_eq_false (Nat.not_lt.mpr hj), Bool.false_and]

/-- Below the weight the scan takes the bit at pos and goes on. -/
theorem HashScanned.next (h : HashScanned weight d v ones pos) (below : ones < weight) :
    HashScanned weight d (if d.testBit pos then v ||| 1 <<< pos else v) (ones + (d.testBit pos).toNat) (pos + 1) where
  count := by rw [countBelow_succ, h.count]
  atMost := (Nat.add_le_add_left (Bool.toNat_le _) ones).trans below
  before q hq := (countBelow_mono (Nat.le_of_lt_succ hq) _).trans_lt (h.count.trans_lt below)
  bits j := by
    have step : (if d.testBit pos then v ||| 1 <<< pos else v).testBit j =
        (v.testBit j || (decide (pos = j) && d.testBit pos)) := by
      cases d.testBit pos
      · rw [Bool.and_false, Bool.or_false]; rfl
      · rw [Bool.and_true, if_pos rfl, Nat.testBit_or, testBit_one_shiftLeft]
    rw [step, h.bits]
    rcases Nat.lt_trichotomy j pos with lt | rfl | gt
    · simp [lt, lt.ne', Nat.lt_succ_of_lt lt]
    · simp
    · simp [gt.ne, gt.not_gt, Nat.not_lt.mpr (Nat.succ_le_of_lt gt)]

/-- The scan stops at the weight or at its end. -/
theorem HashScanned.scan (h : HashScanned weight d v ones pos) (rest : Nat) :
    ∃ v' ones' pos', hashScan weight d rest v ones pos = (v', ones', pos') ∧ HashScanned weight d v' ones' pos' ∧
      pos' ≤ pos + rest ∧ (ones' = weight ∨ pos' = pos + rest) := by
  induction rest generalizing v ones pos with
  | zero => exact ⟨v, ones, pos, rfl, h, le_rfl, .inr rfl⟩
  | succ rest ih =>
    rcases Nat.lt_or_ge ones weight with below | full
    · have turn : hashScan weight d (rest + 1) v ones pos = hashScan weight d rest
          (if d.testBit pos then v ||| 1 <<< pos else v) (ones + (d.testBit pos).toNat) (pos + 1) := by
        rw [hashScan, if_neg (Nat.not_le.mpr below)]
        cases d.testBit pos <;> rfl
      rw [turn, Nat.add_comm rest, ← Nat.add_assoc]
      exact ih (h.next below)
    · exact ⟨v, ones, pos, by rw [hashScan, if_pos full], h, Nat.le_add_right _ _, .inl (h.atMost.antisymm full)⟩

end

/-! ## The command -/

theorem exec_genHash {s : State} {vd va v ones pos : Nat} (ready : s.Ready (.genHash vd va)) (size : s.sizeOk = true)
    (scan : hashScan s.k (s.vreg va) s.n 0 0 0 = (v, ones, pos)) : exec (.genHash vd va) s =
      .next (if ones < s.k then s.raise .hashShort (hashRes ones pos)
        else s.complete .ok (hashRes ones pos) [(vd, v)]) := by
  rw [exec, execGenHash, State.checked_of_ok ready.preCheck_none size, scan]

/-- Settles O42, by whether the scan has reached the weight. -/
theorem genHashTakesTheFirstOnes : Obligations.GenHashTakesTheFirstOnes := by
  intro s vd va ready pos fits hk
  obtain ⟨v, ones, stop, scan, scanned, inside, ended⟩ := (HashScanned.zero s.k (s.vreg va)).scan s.n
  rw [Nat.zero_add] at inside ended
  have e := exec_genHash ready (State.sizeOk_eq_true.mpr ⟨pos, fits, hk⟩) scan
  rcases Nat.lt_or_ge ones s.k with short | full
  · obtain rfl := ended.resolve_left short.ne
    rw [if_pos short] at e
    rw [scanned.count]
    exact ⟨_, e, fun _ _ => rfl, fun enough => absurd short (Nat.not_lt.mpr enough),
      fun _ => ⟨s.completesAs_raise .hashShort _, rfl⟩⟩
  · obtain rfl : s.k = ones := Eq.symm <| scanned.atMost.antisymm full
    rw [if_neg (Nat.not_lt.mpr full)] at e
    have enough : s.k ≤ countBelow s.n (s.vreg va).testBit := scanned.count ▸ countBelow_mono inside _
    have written := State.complete_vreg_of_size (ready.field_lt List.mem_cons_self) fits
      (scanned.lt_two_pow.trans_le (Nat.pow_le_pow_right (by decide) inside)) .ok (hashRes s.k stop)
    refine ⟨_, e, fun r hr => State.complete_vreg_of_ne hr .., fun _ => ⟨stop, inside, scanned.count, scanned.before,
      s.completesAs_complete .ok _ _, fun j => ?_⟩, fun short => absurd short (Nat.not_lt.mpr enough)⟩
    rw [written, scanned.bits]

end Sys2Proof.Machine
end

section
/-! PROOFS. The decoder commands (44_decoder.md R250 to R257): the matrix and the syndrome bit by bit, the rounds of the
loop, and what each command completes with. -/

namespace Sys2Proof.Machine

/-! ## The matrix and the syndrome (R250, R251) -/

/-- (j − m) mod p with the subtraction of integers is what the model computes without going below 0. -/
theorem toNat_sub_emod {p : Nat} (pos : 0 < p) (j m : Nat) : (((j : Int) - m) % p).toNat = (j + (p - m % p)) % p := by
  have shifted : (j : Int) - m = ((j + (p - m % p) : Nat) : Int) - p * ((m / p : Nat) + 1 : Int) := by
    have split := Nat.div_add_mod m p
    have below := (Nat.mod_lt m pos).le
    zify [below] at split ⊢
    linear_combination split
  rw [shifted, Int.sub_mul_emod_self_left, ← Int.natCast_mod, Int.toNat_natCast]

section
variable {s : State} {va q : Nat}

@[simp] theorem State.parity_p (s : State) (r : Nat) : (s.parity r).p = s.P := rfl

@[simp] theorem State.parity_width (s : State) (r : Nat) : (s.parity r).width = s.n0 * s.P := by
  simp [Parity.width, Parity.blocks, State.parity]

/-- The model's matrix is the matrix of R250, in every column. -/
theorem State.parity_entry (hq : q < s.n0 * s.P) (k : Nat) : (s.parity va).entry k q = parityEntry s va k q := by
  have pos : 0 < s.P := Nat.pos_of_lt_mul_left hq
  have block : q / s.P < s.n0 := Nat.div_lt_of_lt_mul (Nat.mul_comm .. ▸ hq)
  have row : (s.parity va).rows.getD (q / s.P) 0 = s.poly (va + q / s.P) := by simp [State.parity, block]
  have shift : (s.parity va).shifts.getD (q / s.P) 0 = s.shift (q / s.P) := by simp [State.parity, block]
  change (((s.parity va).rows.getD (q / s.P) 0).testBit
    ((q % s.P + (s.P - k * (s.parity va).shifts.getD (q / s.P) 0 % s.P)) % s.P)) = _
  rw [row, shift, State.testBit_poly, decide_eq_true (Nat.mod_lt _ pos), Bool.true_and, parityEntry, ← Nat.cast_mul,
    toNat_sub_emod pos]

theorem State.testBit_parity_col (hq : q < s.n0 * s.P) (k : Nat) :
    ((s.parity va).col q).testBit k = (decide (k < s.P) && parityEntry s va k q) := by
  rw [Parity.col, testBit_bitsOf, State.parity_entry hq, State.parity_p]

/-- Bit k of the syndrome is the parity of the bits of x that row k selects (R251). -/
theorem State.testBit_parity_synd (s : State) (va x k : Nat) : ((s.parity va).synd x).testBit k =
    (decide (k < s.P) && parityBelow (s.n0 * s.P) fun q => parityEntry s va k q && x.testBit q) := by
  rcases Nat.lt_or_ge k s.P with inside | above
  · rw [Parity.synd, testBit_xorOver_parity, decide_eq_true inside, Bool.true_and, State.parity_width]
    refine parityBelow_congr fun q hq => ?_
    cases x.testBit q
    · simp
    · simp [State.testBit_parity_col hq, inside]
  · rw [testBit_eq_false_of_le (Parity.synd_lt _ x) above, decide_eq_false (Nat.not_lt.mpr above), Bool.false_and]

/-! ## A round (R252, R253) -/

theorem State.parity_unsatisfied (hq : q < s.n0 * s.P) (z : Nat) :
    (s.parity va).unsatisfied z q = countBelow s.P fun k => parityEntry s va k q && z.testBit k := by
  rw [Parity.unsatisfied, popcount_eq_countBelow, State.parity_p]
  refine countBelow_congr fun k hk => ?_
  rw [Nat.testBit_and, State.testBit_parity_col hq, decide_eq_true hk, Bool.true_and]

/-- A bound that a term attains is the largest term. -/
theorem maxOver_eq_of_attained {n m : Nat} {f : Nat → Nat} (bound : ∀ i, i < n → f i ≤ m)
    (attained : ∃ i, i < n ∧ f i = m) : maxOver n f = m := by
  obtain ⟨i, hi, rfl⟩ := attained
  exact (maxOver_le f bound).antisymm (le_maxOver f hi)

/-- The round of R252 is the round of the model's loop. -/
theorem State.RoundTo.eq_flips {x z x' z' : Nat} (h : s.RoundTo va x z x' z') :
    x' = x ^^^ (s.parity va).flips z ∧ z' = z ^^^ (s.parity va).synd ((s.parity va).flips z) := by
  obtain ⟨m, bound, ⟨p, hp, hm⟩, hx, hz⟩ := h
  have threshold : (s.parity va).threshold z = m - 5 := by
    rw [Parity.threshold, State.parity_width, maxOver_eq_of_attained (m := m)]
    · rfl
    · exact fun q hq => State.parity_unsatisfied hq z ▸ bound q hq
    · exact ⟨p, hp, (State.parity_unsatisfied hp z).trans hm⟩
  have flips : ∀ q, q < s.n0 * s.P → ((s.parity va).flips z).testBit q =
      decide (m - 5 < countBelow s.P fun k => parityEntry s va k q && z.testBit k) := fun q hq => by
    rw [Parity.flips, testBit_bitsOf, State.parity_width, decide_eq_true hq, Bool.true_and, threshold,
      State.parity_unsatisfied hq]
  constructor <;> refine Nat.eq_of_testBit_eq fun j => ?_
  · rw [hx, Nat.testBit_xor]
    rcases Nat.lt_or_ge j (s.n0 * s.P) with inside | above
    · rw [flips j inside, decide_eq_true inside, Bool.true_and]
    · have fits : (s.parity va).flips z < 2 ^ (s.n0 * s.P) := s.parity_width va ▸ (s.parity va).flips_lt z
      rw [testBit_eq_false_of_le fits above, decide_eq_false (Nat.not_lt.mpr above), Bool.false_and]
  · rw [hz, Nat.testBit_xor, State.testBit_parity_synd]
    refine congrArg (fun b => z.testBit j ^^ (decide (j < s.P) && b)) (parityBelow_congr fun q hq => ?_)
    rw [flips q hq]

end

/-! ## The loop (R252) -/

section
variable {h : Parity}

theorem Parity.bitFlip_of_zero (h : Parity) (fuel x rounds : Nat) : h.bitFlip fuel x 0 rounds = some (x, rounds) := by
  cases fuel <;> exact if_pos rfl

theorem Parity.bitFlip_exhausted {z : Nat} (hz : z ≠ 0) (x rounds : Nat) : h.bitFlip 0 x z rounds = none := if_neg hz

theorem Parity.bitFlip_succ {z : Nat} (hz : z ≠ 0) (fuel x rounds : Nat) : h.bitFlip (fuel + 1) x z rounds =
    h.bitFlip fuel (x ^^^ h.flips z) (z ^^^ h.synd (h.flips z)) (rounds + 1) := if_neg hz

/-- As long as the syndromes are not 0, the loop goes through the candidates and syndromes of successive rounds. -/
theorem Parity.bitFlip_rounds {x z : Nat → Nat}
    (round : ∀ r, x (r + 1) = x r ^^^ h.flips (z r) ∧ z (r + 1) = z r ^^^ h.synd (h.flips (z r))) {r : Nat}
    (unsolved : ∀ r', r' < r → z r' ≠ 0) (fuel : Nat) :
    h.bitFlip (r + fuel) (x 0) (z 0) 0 = h.bitFlip fuel (x r) (z r) r := by
  induction r generalizing fuel with
  | zero => rw [Nat.zero_add]
  | succ r ih =>
    obtain ⟨hx, hz⟩ := round r
    rw [Nat.add_assoc, Nat.add_comm 1, ih fun r' hr' => unsolved r' (Nat.lt_succ_of_lt hr'),
      Parity.bitFlip_succ (unsolved r (Nat.lt_succ_self r)), hx, hz]

end

/-! ## Completions (R254 to R257) -/

section
variable {s : State} {i : Instr} {vd va vb : Nat}

theorem exec_decSynd (ready : s.Ready (.decSynd vd va vb)) : exec (.decSynd vd va vb) s =
    .next (s.complete .ok (BitVec.ofNat 32 (popcount s.P ((s.parity va).synd (s.blockWord vb))))
      [(vd, (s.parity va).synd (s.blockWord vb))]) :=
  congrArg Host.Outcome.next (State.checked_of_ok ready.preCheck_none rfl _)

theorem exec_decCw (ready : s.Ready (.decCw vd va)) : exec (.decCw vd va) s =
    .next (s.decoded vd ((s.parity va).bitFlip Config.decLimit (s.blockWord vd)
      ((s.parity va).synd (s.blockWord vd)) 0)) :=
  congrArg Host.Outcome.next (State.checked_of_ok ready.preCheck_none rfl _)

theorem exec_decSyn (ready : s.Ready (.decSyn vd va vb)) : exec (.decSyn vd va vb) s =
    .next (s.decoded vd ((s.parity va).bitFlip Config.decLimit 0 (s.poly vb) 0)) :=
  congrArg Host.Outcome.next (State.checked_of_ok ready.preCheck_none rfl _)

/-- Outside blk(vd) the decoder writes nothing. -/
theorem State.decoded_vreg_of_not_mem {r : Nat} (hr : r ∉ (List.range s.n0).map (vd + ·)) (o : Option (Nat × Nat)) :
    (s.decoded vd o).vreg r = s.vreg r := by
  cases o with
  | none => rfl
  | some xr => exact (State.complete_vreg ..).trans (State.setVregs_vreg_of_not_mem (s.blockWrites_fst vd xr.1 ▸ hr))

/-- On success blk(vd) holds the final word, one P-bit block in each register. -/
theorem State.Ready.decoded_vreg (ready : s.Ready i) (hP : i.usesP = true) (hvd : vd ∈ i.blockFields) {b : Nat}
    (hb : b < s.n0) (x rounds : Nat) : (s.decoded vd (some (x, rounds))).vreg (vd + b) = low s.P (x >>> (b * s.P)) := by
  have present : vd + b < s.vregs.length := by
    have := ready.goodBlockEnds vd hvd
    rw [ready.vregCount]
    omega
  exact (State.complete_vreg ..).trans (State.setVregs_blockWrites x hb present (ready.goodP hP).2)

/-- On success bit q of blk(vd) is bit q of the final word. -/
theorem State.Ready.testBit_decoded_vreg (ready : s.Ready i) (hP : i.usesP = true) (hvd : vd ∈ i.blockFields)
    {q : Nat} (hq : q < s.n0 * s.P) (x rounds : Nat) :
    ((s.decoded vd (some (x, rounds))).vreg (vd + q / s.P)).testBit (q % s.P) = x.testBit q := by
  have inside : q % s.P < s.P := Nat.mod_lt q (Nat.pos_of_lt_mul_left hq)
  rw [ready.decoded_vreg hP hvd (Nat.div_lt_of_lt_mul (Nat.mul_comm .. ▸ hq)), testBit_low, decide_eq_true inside,
    Bool.true_and, Nat.testBit_shiftRight, Nat.mul_comm, Nat.div_add_mod]

/-- The loop from x and z ends with a word in blk(vd) whose syndrome is the sum of z and that of x, or in DECODE_FAIL
(R252, R257). -/
theorem State.Ready.decoded_bitFlip (ready : s.Ready i) (hP : i.usesP = true) (hvd : vd ∈ i.blockFields) {x z : Nat}
    {o : Option (Nat × Nat)} (loop : (s.parity va).bitFlip Config.decLimit x z 0 = o) :
    ∃ res, (s.CompletesAs (s.decoded vd o) .ok res ∧ res.toNat ≤ 10 ∧
        (∀ b, b < s.n0 → (s.decoded vd o).vreg (vd + b) < 2 ^ s.P) ∧
        ∀ k, k < s.P → parityBelow (s.n0 * s.P) (fun q =>
          parityEntry s va k q && ((s.decoded vd o).vreg (vd + q / s.P)).testBit (q % s.P)) =
            ((s.parity va).synd x ^^^ z).testBit k) ∨
      (s.CompletesAs (s.decoded vd o) .decodeFail 10 ∧ (s.decoded vd o).vregs = s.vregs) := by
  cases o with
  | none => exact ⟨0, .inr ⟨s.completesAs_raise .decodeFail _, rfl⟩⟩
  | some ended =>
    obtain ⟨y, rounds⟩ := ended
    obtain ⟨total, -, few⟩ := Parity.bitFlip_some loop
    rw [Nat.zero_add, Config.decLimit] at few
    refine ⟨BitVec.ofNat 32 rounds, .inl ⟨s.completesAs_complete .ok _ _, ?_, fun b hb => ?_, fun k hk => ?_⟩⟩
    · rw [BitVec.toNat_ofNat]
      exact (Nat.mod_le _ _).trans few
    · rw [ready.decoded_vreg hP hvd hb]
      exact low_lt _ _
    · have syndrome : (s.parity va).synd x ^^^ z = (s.parity va).synd y := by
        rw [← total, Parity.synd_xor, Nat.xor_xor_cancel_left]
      rw [syndrome, State.testBit_parity_synd, decide_eq_true hk, Bool.true_and]
      exact parityBelow_congr fun q hq => by rw [ready.testBit_decoded_vreg hP hvd hq]

end

/-! ## The commands -/

/-- Settles O43: the syndrome is a P-bit vector, known bit by bit. -/
theorem decSyndComputesTheSyndrome : Obligations.DecSyndComputesTheSyndrome := by
  intro s vd va vb ready
  have written := fun res => State.complete_vreg_self (ready.field_lt (List.mem_singleton_self vd))
    (ready.lt_two_pow_vlen rfl (Parity.synd_lt (s.parity va) (s.blockWord vb))) .ok res
  refine ⟨_, exec_decSynd ready, ?_, fun r hr => State.complete_vreg_of_ne hr .., fun k => ?_⟩
  · rw [written, ← popcount_eq_countBelow]
    exact s.completesAs_complete .ok _ _
  · rw [written, State.testBit_parity_synd]
    refine congrArg _ (parityBelow_congr fun q hq => ?_)
    rw [State.testBit_blockWord, decide_eq_true hq, Bool.true_and]

/-- Settles O44: the loop starts from the syndrome of the received word, so it ends on a word of syndrome 0. -/
theorem decCwWritesACodewordOrFails : Obligations.DecCwWritesACodewordOrFails := by
  intro s vd va ready
  obtain ⟨res, ends⟩ := ready.decoded_bitFlip rfl List.mem_cons_self (loop := rfl)
  refine ⟨_, res, exec_decCw ready, fun r hr => State.decoded_vreg_of_not_mem hr _, ends.imp_left ?_⟩
  rintro ⟨ok, few, below, syndrome⟩
  refine ⟨ok, few, below, fun k hk => ?_⟩
  rw [syndrome k hk, Nat.xor_self, Nat.zero_testBit]

/-- Settles O45: the loop starts from the word 0, so it ends on a word whose syndrome is the operand. -/
theorem decSynWritesAPatternOfTheSyndromeOrFails : Obligations.DecSynWritesAPatternOfTheSyndromeOrFails := by
  intro s vd va vb ready
  obtain ⟨res, ends⟩ := ready.decoded_bitFlip rfl List.mem_cons_self (loop := rfl)
  refine ⟨_, res, exec_decSyn ready, fun r hr => State.decoded_vreg_of_not_mem hr _, ends.imp_left ?_⟩
  rintro ⟨ok, few, below, syndrome⟩
  refine ⟨ok, few, below, fun k hk => ?_⟩
  rw [syndrome k hk, Parity.synd_zero, Nat.zero_xor, State.testBit_poly, decide_eq_true hk, Bool.true_and]

/-- Settles O46: the rounds are those of the loop, which stops at the first syndrome 0 or after the tenth round. -/
theorem decodersRunTheBitFlippingRounds : Obligations.DecodersRunTheBitFlippingRounds := by
  intro i s vd va x z ready start round
  have runs : exec i s = .next (s.decoded vd ((s.parity va).bitFlip 10 (x 0) (z 0) 0)) ∧ i.usesP = true ∧
      vd ∈ i.blockFields := by
    rcases start with ⟨rfl, hx, hz⟩ | ⟨vb, rfl, hx, hz⟩
    · have received : s.blockWord vd = x 0 := Nat.eq_of_testBit_eq fun q => by rw [State.testBit_blockWord, hx]
      have syndrome : (s.parity va).synd (x 0) = z 0 := Nat.eq_of_testBit_eq fun k => by
        rw [State.testBit_parity_synd, hz]
        refine congrArg _ (parityBelow_congr fun q hq => ?_)
        rw [hx, decide_eq_true hq, Bool.true_and]
      exact ⟨by rw [exec_decCw ready, received, syndrome]; rfl, rfl, List.mem_cons_self⟩
    · exact ⟨by rw [exec_decSyn ready, hx, hz]; rfl, rfl, List.mem_cons_self⟩
  obtain ⟨e, hP, hvd⟩ := runs
  have rounds := fun {r} => Parity.bitFlip_rounds (r := r) fun r => (round r).eq_flips
  refine ⟨fun r few solved first => ?_, fun unsolved => ?_⟩
  · have loop := rounds first (10 - r)
    rw [Nat.add_sub_of_le few, solved, Parity.bitFlip_of_zero] at loop
    rw [loop] at e
    refine ⟨_, e, s.completesAs_complete .ok _ _, fun b j hb => ?_, fun q hq => State.decoded_vreg_of_not_mem hq _⟩
    rw [ready.decoded_vreg hP hvd hb, testBit_low, Nat.testBit_shiftRight]
  · have loop := rounds (r := 10) (fun r hr => unsolved r hr.le) 0
    rw [Parity.bitFlip_exhausted (unsolved 10 le_rfl)] at loop
    rw [loop] at e
    exact ⟨_, e, s.completesAs_raise .decodeFail _, rfl⟩

end Sys2Proof.Machine
end

section
/-! PROOFS. No step stops the machine, and a completion raises the interrupt that is enabled (60_exceptions.md R283,
R286, R288). -/

namespace Sys2Proof.Machine

/-! ## No step stops the machine -/

/-- Every command is modelled, and none takes a trap (R288, log 8). -/
theorem exec_next (i : Instr) (s : State) : ∃ t, exec i s = .next t := by
  cases hi : i.isGenerator with
  | false =>
    obtain ⟨_, _, _, e, -⟩ := exec_completes i s hi
    exact ⟨_, e⟩
  | true =>
    cases i with
    | genRand vd =>
      cases hf : s.inflight with
      | none => exact ⟨_, execGenRand_idle hf vd⟩
      | some f => exact ⟨_, execGenRand_inflight hf vd⟩
    | genInv vd =>
      cases hf : s.inflight with
      | none => exact ⟨_, execGenInv_idle hf vd⟩
      | some f => exact ⟨_, execGenInv_inflight hf vd⟩
    | _ => cases hi

theorem engineTurn_idle {s : State} (idle : s.inflight = none) : engineTurn s = .next s := by rw [engineTurn, idle]

/-- The engine's turn has a next state, also where the engine is idle or held, or the word in flight is illegal (R105,
R132). -/
theorem engineTurn_next (s : State) : ∃ t, engineTurn s = .next t := by
  cases hf : s.inflight with
  | none => exact ⟨s, engineTurn_idle hf⟩
  | some f =>
    cases hw : s.rngWait with
    | true => exact ⟨s, engineTurn_held hw⟩
    | false =>
      cases hd : decode f.word with
      | ok i =>
        rw [engineTurn_decoded hf hd hw]
        exact exec_next i s
      | error _ => exact ⟨_, engineTurn_illegal hf hd hw⟩

/-- Settles O7, by whose turn it is: only the engine's turn could stop the machine, and it has a next state. -/
theorem everyStepHasANextState : Obligations.EveryStepHasANextState := by
  intro s
  unfold step
  split
  · split
    · exact engineTurn_next s
    · exact ⟨_, rfl⟩
  · exact engineTurn_next _
  all_goals exact ⟨_, rfl⟩

/-! ## The interrupt (R38, R77, R286) -/

@[simp] theorem State.complete_irq (s : State) (code : ErrCode) (res : Word) (d : List (Nat × Nat)) :
    (s.complete code res d).irq = s.ie := by
  rw [State.irq, State.complete_ie, State.complete_done, Bool.and_true]

/-- Settles O17: a completion sets DONE, and changes neither IE nor the platform's line. -/
theorem completionRaisesTheEnabledInterrupt : Obligations.CompletionRaisesTheEnabledInterrupt := by
  intro i s t busy h idle
  obtain ⟨code, res, d, rfl, -⟩ := exec_eq_complete busy h idle
  have raised := s.complete_irq code res d
  exact ⟨raised, fun line => by rw [State.irqAt, raised, State.complete_params]⟩

end Sys2Proof.Machine
end

section
/-! PROOFS. Reset (70_reset_and_hazards.md R320): the invariant holds after it, and every register reads its reset value,
also where power-downs came before (60_exceptions.md R297). -/

namespace Sys2Proof.Machine

/-! ## The invariant after a reset -/

/-- What a reset meets does not matter but for the parameters, so its shape is that of a reset after a power-down. -/
theorem State.shape_engineReset {s : State} (h : s.params.legal = true) : s.engineReset.Shape := by
  have shape := (State.shape_powerDown h).engineReset
  rw [State.engineReset_powerDown] at shape
  exact { shape with }

theorem State.inv_engineReset {s : State} (h : s.params.legal = true) : s.engineReset.Inv :=
  .of_idle (State.shape_engineReset h) s.engineReset_inflight s.engineReset_rngWait

/-- The state after reset is the reset of itself. -/
theorem State.engineReset_reset : State.reset.engineReset = State.reset := rfl

/-- Settles O8: a reset leaves an idle engine of legal shape. -/
theorem resetStateMeetsTheInvariant : Obligations.ResetStateMeetsTheInvariant := by
  refine ⟨?_, fun s h => State.inv_engineReset h⟩
  rw [← State.engineReset_reset]
  exact State.inv_engineReset (by decide)

/-! ## The run of power-downs and a reset -/

theorem step_reset {s : State} {rest : List Turn} (h : s.agenda = .reset :: rest) :
    step s = .next { s with agenda := rest }.engineReset := by rw [step, h]

/-- Of the power-downs before a reset nothing but their count is left (60_exceptions.md R297). -/
theorem run_powerDowns_reset {rest : List Turn} (n : Nat) :
    ∀ s : State, s.agenda = List.replicate n .powerDown ++ .reset :: rest →
      core.run (n + 1) s = .next { s with agenda := rest, powerDowns := s.powerDowns + n }.engineReset := by
  induction n with
  | zero => intro s ha; exact run_succ_of_step 0 (step_reset ha)
  | succ n ih =>
    intro s ha
    have count : s.powerDowns + 1 + n = s.powerDowns + (n + 1) := by omega
    rw [run_succ_of_step (n + 1) (step_powerDown ha), ih _ rfl, State.powerDown_powerDowns, count]
    rfl

/-! ## What the registers read after a reset -/

/-- An idle engine answers every read with the value, the window's too (20_memory.md R75, R76). -/
theorem State.readTarget_idle {s : State} (idle : s.busy = false) (t : Target) : s.readTarget t = (s, s.valueAt t) := by
  cases t with
  | window r w => exact State.readTarget_window_idle idle r w
  | _ => rfl

@[simp] theorem State.engineReset_vreg (s : State) (r : Nat) : s.engineReset.vreg r = 0 := by
  simp [State.vreg, List.getD_eq_getElem?_getD]

/-- DEC_SHIFT[b] resets to 1 (10_state.md R55). -/
theorem State.engineReset_valueAt_decShift {s : State} {b : Nat} (hb : b < s.params.n0Max) :
    s.engineReset.valueAt (.decShift b) = 0x00000001 := by
  rw [State.valueAt, State.engineReset_decShift, List.getD_replicate _ hb]; rfl

theorem State.engineReset_valueAt_window (s : State) (r w : Nat) : s.engineReset.valueAt (.window r w) = 0 := by
  rw [State.valueAt, State.windowWord, State.engineReset_vreg, Nat.zero_shiftRight]; rfl

/-- The registers of one or more fields right after reset (R320). -/
theorem State.reset_valueAt_fields :
    State.reset.valueAt .ctrl = 0 ∧ State.reset.valueAt .status = 0 ∧ State.reset.valueAt .cfgP = 0 ∧
      State.reset.valueAt .cfgN0 = 0x00000002 ∧ State.reset.valueAt .genCfg = 0x01000000 ∧
      State.reset.valueAt .rngLevel = 0 := by decide

/-- What a register above CAP1 reads after a reset: CFG_N0 2, MAXTRY 256, each shift 1, and everything else 0 (R320). -/
def resetWord (p : Params) (off : Nat) : Word :=
  if off = 0x02C then 0x00000002 else if off = 0x030 then 0x01000000
  else if 0x040 ≤ off ∧ off < 0x040 + 4 * p.n0Max then 0x00000001 else 0

/-- By the regions of the map: the registers below 0x040, which do not depend on the parameters, the shifts, the window, and
what is reserved (10_state.md R40). -/
theorem State.engineReset_valueAt_locate (s : State) {off : Nat} (h4 : off % 4 = 0) (lo : 0x00C ≤ off) :
    s.engineReset.valueAt (locate s.params off) = resetWord s.params off := by
  rcases Nat.lt_or_ge off 0x040 with named | above
  · obtain ⟨ctrl, status, cfgP, cfgN0, genCfg, rngLevel⟩ := State.reset_valueAt_fields
    obtain ⟨k, rfl⟩ := Nat.dvd_of_mod_eq_zero h4
    have first : 3 ≤ k := by omega
    have last : k < 16 := by omega
    interval_cases k
    exacts [rfl, ctrl, status, rfl, rfl, rfl, rfl, cfgP, cfgN0, genCfg, rfl, rngLevel, rfl]
  · rw [resetWord, if_neg (by omega), if_neg (by omega)]
    split
    · next shift =>
      rw [locate_shifts shift.1 shift.2]
      exact State.engineReset_valueAt_decShift (by omega)
    · next noShift =>
      rw [locate_above _ above, if_neg fun hi => noShift ⟨above, hi⟩]
      split
      · exact s.engineReset_valueAt_window _ _
      · rfl

/-- Settles O58: the run ends in a reset, whose registers are read one region of the map after the other. -/
theorem platformResetGivesTheResetValues : Obligations.PlatformResetGivesTheResetValues := by
  intro s n rest legal ha
  let u := { s with agenda := rest, powerDowns := s.powerDowns + n }
  obtain ⟨id, cap0, cap1, -⟩ := registersReadTheirFields u.engineReset legal (Nat.zero_le _)
  refine ⟨u.engineReset, run_powerDowns_reset n s ha, rfl, rfl, u.engineReset_vreg, rfl, rfl, fun off h4 lo => ?_,
    id, cap0, cap1, rfl⟩
  rw [State.access_read_value h4 rfl (State.readTarget_idle u.engineReset_busy _)]
  exact congrArg (fun d => (u.engineReset, some (Reply.data d))) (u.engineReset_valueAt_locate h4 lo)

end Sys2Proof.Machine
end
